-- ==== Sys2Proof/Word.lean ====
section
/-! DEFINITION. The word types of the machine: the byte of every memory cell and 8-bit register, and the 16-bit word of
addresses, register pairs, SP and PC (00_scope R7, R9), and the kinds of the operand fields (30_encoding R77). -/

namespace Sys2Proof

/-- The addressable unit and the width of A, F, B, C, D, E, H and L (R7). -/
abbrev Byte := BitVec 8

/-- An address, a register pair, SP or PC (R7). -/
abbrev Word := BitVec 16

/-- The seven registers the `r8` field names; its eighth value is the byte at HL and has rows of its own (R77). -/
inductive Reg8 where
  | b
  | c
  | d
  | e
  | h
  | l
  | a
  deriving DecidableEq, Repr

/-- The `rp` field: LD rr,nn, ADD HL,rr, INC rr, DEC rr (R77). -/
inductive Rp where
  | bc
  | de
  | hl
  | sp
  deriving DecidableEq, Repr

/-- The `rp2` field: PUSH and POP (R77). -/
inductive Rp2 where
  | bc
  | de
  | hl
  | af
  deriving DecidableEq, Repr

/-- The `cc` field: conditional JR, JP, CALL and RET (R77). -/
inductive Cond where
  | nz
  | z
  | nc
  | c
  deriving DecidableEq, Repr

/-- The whole `r8` field: a register, or the byte at HL (R77, R147). -/
inductive Operand8 where
  | reg (r : Reg8)
  | indHl
  deriving DecidableEq, Repr

/-- The `rot` field of the CB page (R77). -/
inductive RotOp where
  | rlc
  | rrc
  | rl
  | rr
  | sla
  | sra
  | swap
  | srl
  deriving DecidableEq, Repr

end Sys2Proof
end

