-- ==== Sys2Proof/Syntax.lean ====
section
/-! DEFINITION. The instructions: one constructor per row of spec/opcode_table.json, in the table's order.  The operand
kinds are in Word.lean. -/

namespace Sys2Proof

/-- The instructions.  `n` is an unsigned immediate, `e` a signed displacement byte, `nn` a 16-bit immediate (R78); `bit` is the
index of BIT, RES and SET, `target` the address of RST (R77, R88).  `IndHl` is the operand `(HL)`, `Ind` another address in
parentheses. -/
inductive Instr where
  | nop
  | ldRrNn (rr : Rp) (nn : Word)
  | ldIndBcA
  | incRr (rr : Rp)
  | incR (r : Reg8)
  | decR (r : Reg8)
  | ldRN (r : Reg8) (n : Byte)
  | rlca
  | ldIndNnSp (nn : Word)
  | addHlRr (rr : Rp)
  | ldAIndBc
  | decRr (rr : Rp)
  | rrca
  /-- STOP keeps its ignored second byte, so that no byte of its encoding is lost (R175). -/
  | stop (n : Byte)
  | ldIndDeA
  | rla
  | jrE (e : Byte)
  | ldAIndDe
  | rra
  | jrCcE (cc : Cond) (e : Byte)
  | ldIndHlIncA
  | daa
  | ldAIndHlInc
  | cpl
  | ldIndHlDecA
  | incIndHl
  | decIndHl
  | ldIndHlN (n : Byte)
  | scf
  | ldAIndHlDec
  | ccf
  | ldRR (dst src : Reg8)
  | ldRIndHl (dst : Reg8)
  | ldIndHlR (src : Reg8)
  | halt
  | addAR (src : Reg8)
  | addAIndHl
  | adcAR (src : Reg8)
  | adcAIndHl
  | subR (src : Reg8)
  | subIndHl
  | sbcAR (src : Reg8)
  | sbcAIndHl
  | andR (src : Reg8)
  | andIndHl
  | xorR (src : Reg8)
  | xorIndHl
  | orR (src : Reg8)
  | orIndHl
  | cpR (src : Reg8)
  | cpIndHl
  | retCc (cc : Cond)
  | popRr (rr : Rp2)
  | jpCcNn (cc : Cond) (nn : Word)
  | jpNn (nn : Word)
  | callCcNn (cc : Cond) (nn : Word)
  | pushRr (rr : Rp2)
  | addAN (n : Byte)
  | rstT (target : Byte)
  | ret
  /-- The lead byte with its second byte, as the primary page's cell "PREFIX CB" has it (R178).  The decoder answers the CB
  page's own instruction for such a pair, never this constructor (log 8). -/
  | prefixCb (op2 : Byte)
  | callNn (nn : Word)
  | adcAN (n : Byte)
  | illegalD3
  | subN (n : Byte)
  | reti
  | illegalDB
  | illegalDD
  | sbcAN (n : Byte)
  | ldhIndNA (n : Byte)
  | ldIndCA
  | illegalE3
  | illegalE4
  | andN (n : Byte)
  | addSpE (e : Byte)
  | jpHl
  | ldIndNnA (nn : Word)
  | illegalEB
  | illegalEC
  | illegalED
  | xorN (n : Byte)
  | ldhAIndN (n : Byte)
  | ldAIndC
  | di
  | illegalF4
  | orN (n : Byte)
  | ldHlSpE (e : Byte)
  | ldSpHl
  | ldAIndNn (nn : Word)
  | ei
  | illegalFC
  | illegalFD
  | cpN (n : Byte)
  | rlcR (r : Reg8)
  | rlcIndHl
  | rrcR (r : Reg8)
  | rrcIndHl
  | rlR (r : Reg8)
  | rlIndHl
  | rrR (r : Reg8)
  | rrIndHl
  | slaR (r : Reg8)
  | slaIndHl
  | sraR (r : Reg8)
  | sraIndHl
  | swapR (r : Reg8)
  | swapIndHl
  | srlR (r : Reg8)
  | srlIndHl
  | bitBR (bit : Nat) (r : Reg8)
  | bitBIndHl (bit : Nat)
  | resBR (bit : Nat) (r : Reg8)
  | resBIndHl (bit : Nat)
  | setBR (bit : Nat) (r : Reg8)
  | setBIndHl (bit : Nat)
  deriving DecidableEq, Repr

end Sys2Proof
end

