-- ==== Sys2Proof/WellFormed.lean ====
section
/-! DEFINITION. Which terms of `Instr` are instructions the encoding tables can hold.  Registers, pairs and conditions are
types of their own and need no check; a bit index, an RST target and the lead byte do. -/

namespace Sys2Proof

/-- The bit index of BIT, RES and SET is 0..7: a larger one is the source's contract violation and has no encoding (R77, R156). -/
def bitIndexOk (bit : Nat) : Bool := decide (bit < 8)

/-- The target of RST is `t * 8` for a 3-bit `t` (R77, R172). -/
def rstTargetOk (target : Byte) : Bool := target &&& 0xC7#8 == 0#8

/-- An instruction the decoder can answer.  The lead byte 0xCB is not an instruction by itself (R178), so `prefixCb` is none:
its pair of bytes is the CB page's own instruction. -/
def Instr.wellFormed : Instr → Bool
  | .bitBR bit _ | .resBR bit _ | .setBR bit _ => bitIndexOk bit
  | .bitBIndHl bit | .resBIndHl bit | .setBIndHl bit => bitIndexOk bit
  | .rstT target => rstTargetOk target
  | .prefixCb _ => false
  | .nop | .ldRrNn _ _ | .ldIndBcA | .incRr _ | .incR _ | .decR _ | .ldRN _ _ | .rlca | .ldIndNnSp _ | .addHlRr _ => true
  | .ldAIndBc | .decRr _ | .rrca | .stop _ | .ldIndDeA | .rla | .jrE _ | .ldAIndDe | .rra | .jrCcE _ _ => true
  | .ldIndHlIncA | .daa | .ldAIndHlInc | .cpl | .ldIndHlDecA | .incIndHl | .decIndHl | .ldIndHlN _ | .scf => true
  | .ldAIndHlDec | .ccf | .ldRR _ _ | .ldRIndHl _ | .ldIndHlR _ | .halt => true
  | .addAR _ | .addAIndHl | .adcAR _ | .adcAIndHl | .subR _ | .subIndHl | .sbcAR _ | .sbcAIndHl => true
  | .andR _ | .andIndHl | .xorR _ | .xorIndHl | .orR _ | .orIndHl | .cpR _ | .cpIndHl => true
  | .retCc _ | .popRr _ | .jpCcNn _ _ | .jpNn _ | .callCcNn _ _ | .pushRr _ | .addAN _ | .ret | .callNn _ | .adcAN _ => true
  | .illegalD3 | .illegalDB | .illegalDD | .illegalE3 | .illegalE4 | .illegalEB | .illegalEC | .illegalED => true
  | .illegalF4 | .illegalFC | .illegalFD => true
  | .subN _ | .reti | .sbcAN _ | .ldhIndNA _ | .ldIndCA | .andN _ | .addSpE _ | .jpHl | .ldIndNnA _ | .xorN _ => true
  | .ldhAIndN _ | .ldAIndC | .di | .orN _ | .ldHlSpE _ | .ldSpHl | .ldAIndNn _ | .ei | .cpN _ => true
  | .rlcR _ | .rlcIndHl | .rrcR _ | .rrcIndHl | .rlR _ | .rlIndHl | .rrR _ | .rrIndHl => true
  | .slaR _ | .slaIndHl | .sraR _ | .sraIndHl | .swapR _ | .swapIndHl | .srlR _ | .srlIndHl => true

end Sys2Proof
end

