-- ==== Sys2Proof/Decode.lean ====
section
/-! DEFINITION. The decoder (30_encoding R75 to R87), total on any bytes, and after it the encoder, written from the same
tables.  The only bytes the decoder refuses are too few of them: every byte of both pages has a row (R83, R84, R85). -/

namespace Sys2Proof

/-- Why a list of bytes is no instruction. -/
inductive DecodeError where
  /-- There is no opcode byte. -/
  | empty
  /-- The instruction the first byte begins has more bytes than were given (R82). -/
  | truncated
  deriving DecidableEq, Repr

/-! Fields of an opcode byte (R76). -/

def fieldX (op : Byte) : Nat := (op.extractLsb' 6 2).toNat
def fieldY (op : Byte) : Nat := (op.extractLsb' 3 3).toNat
def fieldZ (op : Byte) : Nat := (op.extractLsb' 0 3).toNat
def fieldP (op : Byte) : Nat := (op.extractLsb' 4 2).toNat
def fieldQ (op : Byte) : Nat := (op.extractLsb' 3 1).toNat

/-- `r8`: 0 B, 1 C, 2 D, 3 E, 4 H, 5 L, 6 (HL), 7 A (R77). -/
def operand8Of : Nat → Operand8
  | 0 => .reg .b
  | 1 => .reg .c
  | 2 => .reg .d
  | 3 => .reg .e
  | 4 => .reg .h
  | 5 => .reg .l
  | 6 => .indHl
  | _ => .reg .a

/-- `rp`: 0 BC, 1 DE, 2 HL, 3 SP (R77). -/
def rpOf : Nat → Rp
  | 0 => .bc
  | 1 => .de
  | 2 => .hl
  | _ => .sp

/-- `rp2`: 0 BC, 1 DE, 2 HL, 3 AF (R77). -/
def rp2Of : Nat → Rp2
  | 0 => .bc
  | 1 => .de
  | 2 => .hl
  | _ => .af

/-- `cc`, bits 4:3: 0 NZ, 1 Z, 2 NC, 3 C (R77).  In the conditional rows bit 5 is fixed, so it is `y` modulo 4. -/
def condOf (y : Nat) : Cond :=
  match y % 4 with
  | 0 => .nz
  | 1 => .z
  | 2 => .nc
  | _ => .c

/-- `rot`: 0 RLC, 1 RRC, 2 RL, 3 RR, 4 SLA, 5 SRA, 6 SWAP, 7 SRL (R77). -/
def rotOf : Nat → RotOp
  | 0 => .rlc
  | 1 => .rrc
  | 2 => .rl
  | 3 => .rr
  | 4 => .sla
  | 5 => .sra
  | 6 => .swap
  | _ => .srl

/-- `nn = {byte3, byte2}`: little-endian (R66, R78). -/
def immediate16 (byte2 byte3 : Byte) : Word := byte3 ++ byte2

/-! The primary page (R83), by its quarters `x = 0..3`. -/

/-- `x = 0`, bytes 0x00-0x3F. -/
def decodeQuarter0 (op byte2 byte3 : Byte) : Instr :=
  match fieldZ op with
  | 0 =>
    match fieldY op with
    | 0 => .nop
    | 1 => .ldIndNnSp (immediate16 byte2 byte3)
    | 2 => .stop byte2
    | 3 => .jrE byte2
    | y => .jrCcE (condOf y) byte2
  | 1 =>
    match fieldQ op with
    | 0 => .ldRrNn (rpOf (fieldP op)) (immediate16 byte2 byte3)
    | _ => .addHlRr (rpOf (fieldP op))
  | 2 =>
    match fieldY op with
    | 0 => .ldIndBcA
    | 1 => .ldAIndBc
    | 2 => .ldIndDeA
    | 3 => .ldAIndDe
    | 4 => .ldIndHlIncA
    | 5 => .ldAIndHlInc
    | 6 => .ldIndHlDecA
    | _ => .ldAIndHlDec
  | 3 =>
    match fieldQ op with
    | 0 => .incRr (rpOf (fieldP op))
    | _ => .decRr (rpOf (fieldP op))
  | 4 =>
    match operand8Of (fieldY op) with
    | .reg r => .incR r
    | .indHl => .incIndHl
  | 5 =>
    match operand8Of (fieldY op) with
    | .reg r => .decR r
    | .indHl => .decIndHl
  | 6 =>
    match operand8Of (fieldY op) with
    | .reg r => .ldRN r byte2
    | .indHl => .ldIndHlN byte2
  | _ =>
    match fieldY op with
    | 0 => .rlca
    | 1 => .rrca
    | 2 => .rla
    | 3 => .rra
    | 4 => .daa
    | 5 => .cpl
    | 6 => .scf
    | _ => .ccf

/-- `x = 1`, bytes 0x40-0x7F: LD r,r' with HALT in the (HL),(HL) slot (R92, R174). -/
def decodeQuarter1 (op : Byte) : Instr :=
  match operand8Of (fieldY op), operand8Of (fieldZ op) with
  | .reg dst, .reg src => .ldRR dst src
  | .reg dst, .indHl => .ldRIndHl dst
  | .indHl, .reg src => .ldIndHlR src
  | .indHl, .indHl => .halt

/-- `x = 2`, bytes 0x80-0xBF: the ALU group by `alu` in `y` (R77, R118). -/
def decodeQuarter2 (op : Byte) : Instr :=
  match fieldY op, operand8Of (fieldZ op) with
  | 0, .reg src => .addAR src
  | 0, .indHl => .addAIndHl
  | 1, .reg src => .adcAR src
  | 1, .indHl => .adcAIndHl
  | 2, .reg src => .subR src
  | 2, .indHl => .subIndHl
  | 3, .reg src => .sbcAR src
  | 3, .indHl => .sbcAIndHl
  | 4, .reg src => .andR src
  | 4, .indHl => .andIndHl
  | 5, .reg src => .xorR src
  | 5, .indHl => .xorIndHl
  | 6, .reg src => .orR src
  | 6, .indHl => .orIndHl
  | _, .reg src => .cpR src
  | _, .indHl => .cpIndHl

/-- What a byte of the CB page asks for: its `x` group, and its operand by the `r8` field (R84, R147). -/
inductive CbOp where
  | rotate (op : RotOp) (operand : Operand8)
  | bit (index : Nat) (operand : Operand8)
  | res (index : Nat) (operand : Operand8)
  | set (index : Nat) (operand : Operand8)
  deriving DecidableEq, Repr

/-- `CB[op2]`: every byte is an instruction (R84). -/
def cbOpOf (op2 : Byte) : CbOp :=
  match fieldX op2 with
  | 0 => .rotate (rotOf (fieldY op2)) (operand8Of (fieldZ op2))
  | 1 => .bit (fieldY op2) (operand8Of (fieldZ op2))
  | 2 => .res (fieldY op2) (operand8Of (fieldZ op2))
  | _ => .set (fieldY op2) (operand8Of (fieldZ op2))

/-- The row of the opcode table a CB-page operation belongs to. -/
def CbOp.instr : CbOp → Instr
  | .rotate .rlc (.reg r) => .rlcR r
  | .rotate .rlc .indHl => .rlcIndHl
  | .rotate .rrc (.reg r) => .rrcR r
  | .rotate .rrc .indHl => .rrcIndHl
  | .rotate .rl (.reg r) => .rlR r
  | .rotate .rl .indHl => .rlIndHl
  | .rotate .rr (.reg r) => .rrR r
  | .rotate .rr .indHl => .rrIndHl
  | .rotate .sla (.reg r) => .slaR r
  | .rotate .sla .indHl => .slaIndHl
  | .rotate .sra (.reg r) => .sraR r
  | .rotate .sra .indHl => .sraIndHl
  | .rotate .swap (.reg r) => .swapR r
  | .rotate .swap .indHl => .swapIndHl
  | .rotate .srl (.reg r) => .srlR r
  | .rotate .srl .indHl => .srlIndHl
  | .bit index (.reg r) => .bitBR index r
  | .bit index .indHl => .bitBIndHl index
  | .res index (.reg r) => .resBR index r
  | .res index .indHl => .resBIndHl index
  | .set index (.reg r) => .setBR index r
  | .set index .indHl => .setBIndHl index

/-- `x = 3`, bytes 0xC0-0xFF, the eleven illegal bytes among them (R85). -/
def decodeQuarter3 (op byte2 byte3 : Byte) : Instr :=
  match fieldZ op with
  | 0 =>
    match fieldY op with
    | 4 => .ldhIndNA byte2
    | 5 => .addSpE byte2
    | 6 => .ldhAIndN byte2
    | 7 => .ldHlSpE byte2
    | y => .retCc (condOf y)
  | 1 =>
    match fieldQ op, fieldP op with
    | 0, p => .popRr (rp2Of p)
    | _, 0 => .ret
    | _, 1 => .reti
    | _, 2 => .jpHl
    | _, _ => .ldSpHl
  | 2 =>
    match fieldY op with
    | 4 => .ldIndCA
    | 5 => .ldIndNnA (immediate16 byte2 byte3)
    | 6 => .ldAIndC
    | 7 => .ldAIndNn (immediate16 byte2 byte3)
    | y => .jpCcNn (condOf y) (immediate16 byte2 byte3)
  | 3 =>
    match fieldY op with
    | 0 => .jpNn (immediate16 byte2 byte3)
    | 1 => (cbOpOf byte2).instr
    | 2 => .illegalD3
    | 3 => .illegalDB
    | 4 => .illegalE3
    | 5 => .illegalEB
    | 6 => .di
    | _ => .ei
  | 4 =>
    match fieldY op with
    | 4 => .illegalE4
    | 5 => .illegalEC
    | 6 => .illegalF4
    | 7 => .illegalFC
    | y => .callCcNn (condOf y) (immediate16 byte2 byte3)
  | 5 =>
    match fieldQ op, fieldP op with
    | 0, p => .pushRr (rp2Of p)
    | _, 0 => .callNn (immediate16 byte2 byte3)
    | _, 1 => .illegalDD
    | _, 2 => .illegalED
    | _, _ => .illegalFD
  | 6 =>
    match fieldY op with
    | 0 => .addAN byte2
    | 1 => .adcAN byte2
    | 2 => .subN byte2
    | 3 => .sbcAN byte2
    | 4 => .andN byte2
    | 5 => .xorN byte2
    | 6 => .orN byte2
    | _ => .cpN byte2
  | _ => .rstT (op &&& 0x38#8)

/-- The instruction whose bytes are `op`, `byte2` and `byte3`, the ones past its length ignored (R81 to R84). -/
def decodeOpcode (op byte2 byte3 : Byte) : Instr :=
  match fieldX op with
  | 0 => decodeQuarter0 op byte2 byte3
  | 1 => decodeQuarter1 op
  | 2 => decodeQuarter2 op
  | _ => decodeQuarter3 op byte2 byte3

/-- The first bytes of the instructions of length 3 (R82). -/
def threeByteOpcodes : List Byte :=
  [0x01, 0x11, 0x21, 0x31, 0x08, 0xC2, 0xC3, 0xC4, 0xCA, 0xCC, 0xCD, 0xD2, 0xD4, 0xDA, 0xDC, 0xEA, 0xFA]

/-- The first bytes of the instructions of length 2 (R82). -/
def twoByteOpcodes : List Byte :=
  [0x06, 0x0E, 0x16, 0x1E, 0x26, 0x2E, 0x36, 0x3E, 0x10, 0x18, 0x20, 0x28, 0x30, 0x38] ++
  [0xC6, 0xCE, 0xD6, 0xDE, 0xE6, 0xEE, 0xF6, 0xFE, 0xE0, 0xF0, 0xE8, 0xF8, 0xCB]

/-- The length of an instruction follows from its first byte (R82). -/
def instrLength (op : Byte) : Nat :=
  if op ∈ threeByteOpcodes then 3 else if op ∈ twoByteOpcodes then 2 else 1

/-- The decoder: the instruction at the head of a list of bytes and the bytes after it. -/
def decode (bytes : List Byte) : Except DecodeError (Instr × List Byte) :=
  match bytes with
  | [] => .error .empty
  | op :: rest =>
    match instrLength op, rest with
    | 1, _ => .ok (decodeOpcode op 0 0, rest)
    | 2, byte2 :: rest => .ok (decodeOpcode op byte2 0, rest)
    | 3, byte2 :: byte3 :: rest => .ok (decodeOpcode op byte2 byte3, rest)
    | _, _ => .error .truncated

/-! The encoder. -/

def Reg8.code : Reg8 → Byte
  | .b => 0
  | .c => 1
  | .d => 2
  | .e => 3
  | .h => 4
  | .l => 5
  | .a => 7

def Rp.code : Rp → Byte
  | .bc => 0
  | .de => 1
  | .hl => 2
  | .sp => 3

def Rp2.code : Rp2 → Byte
  | .bc => 0
  | .de => 1
  | .hl => 2
  | .af => 3

def Cond.code : Cond → Byte
  | .nz => 0
  | .z => 1
  | .nc => 2
  | .c => 3

/-- `base` with a code in the bits from `lo` up. -/
def withField (base code : Byte) (lo : Nat) : Byte := base ||| (code <<< lo)

/-- Byte 2 of `nn`, its low byte (R78). -/
def lowByte (nn : Word) : Byte := nn.extractLsb' 0 8

/-- Byte 3 of `nn`, its high byte (R78). -/
def highByte (nn : Word) : Byte := nn.extractLsb' 8 8

/-- A CB-page pair: the lead byte, then `base` with the operand's code in bits 2:0 (R75, R84). -/
def cbBytes (base code : Byte) : List Byte := [0xCB, withField base code 0]

/-- A CB-page pair of BIT, RES or SET, with the bit index in bits 5:3 (R77). -/
def cbBitBytes (base : Byte) (bit : Nat) (code : Byte) : List Byte :=
  [0xCB, withField (withField base (BitVec.ofNat 8 bit) 3) code 0]

/-- The bytes of an instruction, lowest address first (the encoding column of opcode_table.json). -/
def encode : Instr → List Byte
  | .nop => [0x00]
  | .ldRrNn rr nn => [withField 0x01 rr.code 4, lowByte nn, highByte nn]
  | .ldIndBcA => [0x02]
  | .incRr rr => [withField 0x03 rr.code 4]
  | .incR r => [withField 0x04 r.code 3]
  | .decR r => [withField 0x05 r.code 3]
  | .ldRN r n => [withField 0x06 r.code 3, n]
  | .rlca => [0x07]
  | .ldIndNnSp nn => [0x08, lowByte nn, highByte nn]
  | .addHlRr rr => [withField 0x09 rr.code 4]
  | .ldAIndBc => [0x0A]
  | .decRr rr => [withField 0x0B rr.code 4]
  | .rrca => [0x0F]
  | .stop n => [0x10, n]
  | .ldIndDeA => [0x12]
  | .rla => [0x17]
  | .jrE e => [0x18, e]
  | .ldAIndDe => [0x1A]
  | .rra => [0x1F]
  | .jrCcE cc e => [withField 0x20 cc.code 3, e]
  | .ldIndHlIncA => [0x22]
  | .daa => [0x27]
  | .ldAIndHlInc => [0x2A]
  | .cpl => [0x2F]
  | .ldIndHlDecA => [0x32]
  | .incIndHl => [0x34]
  | .decIndHl => [0x35]
  | .ldIndHlN n => [0x36, n]
  | .scf => [0x37]
  | .ldAIndHlDec => [0x3A]
  | .ccf => [0x3F]
  | .ldRR dst src => [withField (withField 0x40 dst.code 3) src.code 0]
  | .ldRIndHl dst => [withField 0x46 dst.code 3]
  | .ldIndHlR src => [withField 0x70 src.code 0]
  | .halt => [0x76]
  | .addAR src => [withField 0x80 src.code 0]
  | .addAIndHl => [0x86]
  | .adcAR src => [withField 0x88 src.code 0]
  | .adcAIndHl => [0x8E]
  | .subR src => [withField 0x90 src.code 0]
  | .subIndHl => [0x96]
  | .sbcAR src => [withField 0x98 src.code 0]
  | .sbcAIndHl => [0x9E]
  | .andR src => [withField 0xA0 src.code 0]
  | .andIndHl => [0xA6]
  | .xorR src => [withField 0xA8 src.code 0]
  | .xorIndHl => [0xAE]
  | .orR src => [withField 0xB0 src.code 0]
  | .orIndHl => [0xB6]
  | .cpR src => [withField 0xB8 src.code 0]
  | .cpIndHl => [0xBE]
  | .retCc cc => [withField 0xC0 cc.code 3]
  | .popRr rr => [withField 0xC1 rr.code 4]
  | .jpCcNn cc nn => [withField 0xC2 cc.code 3, lowByte nn, highByte nn]
  | .jpNn nn => [0xC3, lowByte nn, highByte nn]
  | .callCcNn cc nn => [withField 0xC4 cc.code 3, lowByte nn, highByte nn]
  | .pushRr rr => [withField 0xC5 rr.code 4]
  | .addAN n => [0xC6, n]
  | .rstT target => [0xC7 ||| target]
  | .ret => [0xC9]
  | .prefixCb op2 => [0xCB, op2]
  | .callNn nn => [0xCD, lowByte nn, highByte nn]
  | .adcAN n => [0xCE, n]
  | .illegalD3 => [0xD3]
  | .subN n => [0xD6, n]
  | .reti => [0xD9]
  | .illegalDB => [0xDB]
  | .illegalDD => [0xDD]
  | .sbcAN n => [0xDE, n]
  | .ldhIndNA n => [0xE0, n]
  | .ldIndCA => [0xE2]
  | .illegalE3 => [0xE3]
  | .illegalE4 => [0xE4]
  | .andN n => [0xE6, n]
  | .addSpE e => [0xE8, e]
  | .jpHl => [0xE9]
  | .ldIndNnA nn => [0xEA, lowByte nn, highByte nn]
  | .illegalEB => [0xEB]
  | .illegalEC => [0xEC]
  | .illegalED => [0xED]
  | .xorN n => [0xEE, n]
  | .ldhAIndN n => [0xF0, n]
  | .ldAIndC => [0xF2]
  | .di => [0xF3]
  | .illegalF4 => [0xF4]
  | .orN n => [0xF6, n]
  | .ldHlSpE e => [0xF8, e]
  | .ldSpHl => [0xF9]
  | .ldAIndNn nn => [0xFA, lowByte nn, highByte nn]
  | .ei => [0xFB]
  | .illegalFC => [0xFC]
  | .illegalFD => [0xFD]
  | .cpN n => [0xFE, n]
  | .rlcR r => cbBytes 0x00 r.code
  | .rlcIndHl => cbBytes 0x00 6
  | .rrcR r => cbBytes 0x08 r.code
  | .rrcIndHl => cbBytes 0x08 6
  | .rlR r => cbBytes 0x10 r.code
  | .rlIndHl => cbBytes 0x10 6
  | .rrR r => cbBytes 0x18 r.code
  | .rrIndHl => cbBytes 0x18 6
  | .slaR r => cbBytes 0x20 r.code
  | .slaIndHl => cbBytes 0x20 6
  | .sraR r => cbBytes 0x28 r.code
  | .sraIndHl => cbBytes 0x28 6
  | .swapR r => cbBytes 0x30 r.code
  | .swapIndHl => cbBytes 0x30 6
  | .srlR r => cbBytes 0x38 r.code
  | .srlIndHl => cbBytes 0x38 6
  | .bitBR bit r => cbBitBytes 0x40 bit r.code
  | .bitBIndHl bit => cbBitBytes 0x40 bit 6
  | .resBR bit r => cbBitBytes 0x80 bit r.code
  | .resBIndHl bit => cbBitBytes 0x80 bit 6
  | .setBR bit r => cbBitBytes 0xC0 bit r.code
  | .setBIndHl bit => cbBitBytes 0xC0 bit 6

/-! The opcode table's own numbering of an instruction's bits, for the host. -/

/-- The bytes the table's word `w` of `nbits` bits stands for, lowest address first, with bytes of zeros up to the longest
instruction.  A row of 8 bits is the opcode byte.  A row of 16 bits is of the CB page, and the table's pattern has the lead
byte 0xCB in bits 15:8 and the second byte in bits 7:0 (R76, log 9); any other word has its first byte in bits 7:0. -/
def tableWordBytes (nbits w : Nat) : List Byte :=
  let byte0 := BitVec.ofNat 8 w
  let byte1 := BitVec.ofNat 8 (w / 0x100)
  let byte2 := BitVec.ofNat 8 (w / 0x10000)
  if nbits ≤ 8 then [byte0, 0, 0]
  else if nbits ≤ 16 then
    if byte1 = 0xCB then [byte1, byte0, 0] else [byte0, byte1, 0]
  else [byte0, byte1, byte2]

/-- The instruction the decoder reads from a word of the opcode table. -/
def decodeTableWord (nbits w : Nat) : Option Instr :=
  match decode (tableWordBytes nbits w) with
  | .ok (i, _) => some i
  | .error _ => none

end Sys2Proof
end

