-- ==== Sys2Proof/Config.lean ====
section
/-! DEFINITION. What is fixed for one machine (the parameters of 00_scope R8 that are not the cartridge) and the free values:
opaque constants without a body, which nothing in Lean can evaluate, for everything the spec calls a draw. -/

namespace Sys2Proof

/-- The two readings of the flags of ADD SP,e and LD HL,SP+e (R8, R136). -/
inductive SpOffsetFlags where
  | hw
  | doc16
  deriving DecidableEq, Repr

/-- The parameters of R8 other than CART_IMAGE and the draws.  A machine holds them in its state and never changes them,
so that a claim holds for every setting (log 5). -/
structure Config where
  /-- INT_DISPATCH_CYCLES: the cost of one interrupt dispatch (R189). -/
  intDispatchCycles : Nat
  /-- SP_OFFSET_FLAGS (R136). -/
  spOffsetFlags : SpOffsetFlags
  /-- BOOT_ROM: absent, or the 256-byte image as cells; an unlisted cell of a present image is 0x00 (R8, R37). -/
  bootRom : Option (List (Nat × Byte))
  deriving DecidableEq, Repr

/-- The defaults R8 decides: 20 cycles, `hw`, no boot image. -/
def Config.default : Config :=
  { intDispatchCycles := 20, spOffsetFlags := .hw, bootRom := none }

/-- The byte arrays whose contents R32 leaves "any" at reset. -/
inductive RamArray where
  | vram
  | wram
  | oam
  | hram
  | io
  | ext
  | mbc2
  deriving DecidableEq, Repr

/-- FREE VALUE: what a cell of a byte array holds before anything has written it, one draw per cell (R32, D43, log 1). -/
opaque Config.powerOnByte (array : RamArray) (index : Nat) : Byte

/-- FREE VALUE: `InputRead(joyp_sel)`, what a read of 0xFF00 returns in step number `time` (R43, log 3). -/
opaque Config.inputRead (time : Nat) (sel : BitVec 2) : Byte

/-- FREE VALUE: `UnusableRead`, what a read of 0xFEA0-0xFEFF returns in step number `time` (R40, log 3). -/
opaque Config.unusableRead (time : Nat) (address : Word) : Byte

/-- The CPU registers R32 leaves "any" in the boot mode. -/
inductive BootRegister where
  | a
  | f
  | b
  | c
  | d
  | e
  | h
  | l
  | spHigh
  | spLow
  deriving DecidableEq, Repr

/-- FREE VALUE: what a CPU register holds at reset in the boot mode (R32, R204, log 6). -/
opaque Config.bootRegister (r : BootRegister) : Byte

end Sys2Proof
end

