-- ==== Sys2Proof/Machine/State.lean ====
section
/-! DEFINITION. The state of the block as plain data (10_state), the reasons a step can stop, the canonical form of memory, and
the state after reset (10_state R32, 70_reset_and_hazards R204). -/

namespace Sys2Proof.Machine

/-! ## Memory -/

/-- A byte array as a sparse list of (index, byte) pairs in one canonical form, `Mem.wf`. -/
abbrev Mem := List Host.Cell

/-- Indices strictly rising. -/
def Mem.rising : Mem → Bool
  | [] => true
  | [_] => true
  | (i, _) :: (j, v) :: rest => decide (i < j) && Mem.rising ((j, v) :: rest)

/-- The canonical form of an array whose unlisted cells hold `unlisted` (`none`: no value, the cell is a draw): indices
strictly rising and below the size, and no entry equal to what an unlisted cell holds. -/
def Mem.wf (unlisted : Option Byte) (size : Nat) (m : Mem) : Bool :=
  Mem.rising m && m.all (fun cell => decide (cell.1 < size) && !(some cell.2 == unlisted))

/-- What an unlisted cell of a RAM array or of `io` holds: nothing has written it, so its value is a draw (R32, log 1). -/
def ramUnlisted : Option Byte := none

/-- What an unlisted cell of an image (CART_IMAGE, BOOT_ROM) holds: the byte 0x00 (log 4). -/
def imageUnlisted : Option Byte := some 0x00

/-! ## The parts of the state -/

/-- The flags of F: bit 7 Z, bit 6 N, bit 5 H, bit 4 C; bits 3:0 are always 0 (R15, R16). -/
structure Flags where
  z : Bool
  n : Bool
  h : Bool
  c : Bool
  deriving DecidableEq, Repr

/-- The register file and SP (R13, R17). -/
structure Regs where
  a : Byte
  f : Flags
  b : Byte
  c : Byte
  d : Byte
  e : Byte
  h : Byte
  l : Byte
  sp : Word
  deriving DecidableEq, Repr

/-- The power states (R19, R201). -/
inductive Mode where
  | running
  | halted
  | stopped
  deriving DecidableEq, Repr

/-- The timer (R26, R27). -/
structure Timer where
  div : Byte
  tima : Byte
  tma : Byte
  tac : BitVec 3
  divSub : Nat
  timaSub : Nat
  deriving DecidableEq, Repr

/-- The byte arrays of R28 and the cartridge RAMs of R30. -/
structure Ram where
  vram : Mem
  wram : Mem
  oam : Mem
  hram : Mem
  io : Mem
  ext : Mem
  mbc2 : Mem
  deriving DecidableEq, Repr

/-- The bank-controller variants (R30, R52). -/
inductive Variant where
  | plain
  | v1
  | v2
  | v3
  | v5
  deriving DecidableEq, Repr

/-- What load fixes of the cartridge (R30, R50): it never changes after load. -/
structure Cart where
  /-- The bytes of CART_IMAGE that are not 0x00. -/
  rom : Mem
  /-- The length of CART_IMAGE. -/
  romLength : Nat
  romBanks : Nat
  ramBanks : Nat
  variant : Variant
  deriving DecidableEq, Repr

/-- The bank-controller registers (R31).  `romBank` is `rom_lo` on v1. -/
structure Bank where
  ramEnable : Bool
  romBank : BitVec 9
  romHi : BitVec 2
  ramBank : Byte
  bankMode : Bool
  deriving DecidableEq, Repr

/-- The events a step offers to the host (R203): nothing of the block reads them back. -/
inductive Output where
  /-- A byte written to 0xFF01, offered to the debug sink (R44). -/
  | debugSink (byte : Byte)
  /-- A write to a palette register 0xFF47-0xFF49, for the colour table (R46). -/
  | colourTable (register : Nat) (byte : Byte)
  deriving DecidableEq, Repr

/-- Why the machine stops with a fault. -/
inductive Fault where
  /-- Raised by the eleven illegal bytes fetched as an opcode, and by every step of a state that already holds this fault
  (R179, R182).  Safe: the spec names this stop and the state it leaves. -/
  | illegalOpcode (address : Word) (byte : Byte)
  deriving DecidableEq, Repr

/-- Why the machine gives no meaning to what it was asked. -/
inductive Refusal where
  /-- Raised by an arm of `exec` that has no meaning yet.  Safe. -/
  | notModelled (mnemonic : String)
  /-- Raised by an access to 0xA000-0xBFFF on variant-3 with RAM enabled and a clock register selected: the spec's
  `Unmodelled(RtcRegister)` (R63, R182).  Safe: the spec names this stop. -/
  | rtcRegister
  /-- Raised by every step of a state whose `refused` mark is set: no further step is enabled (R21, R180).  Safe. -/
  | alreadyRefused
  deriving DecidableEq, Repr

/-- The state of the block. -/
structure State where
  /-- A, F, B, C, D, E, H, L and SP (R13, R17). -/
  regs : Regs
  /-- PC (R18). -/
  pc : Word
  /-- `mode` (R19). -/
  mode : Mode
  /-- `halt_bug` (R20). -/
  haltBug : Bool
  /-- `fault` (R21). -/
  fault : Option Fault
  /-- `refused` (R21). -/
  refused : Bool
  /-- `ime` (R22). -/
  ime : Bool
  /-- `ei_delay`, 0..2 (R23). -/
  eiDelay : Nat
  /-- `IF`, 5 bits (R24). -/
  irqFlags : BitVec 5
  /-- `IE`, 8 bits (R25). -/
  irqEnable : Byte
  /-- DIV, TIMA, TMA, TAC and their sub-counters (R26, R27). -/
  timer : Timer
  /-- The byte arrays (R28, R30). -/
  ram : Ram
  /-- `joyp_sel`, 2 bits (R28, R43). -/
  joypSel : BitVec 2
  /-- `boot_active` (R29). -/
  bootActive : Bool
  /-- The cartridge as loaded (R30). -/
  cart : Cart
  /-- The bank-controller registers (R31). -/
  bank : Bank
  /-- `last_cycles`: the cycles the last step reported (R180). -/
  lastCycles : Nat
  /-- The model's own: the events offered to the host, newest first (R203, log 7). -/
  outputs : List Output
  /-- The parameters of R8, constant. -/
  cfg : Config
  /-- The model's own: the number of completed steps, which indexes the draws (log 3). -/
  draws : Nat
  deriving DecidableEq, Repr

/-! ## The canonical form of the whole memory -/

/-- Every byte array of the state, and the images it was loaded with, are in canonical form at their sizes (R28, R30, R7); an
entry of `mbc2_ram` has 4 bits. -/
def Memory.wf (s : State) : Bool :=
  Mem.wf ramUnlisted 0x2000 s.ram.vram && Mem.wf ramUnlisted 0x2000 s.ram.wram && Mem.wf ramUnlisted 0xA0 s.ram.oam &&
  Mem.wf ramUnlisted 0x7F s.ram.hram && Mem.wf ramUnlisted 0x80 s.ram.io &&
  Mem.wf ramUnlisted (s.cart.ramBanks * 0x2000) s.ram.ext && Mem.wf ramUnlisted 0x200 s.ram.mbc2 &&
  s.ram.mbc2.all (fun cell => decide (cell.2.toNat < 16)) &&
  Mem.wf imageUnlisted s.cart.romLength s.cart.rom &&
  (match s.cfg.bootRom with
   | some image => Mem.wf imageUnlisted 0x100 image
   | none => true)

/-! ## Reset -/

/-- The I/O addresses that have no storage in `io`: they go to `joyp_sel`, the timer and IF (R28, R42). -/
def ioRouted (offset : Nat) : Bool :=
  offset == 0x00 || offset == 0x04 || offset == 0x05 || offset == 0x06 || offset == 0x07 || offset == 0x0F

/-- The I/O cells R32 gives a post-boot value, and the two palettes OBP0 and OBP1, which it leaves "any": 0x00 (DESIGN CHOICE,
log 2).  Every other cell of `io` is a draw, as R32 has it (log 1). -/
def ioPostBootCells : Mem :=
  [(0x01, 0x00), (0x02, 0x7E), (0x10, 0x80), (0x11, 0xBF), (0x12, 0xF3), (0x13, 0xFF), (0x14, 0xBF), (0x16, 0x3F)] ++
  [(0x17, 0x00), (0x18, 0xFF), (0x19, 0xBF), (0x1A, 0x7F), (0x1B, 0xFF), (0x1C, 0x9F), (0x1D, 0xFF), (0x1E, 0xBF)] ++
  [(0x20, 0xFF), (0x21, 0x00), (0x22, 0x00), (0x23, 0xBF), (0x24, 0x77), (0x25, 0xF3), (0x26, 0xF1)] ++
  [(0x40, 0x91), (0x41, 0x85), (0x42, 0x00), (0x43, 0x00), (0x44, 0x00), (0x45, 0x00), (0x46, 0xFF), (0x47, 0xFC)] ++
  [(0x48, 0x00), (0x49, 0x00), (0x4A, 0x00), (0x4B, 0x00), (0x50, 0x01)]

/-- The bank controller after load (R32, D24). -/
def Bank.reset : Bank :=
  { ramEnable := false, romBank := 1, romHi := 0, ramBank := 0, bankMode := false }

/-- The state after reset in the post-boot mode, for a loaded cartridge (R32, R204). -/
def State.postBoot (cart : Cart) (cfg : Config) : State :=
  { regs := { a := 0x01, f := { z := true, n := false, h := true, c := true }, b := 0x00, c := 0x13, d := 0x00, e := 0xD8,
              h := 0x01, l := 0x4D, sp := 0xFFFE }
    pc := 0x0100
    mode := .running
    haltBug := false
    fault := none
    refused := false
    ime := false
    eiDelay := 0
    irqFlags := 0x01
    irqEnable := 0x00
    timer := { div := 0xAB, tima := 0x00, tma := 0x00, tac := 0, divSub := 0, timaSub := 0 }
    ram := { vram := [], wram := [], oam := [], hram := [], io := ioPostBootCells, ext := [], mbc2 := [] }
    joypSel := 0
    bootActive := false
    cart := cart
    bank := Bank.reset
    lastCycles := 0
    outputs := []
    cfg := cfg
    draws := 0 }

/-- The cartridge of `State.reset`: CART_IMAGE is a parameter of the spec, and this is the image of 32 KiB of 0x00 bytes, which
loads as variant none with two ROM banks and no RAM (R50 to R54; DESIGN CHOICE, log 4). -/
def Cart.blank : Cart :=
  { rom := [], romLength := 0x8000, romBanks := 2, ramBanks := 0, variant := .plain }

/-- The machine right after reset: post-boot mode, the blank cartridge, the default parameters (R204, log 4, log 5). -/
def State.reset : State := State.postBoot Cart.blank Config.default

end Sys2Proof.Machine
end

