-- ==== Sys2Proof/Machine/Cells.lean ====
section
/-! DEFINITION. Reading and writing one cell of a byte array held in canonical form. -/

namespace Sys2Proof.Machine

/-- The listed value of a cell, `none` where nothing is listed. -/
def cellRead (m : Mem) (i : Nat) : Option Byte :=
  match m with
  | [] => none
  | (j, v) :: rest => if i = j then some v else if i < j then none else cellRead rest i

/-- The list with cell `i` holding `v`: replaced where it is listed, put in its place where it is not. -/
def cellInsert (m : Mem) (i : Nat) (v : Byte) : Mem :=
  match m with
  | [] => [(i, v)]
  | (j, w) :: rest =>
    if i = j then (i, v) :: rest
    else if i < j then (i, v) :: (j, w) :: rest
    else (j, w) :: cellInsert rest i v

/-- The list without cell `i`. -/
def cellErase (m : Mem) (i : Nat) : Mem :=
  match m with
  | [] => []
  | (j, w) :: rest => if i = j then rest else if i < j then (j, w) :: rest else (j, w) :: cellErase rest i

/-- Cell `i` written with `v`, in canonical form: the value an unlisted cell holds is not listed. -/
def cellWrite (unlisted : Option Byte) (m : Mem) (i : Nat) (v : Byte) : Mem :=
  if some v = unlisted then cellErase m i else cellInsert m i v

/-- What cell `i` of a RAM array holds: the byte last written, else its power-on draw (R28, R32, log 1). -/
def ramByte (array : RamArray) (m : Mem) (i : Nat) : Byte :=
  (cellRead m i).getD (Config.powerOnByte array i)

/-- A RAM array with cell `i` written. -/
def ramStore (m : Mem) (i : Nat) (v : Byte) : Mem := cellWrite ramUnlisted m i v

/-- What cell `i` of an image holds (log 4). -/
def imageByte (m : Mem) (i : Nat) : Byte := (cellRead m i).getD 0x00

/-- An image with cell `i` set, for the host's loading only: no instruction writes an image (R58). -/
def imageStore (m : Mem) (i : Nat) (v : Byte) : Mem := cellWrite imageUnlisted m i v

/-- The cells of an image given as a list of bytes from index `i` on. -/
def imageCells (bytes : List Byte) (i : Nat) : Mem :=
  match bytes with
  | [] => []
  | v :: rest => if v = 0x00 then imageCells rest (i + 1) else (i, v) :: imageCells rest (i + 1)

end Sys2Proof.Machine
end

