-- ==== Sys2Proof/Machine/Cartridge.lean ====
section
/-! DEFINITION. The cartridge and its bank controller: what 0x0000-0x7FFF and 0xA000-0xBFFF read and write (20_memory R55 to
R64). -/

namespace Sys2Proof.Machine

/-- `RomByte(bank, off)` (R55, R53). -/
def romByte (s : State) (bank offset : Nat) : Byte :=
  let index := bank % s.cart.romBanks * 0x4000 + offset
  if index < s.cart.romLength then imageByte s.cart.rom index else 0xFF

/-- `RomBankSel()`, the bank at 0x4000-0x7FFF before the modulo (R56). -/
def romBankSel (variant : Variant) (b : Bank) : Nat :=
  match variant with
  | .plain => 1
  | .v1 => if b.bankMode then b.romBank.toNat else (b.romHi.toNat <<< 5) ||| b.romBank.toNat
  | .v2 => b.romBank.toNat
  | .v3 => b.romBank.toNat
  | .v5 => b.romBank.toNat

/-- `RamBankSel()` (R57); variant-2 has no banks. -/
def ramBankSel (variant : Variant) (b : Bank) : Nat :=
  match variant with
  | .plain => 0
  | .v1 => if b.bankMode then b.ramBank.toNat else 0
  | .v2 => 0
  | .v3 => b.ramBank.toNat
  | .v5 => b.ramBank.toNat

/-- A variant-3 clock register is selected and RAM is enabled: the access the spec refuses (R57, R63). -/
def rtcSelected (s : State) : Bool :=
  s.cart.variant == .v3 && s.bank.ramEnable && decide (s.bank.ramBank.toNat > 3)

/-- External RAM is disabled or absent (R57, R60). -/
def extRamClosed (s : State) : Bool :=
  (s.cart.variant != .plain && !s.bank.ramEnable) || s.cart.ramBanks == 0

/-- The index in `ram` of an offset in the selected bank (R57). -/
def extRamIndex (s : State) (offset : Nat) : Nat :=
  ramBankSel s.cart.variant s.bank % s.cart.ramBanks * 0x2000 + offset

/-- `ExtRamRead(off)` with variant-2's `Mbc2Read` (R57, R62). -/
def extRamRead (s : State) (offset : Nat) : Except Refusal Byte :=
  if s.cart.variant = .v2 then
    .ok (if s.bank.ramEnable then 0xF0 ||| ramByte .mbc2 s.ram.mbc2 (offset % 0x200) else 0xFF)
  else if rtcSelected s then .error .rtcRegister
  else if extRamClosed s then .ok 0xFF
  else .ok (ramByte .ext s.ram.ext (extRamIndex s offset))

/-- `ExtRamWrite(off, v)` with variant-2's `Mbc2Write` (R57, R62). -/
def extRamWrite (offset : Nat) (v : Byte) (s : State) : Except Refusal State :=
  if s.cart.variant = .v2 then
    .ok (if s.bank.ramEnable then
      { s with ram := { s.ram with mbc2 := ramStore s.ram.mbc2 (offset % 0x200) (v &&& 0x0F) } } else s)
  else if rtcSelected s then .error .rtcRegister
  else if extRamClosed s then .ok s
  else .ok { s with ram := { s.ram with ext := ramStore s.ram.ext (extRamIndex s offset) v } }

/-- `RamGate(v)` (R59). -/
def ramGate (v : Byte) (b : Bank) : Bank :=
  let n := v &&& 0x0F
  if n = 0x0A then { b with ramEnable := true }
  else if n = 0x00 then { b with ramEnable := false }
  else b

/-- A bank number with 0 coerced to 1 (R61, R62, R63). -/
def coerceBank (v : BitVec 9) : BitVec 9 := if v = 0 then 1 else v

/-- Variant-1's register writes (R61). -/
def bankWriteV1 (a : Nat) (v : Byte) (b : Bank) : Bank :=
  if a < 0x2000 then ramGate v b
  else if a < 0x4000 then { b with romBank := coerceBank ((v &&& 0x1F).setWidth 9) }
  else if a < 0x6000 then
    if b.bankMode then { b with ramBank := v &&& 0x03 } else { b with romHi := v.setWidth 2 }
  else if v.getLsbD 0 then { b with bankMode := true }
  else { b with bankMode := false, ramBank := 0 }

/-- Variant-2's register writes (R62). -/
def bankWriteV2 (a : Nat) (v : Byte) (b : Bank) : Bank :=
  if a < 0x2000 then if a / 0x100 % 2 = 0 then ramGate v b else b
  else if a < 0x4000 then { b with romBank := coerceBank ((v &&& 0x0F).setWidth 9) }
  else b

/-- Variant-3's register writes (R63). -/
def bankWriteV3 (a : Nat) (v : Byte) (b : Bank) : Bank :=
  if a < 0x2000 then ramGate v b
  else if a < 0x4000 then { b with romBank := coerceBank (v.setWidth 9) }
  else if a < 0x6000 then { b with ramBank := v }
  else b

/-- Variant-5's register writes (R64). -/
def bankWriteV5 (a : Nat) (v : Byte) (b : Bank) : Bank :=
  if a < 0x2000 then ramGate v b
  else if a < 0x3000 then { b with romBank := (b.romBank &&& 0x100) ||| v.setWidth 9 }
  else if a < 0x4000 then { b with romBank := (b.romBank &&& 0x0FF) ||| ((v &&& 0x01).setWidth 9 <<< 8) }
  else if a < 0x6000 then { b with ramBank := v &&& 0x0F }
  else b

/-- A write to 0x0000-0x7FFF: it goes to the variant's registers and never changes `rom` (R58, R60). -/
def bankWrite (variant : Variant) (a : Nat) (v : Byte) (b : Bank) : Bank :=
  match variant with
  | .plain => b
  | .v1 => bankWriteV1 a v b
  | .v2 => bankWriteV2 a v b
  | .v3 => bankWriteV3 a v b
  | .v5 => bankWriteV5 a v b

end Sys2Proof.Machine
end

