-- ==== Sys2Proof/Machine/Operands.lean ====
section
/-! DEFINITION. The register operands: the 8-bit registers, the four pairs, SP and the conditions (10_state R13 to R17,
30_encoding R77), and the byte and word helpers they use (00_scope R9). -/

namespace Sys2Proof.Machine

/-- `v[15:8]`. -/
def hiByte (v : Word) : Byte := v.extractLsb' 8 8

/-- `v[7:0]`. -/
def loByte (v : Word) : Byte := v.extractLsb' 0 8

/-- `{hi, lo}` (R9). -/
def wordOf (hi lo : Byte) : Word := hi ++ lo

/-- `sext_16(e)` (R9). -/
def sext16 (e : Byte) : Word := e.signExtend 16

/-- The address `0xFF00 + n` (R78). -/
def highPage (n : Byte) : Word := 0xFF00#16 + n.setWidth 16

/-- F read as a byte: `{Z, N, H, C, 0b0000}` (R16). -/
def Flags.toByte (f : Flags) : Byte :=
  BitVec.ofBool f.z ++ BitVec.ofBool f.n ++ BitVec.ofBool f.h ++ BitVec.ofBool f.c ++ 0#4

/-- F written wholesale: bits 7:4 are the flags, bits 3:0 are dropped (R14, R15, R116). -/
def Flags.ofByte (v : Byte) : Flags :=
  { z := v.getLsbD 7, n := v.getLsbD 6, h := v.getLsbD 5, c := v.getLsbD 4 }

/-- An 8-bit register of the `r8` field. -/
def Regs.get (g : Regs) (r : Reg8) : Byte :=
  match r with
  | .b => g.b
  | .c => g.c
  | .d => g.d
  | .e => g.e
  | .h => g.h
  | .l => g.l
  | .a => g.a

def Regs.set (g : Regs) (r : Reg8) (v : Byte) : Regs :=
  match r with
  | .b => { g with b := v }
  | .c => { g with c := v }
  | .d => { g with d := v }
  | .e => { g with e := v }
  | .h => { g with h := v }
  | .l => { g with l := v }
  | .a => { g with a := v }

def State.reg (s : State) (r : Reg8) : Byte := s.regs.get r

def State.setReg (r : Reg8) (v : Byte) (s : State) : State := { s with regs := s.regs.set r v }

/-- The pairs, high half first (R14). -/
def State.bc (s : State) : Word := wordOf s.regs.b s.regs.c
def State.de (s : State) : Word := wordOf s.regs.d s.regs.e
def State.hl (s : State) : Word := wordOf s.regs.h s.regs.l
def State.af (s : State) : Word := wordOf s.regs.a s.regs.f.toByte

def State.setBc (v : Word) (s : State) : State := { s with regs := { s.regs with b := hiByte v, c := loByte v } }
def State.setDe (v : Word) (s : State) : State := { s with regs := { s.regs with d := hiByte v, e := loByte v } }
def State.setHl (v : Word) (s : State) : State := { s with regs := { s.regs with h := hiByte v, l := loByte v } }

/-- `A <- v[15:8]`, `F <- v[7:0] & 0xF0` (R14). -/
def State.setAf (v : Word) (s : State) : State :=
  { s with regs := { s.regs with a := hiByte v, f := Flags.ofByte (loByte v) } }

def State.setSp (v : Word) (s : State) : State := { s with regs := { s.regs with sp := v } }
def State.setPc (v : Word) (s : State) : State := { s with pc := v }
def State.setFlags (f : Flags) (s : State) : State := { s with regs := { s.regs with f := f } }

/-- A pair of the `rp` field. -/
def State.rp (s : State) (rr : Rp) : Word :=
  match rr with
  | .bc => s.bc
  | .de => s.de
  | .hl => s.hl
  | .sp => s.regs.sp

def State.setRp (rr : Rp) (v : Word) (s : State) : State :=
  match rr with
  | .bc => s.setBc v
  | .de => s.setDe v
  | .hl => s.setHl v
  | .sp => s.setSp v

/-- A pair of the `rp2` field. -/
def State.rp2 (s : State) (rr : Rp2) : Word :=
  match rr with
  | .bc => s.bc
  | .de => s.de
  | .hl => s.hl
  | .af => s.af

def State.setRp2 (rr : Rp2) (v : Word) (s : State) : State :=
  match rr with
  | .bc => s.setBc v
  | .de => s.setDe v
  | .hl => s.setHl v
  | .af => s.setAf v

/-- `Cond(cc)` (R160). -/
def State.cond (s : State) (cc : Cond) : Bool :=
  match cc with
  | .nz => !s.regs.f.z
  | .z => s.regs.f.z
  | .nc => !s.regs.f.c
  | .c => s.regs.f.c

end Sys2Proof.Machine
end

