-- ==== Sys2Proof/Machine/Bus.lean ====
section
/-! DEFINITION. The address decoder: the regions, the I/O registers, and the byte access every instruction makes (20_memory R33
to R49, R67, R70). -/

namespace Sys2Proof.Machine

/-- The regions of R34, each with the offset of the address in it.  The mirror has its own region and the cells of `wram`. -/
inductive Region where
  | romFixed (offset : Nat)
  | romBanked (offset : Nat)
  | vram (offset : Nat)
  | extRam (offset : Nat)
  | wram (offset : Nat)
  | echo (offset : Nat)
  | oam (offset : Nat)
  | unusable
  | io (offset : Nat)
  | hram (offset : Nat)
  | irqEnable
  deriving DecidableEq, Repr

/-- The decoder of R34 and R35: every address is in exactly one region. -/
def regionOf (a : Word) : Region :=
  let n := a.toNat
  if n ≤ 0x3FFF then .romFixed n
  else if n ≤ 0x7FFF then .romBanked (n - 0x4000)
  else if n ≤ 0x9FFF then .vram (n - 0x8000)
  else if n ≤ 0xBFFF then .extRam (n - 0xA000)
  else if n ≤ 0xDFFF then .wram (n - 0xC000)
  else if n ≤ 0xFDFF then .echo (n - 0xE000)
  else if n ≤ 0xFE9F then .oam (n - 0xFE00)
  else if n ≤ 0xFEFF then .unusable
  else if n ≤ 0xFF7F then .io (n - 0xFF00)
  else if n ≤ 0xFFFE then .hram (n - 0xFF80)
  else .irqEnable

/-- A plain I/O cell (R49). -/
def ioCell (s : State) (offset : Nat) : Byte := ramByte .io s.ram.io offset

def setIoCell (offset : Nat) (v : Byte) (s : State) : State :=
  { s with ram := { s.ram with io := ramStore s.ram.io offset v } }

/-- `IoRead(0xFF00 + offset)` (R42, R43, R45; 10_state R24, R26). -/
def ioRead (s : State) (offset : Nat) : Byte :=
  match offset with
  | 0x00 => Config.inputRead s.draws s.joypSel
  | 0x04 => s.timer.div
  | 0x05 => s.timer.tima
  | 0x06 => s.timer.tma
  | 0x07 => 0xF8 ||| s.timer.tac.setWidth 8
  | 0x0F => 0xE0 ||| s.irqFlags.setWidth 8
  | k => ioCell s k

/-- The boot image shadows a read (R35, R37). -/
def bootByte (s : State) (a : Word) : Option Byte :=
  match s.bootActive, s.cfg.bootRom with
  | true, some image => if a.toNat ≤ 0xFF then some (imageByte image a.toNat) else none
  | _, _ => none

/-- `MemRead(a, 1)` by region, the boot overlay left out (R35). -/
def regionRead (s : State) (a : Word) : Except Refusal Byte :=
  match regionOf a with
  | .romFixed offset => .ok (romByte s 0 offset)
  | .romBanked offset => .ok (romByte s (romBankSel s.cart.variant s.bank) offset)
  | .vram offset => .ok (ramByte .vram s.ram.vram offset)
  | .extRam offset => extRamRead s offset
  | .wram offset => .ok (ramByte .wram s.ram.wram offset)
  | .echo offset => .ok (ramByte .wram s.ram.wram offset)
  | .oam offset => .ok (ramByte .oam s.ram.oam offset)
  | .unusable => .ok (Config.unusableRead s.draws a)
  | .io offset => .ok (ioRead s offset)
  | .hram offset => .ok (ramByte .hram s.ram.hram offset)
  | .irqEnable => .ok s.irqEnable

/-- `MemRead(a, 1)` (R35): the byte, or the refusal of R63.  It changes no state (R70). -/
def memRead (s : State) (a : Word) : Except Refusal Byte :=
  match bootByte s a with
  | some v => .ok v
  | none => regionRead s a

/-- A cell of `oam` written. -/
def setOam (offset : Nat) (v : Byte) (s : State) : State :=
  { s with ram := { s.ram with oam := ramStore s.ram.oam offset v } }

/-- The first `count` bytes of the DMA copy from `source` up: each a read through the bus and a write of the sprite attribute
table, in order (R47).  The destination 0xFE00 + i is always in that table (log 12). -/
def dmaCopy (source : Word) (count : Nat) (s : State) : Except Refusal State :=
  match count with
  | 0 => .ok s
  | i + 1 =>
    (dmaCopy source i s).bind fun s =>
      (memRead s (source + BitVec.ofNat 16 i)).map fun v => setOam i v s

/-- `IoWrite(0xFF00 + offset, v)` (R42 to R49; 10_state R24, R26). -/
def ioWrite (offset : Nat) (v : Byte) (s : State) : Except Refusal State :=
  match offset with
  | 0x00 => .ok { s with joypSel := v.extractLsb' 4 2 }
  | 0x01 => .ok { setIoCell 0x01 v s with outputs := .debugSink v :: s.outputs }
  | 0x04 => .ok { s with timer := { s.timer with div := 0x00, divSub := 0 } }
  | 0x05 => .ok { s with timer := { s.timer with tima := v } }
  | 0x06 => .ok { s with timer := { s.timer with tma := v } }
  | 0x07 =>
    .ok { s with timer := { s.timer with
      tac := v.setWidth 3
      timaSub := if v.setWidth 2 = s.timer.tac.setWidth 2 then s.timer.timaSub else 0 } }
  | 0x0F => .ok { s with irqFlags := v.setWidth 5 }
  | 0x44 => .ok (setIoCell 0x44 0x00 s)
  | 0x46 => dmaCopy (wordOf v 0x00) 160 (setIoCell 0x46 v s)
  | 0x47 => .ok { setIoCell 0x47 v s with outputs := .colourTable 0x47 v :: s.outputs }
  | 0x48 => .ok { setIoCell 0x48 v s with outputs := .colourTable 0x48 v :: s.outputs }
  | 0x49 => .ok { setIoCell 0x49 v s with outputs := .colourTable 0x49 v :: s.outputs }
  | 0x50 => .ok { setIoCell 0x50 v s with bootActive := s.bootActive && v == 0 }
  | k => .ok (setIoCell k v s)

/-- `MemWrite(a, 1, v)` with every side effect of its region (R36); the boot overlay shadows no write (R37). -/
def memWrite (a : Word) (v : Byte) (s : State) : Except Refusal State :=
  match regionOf a with
  | .romFixed _ => .ok { s with bank := bankWrite s.cart.variant a.toNat v s.bank }
  | .romBanked _ => .ok { s with bank := bankWrite s.cart.variant a.toNat v s.bank }
  | .vram offset => .ok { s with ram := { s.ram with vram := ramStore s.ram.vram offset v } }
  | .extRam offset => extRamWrite offset v s
  | .wram offset => .ok { s with ram := { s.ram with wram := ramStore s.ram.wram offset v } }
  | .echo offset => .ok { s with ram := { s.ram with wram := ramStore s.ram.wram offset v } }
  | .oam offset => .ok (setOam offset v s)
  | .unusable => .ok s
  | .io offset => ioWrite offset v s
  | .hram offset => .ok { s with ram := { s.ram with hram := ramStore s.ram.hram offset v } }
  | .irqEnable => .ok { s with irqEnable := v }

/-- `MemWrite(a, 2, v)`: the low byte at `a`, then the high byte at `a + 1`, which wraps (R67). -/
def memWrite16 (a : Word) (v : Word) (s : State) : Except Refusal State :=
  (memWrite a (loByte v) s).bind fun s => memWrite (a + 1) (hiByte v) s

/-- `MemRead(a, 2)`: the low byte at `a`, then the high byte at `a + 1` (R67). -/
def memRead16 (s : State) (a : Word) : Except Refusal Word :=
  (memRead s a).bind fun lo => (memRead s (a + 1)).map fun hi => wordOf hi lo

end Sys2Proof.Machine
end

