-- ==== Sys2Proof/Machine/Flags.lean ====
section
/-! DEFINITION. Every arithmetic helper with its flags (41_alu8 R117, R131; 42_alu16 R135, R136; 43_rotate_shift R142 to R155),
over unbounded integers before truncation, and the flag writes of the instructions. -/

namespace Sys2Proof.Machine

/-- A result with its half-carry and carry. -/
structure Arith8 where
  value : Byte
  half : Bool
  carry : Bool
  deriving DecidableEq, Repr

/-- A 16-bit result with its half-carry and carry. -/
structure Arith16 where
  value : Word
  half : Bool
  carry : Bool
  deriving DecidableEq, Repr

/-- `Add8(a, b, cin)` (R117). -/
def add8 (a b : Byte) (cin : Bool) : Arith8 :=
  let sum := a.toNat + b.toNat + cin.toNat
  { value := BitVec.ofNat 8 sum
    half := decide (a.toNat % 16 + b.toNat % 16 + cin.toNat > 0xF)
    carry := decide (sum > 0xFF) }

/-- `Sub8(a, b, cin)` (R117). -/
def sub8 (a b : Byte) (cin : Bool) : Arith8 :=
  let difference := (a.toNat : Int) - b.toNat - cin.toNat
  { value := BitVec.ofInt 8 difference
    half := decide (((a.toNat % 16 : Nat) : Int) - (b.toNat % 16 : Nat) - cin.toNat < 0)
    carry := decide (difference < 0) }

/-- `Add16(a, b)` (R135). -/
def add16 (a b : Word) : Arith16 :=
  let sum := a.toNat + b.toNat
  { value := BitVec.ofNat 16 sum
    half := decide (a.toNat % 0x1000 + b.toNat % 0x1000 > 0xFFF)
    carry := decide (sum > 0xFFFF) }

/-- `SpOffset(sp, e)`: under `hw` the carries are those of the unsigned low bytes, under `doc16` those of `Add16` (R136). -/
def spOffset (setting : SpOffsetFlags) (sp : Word) (e : Byte) : Arith16 :=
  let x := sext16 e
  match setting with
  | .hw =>
    { value := sp + x
      half := decide (sp.toNat % 16 + e.toNat % 16 > 0xF)
      carry := decide (sp.toNat % 0x100 + e.toNat > 0xFF) }
  | .doc16 => { value := sp + x, half := (add16 sp x).half, carry := (add16 sp x).carry }

/-- The flags ADD SP,e and LD HL,SP+e write: Z = 0 under `hw`, Z unchanged under `doc16` (R136). -/
def spOffsetFlags (setting : SpOffsetFlags) (old : Flags) (r : Arith16) : Flags :=
  match setting with
  | .hw => { z := false, n := false, h := r.half, c := r.carry }
  | .doc16 => { z := old.z, n := false, h := r.half, c := r.carry }

/-- DAA's two corrections (R131): the adjusted A and the carry it leaves. -/
def daaAdjust (a : Byte) (f : Flags) : Byte × Bool :=
  match f.n with
  | false =>
    let first : Byte × Bool := if f.c || decide (a.toNat > 0x99) then (a + 0x60, true) else (a, f.c)
    if f.h || decide (a.toNat % 16 > 9) then (first.1 + 0x06, first.2) else first
  | true =>
    let first : Byte := if f.c then a - 0x60 else a
    (if f.h then first - 0x06 else first, f.c)

/-! The rotates and shifts: the result and the bit that goes to C (R143 to R155). -/

def rotateLeft (v : Byte) : Byte × Bool := ((v <<< 1) ||| (BitVec.ofBool (v.getLsbD 7)).setWidth 8, v.getLsbD 7)

def rotateRight (v : Byte) : Byte × Bool := ((v >>> 1) ||| ((BitVec.ofBool (v.getLsbD 0)).setWidth 8 <<< 7), v.getLsbD 0)

def rotateLeftCarry (v : Byte) (c : Bool) : Byte × Bool := ((v <<< 1) ||| (BitVec.ofBool c).setWidth 8, v.getLsbD 7)

def rotateRightCarry (v : Byte) (c : Bool) : Byte × Bool := ((v >>> 1) ||| ((BitVec.ofBool c).setWidth 8 <<< 7), v.getLsbD 0)

def shiftLeft (v : Byte) : Byte × Bool := (v <<< 1, v.getLsbD 7)

def shiftRightArith (v : Byte) : Byte × Bool := ((v >>> 1) ||| (v &&& 0x80#8), v.getLsbD 0)

def swapNibbles (v : Byte) : Byte × Bool := ((v <<< 4) ||| (v >>> 4), false)

def shiftRightLogic (v : Byte) : Byte × Bool := (v >>> 1, v.getLsbD 0)

/-- The CB page's rotate or shift of `v` with the old carry `c` (R148 to R155). -/
def rotateValue (op : RotOp) (v : Byte) (c : Bool) : Byte × Bool :=
  match op with
  | .rlc => rotateLeft v
  | .rrc => rotateRight v
  | .rl => rotateLeftCarry v c
  | .rr => rotateRightCarry v c
  | .sla => shiftLeft v
  | .sra => shiftRightArith v
  | .swap => swapNibbles v
  | .srl => shiftRightLogic v

/-- Z from the result, N = 0, H = 0, C as given: the flags of every CB rotate and shift (R148 to R155). -/
def rotateFlags (r : Byte × Bool) : Flags := { z := r.1 == 0, n := false, h := false, c := r.2 }

/-! The accumulator's instructions, on the state after the fetch. -/

/-- ADD A,v (R119). -/
def aluAdd (v : Byte) (s : State) : State :=
  let r := add8 s.regs.a v false
  (s.setReg .a r.value).setFlags { z := r.value == 0, n := false, h := r.half, c := r.carry }

/-- ADC A,v (R120). -/
def aluAdc (v : Byte) (s : State) : State :=
  let r := add8 s.regs.a v s.regs.f.c
  (s.setReg .a r.value).setFlags { z := r.value == 0, n := false, h := r.half, c := r.carry }

/-- SUB v (R121). -/
def aluSub (v : Byte) (s : State) : State :=
  let r := sub8 s.regs.a v false
  (s.setReg .a r.value).setFlags { z := r.value == 0, n := true, h := r.half, c := r.carry }

/-- SBC A,v (R122). -/
def aluSbc (v : Byte) (s : State) : State :=
  let r := sub8 s.regs.a v s.regs.f.c
  (s.setReg .a r.value).setFlags { z := r.value == 0, n := true, h := r.half, c := r.carry }

/-- CP v: the flags of SUB, A not written (R123). -/
def aluCp (v : Byte) (s : State) : State :=
  let r := sub8 s.regs.a v false
  s.setFlags { z := r.value == 0, n := true, h := r.half, c := r.carry }

/-- AND v (R124). -/
def aluAnd (v : Byte) (s : State) : State :=
  let r := s.regs.a &&& v
  (s.setReg .a r).setFlags { z := r == 0, n := false, h := true, c := false }

/-- XOR v (R125). -/
def aluXor (v : Byte) (s : State) : State :=
  let r := s.regs.a ^^^ v
  (s.setReg .a r).setFlags { z := r == 0, n := false, h := false, c := false }

/-- OR v (R126). -/
def aluOr (v : Byte) (s : State) : State :=
  let r := s.regs.a ||| v
  (s.setReg .a r).setFlags { z := r == 0, n := false, h := false, c := false }

/-- The flags of INC: C is kept (R127, R128). -/
def incFlags (old : Flags) (r : Arith8) : Flags := { z := r.value == 0, n := false, h := r.half, c := old.c }

/-- The flags of DEC: C is kept (R129, R130). -/
def decFlags (old : Flags) (r : Arith8) : Flags := { z := r.value == 0, n := true, h := r.half, c := old.c }

/-- The flags of BIT: Z is the inverse of the tested bit, C is kept (R157). -/
def bitFlags (old : Flags) (v : Byte) (bit : Nat) : Flags := { z := !v.getLsbD bit, n := false, h := true, c := old.c }

end Sys2Proof.Machine
end

