-- ==== Sys2Proof/Machine/Ops.lean ====
section
/-! DEFINITION. The shared operations of the instructions and of the step: fetching, the stack, the operand at HL, taking an
interrupt and the return from one, the timer, and what stands around an instruction (30_encoding R79 to R81, 40_loads R90,
43_rotate_shift R147, 60_exceptions R180 to R196). -/

namespace Sys2Proof.Machine

/-- The answer of an instruction or a step. -/
abbrev Answer := Host.Outcome State Fault Refusal

/-- An access that may be refused (R63), as the answer it gives. -/
def answer (r : Except Refusal State) : Answer :=
  match r with
  | .ok s => .next s
  | .error refusal => .refused refusal

/-! ## Fetching -/

/-- The address of the byte after the opcode byte: the halt-bug condition suppresses the opcode byte's increment (R79). -/
def State.afterOpcode (s : State) : Word := if s.haltBug then s.pc else s.pc + 1

/-- Where PC stands once an instruction of `length` bytes is fetched (R79, R80; 10_state R18). -/
def State.afterInstr (s : State) (length : Nat) : Word := s.afterOpcode + BitVec.ofNat 16 (length - 1)

/-- What every instruction's meaning begins with: its bytes are fetched, so PC is past them and the halt-bug condition is
used up (R79 to R81), and the step reports its cycles (R208). -/
def State.fetched (length cycles : Nat) (s : State) : State :=
  { s with pc := s.afterInstr length, haltBug := false, lastCycles := cycles }

/-- The instruction at PC, its bytes read through the bus in address order, no more of them than its length (R79 to R82). -/
def fetchInstr (s : State) : Except Refusal Instr :=
  (memRead s s.pc).bind fun op =>
    let length := instrLength op
    (if length ≥ 2 then memRead s s.afterOpcode else .ok 0x00).bind fun byte2 =>
      (if length ≥ 3 then memRead s (s.afterOpcode + 1) else .ok 0x00).map fun byte3 =>
        decodeOpcode op byte2 byte3

/-! ## The operand at HL -/

/-- An instruction that reads the byte at HL and then changes registers with it. -/
def readHl (length cycles : Nat) (k : Byte → State → State) (s : State) : Answer :=
  answer ((memRead (s.fetched length cycles) s.hl).map fun v => k v (s.fetched length cycles))

/-- An instruction that reads the byte at HL, sets the flags from it, and writes a byte back to HL (R72). -/
def modifyHl (length cycles : Nat) (value : Byte → Byte) (flags : Byte → Flags) (s : State) : Answer :=
  let t := s.fetched length cycles
  answer ((memRead t t.hl).bind fun v => memWrite t.hl (value v) (t.setFlags (flags v)))

/-- `Get()` of a CB-page operand (R147). -/
def operandGet (s : State) (o : Operand8) : Except Refusal Byte :=
  match o with
  | .reg r => .ok (s.reg r)
  | .indHl => memRead s s.hl

/-- `Put(v)` of a CB-page operand (R147). -/
def operandPut (o : Operand8) (v : Byte) (s : State) : Except Refusal State :=
  match o with
  | .reg r => .ok (s.setReg r v)
  | .indHl => memWrite s.hl v s

/-- The cycles of a CB-page instruction that writes its operand: 8, or 16 for (HL) (R147). -/
def cbCycles (o : Operand8) : Nat :=
  match o with
  | .reg _ => 8
  | .indHl => 16

/-- The cycles of BIT: 8, or 12 for (HL) (R147, R157). -/
def bitCycles (o : Operand8) : Nat :=
  match o with
  | .reg _ => 8
  | .indHl => 12

/-- A CB-page rotate, shift or SWAP: get, compute, put, flags (R148 to R155). -/
def cbRotate (op : RotOp) (o : Operand8) (s : State) : Answer :=
  let t := s.fetched 2 (cbCycles o)
  answer ((operandGet t o).bind fun v =>
    let r := rotateValue op v t.regs.f.c
    operandPut o r.1 (t.setFlags (rotateFlags r)))

/-- BIT b,s: only F is written (R157). -/
def cbBit (bit : Nat) (o : Operand8) (s : State) : Answer :=
  let t := s.fetched 2 (bitCycles o)
  answer ((operandGet t o).map fun v => t.setFlags (bitFlags t.regs.f v bit))

/-- `1 << b` in a byte. -/
def bitMask (bit : Nat) : Byte := 1#8 <<< bit

/-- RES b,s: the write happens whatever the bit was (R158). -/
def cbRes (bit : Nat) (o : Operand8) (s : State) : Answer :=
  let t := s.fetched 2 (cbCycles o)
  answer ((operandGet t o).bind fun v => operandPut o (v &&& ~~~(bitMask bit)) t)

/-- SET b,s (R159). -/
def cbSet (bit : Nat) (o : Operand8) (s : State) : Answer :=
  let t := s.fetched 2 (cbCycles o)
  answer ((operandGet t o).bind fun v => operandPut o (v ||| bitMask bit) t)

/-- `perform CB[op2]` (R81, R178). -/
def performCb (op : CbOp) (s : State) : Answer :=
  match op with
  | .rotate rot o => cbRotate rot o s
  | .bit index o => cbBit index o s
  | .res index o => cbRes index o s
  | .set index o => cbSet index o s

/-! ## The stack -/

/-- `Push16(v)`: SP is decremented before each byte, the high byte is written first (R90). -/
def push16 (v : Word) (s : State) : Except Refusal State :=
  (memWrite (s.regs.sp - 1) (hiByte v) (s.setSp (s.regs.sp - 1))).bind fun t =>
    memWrite (t.regs.sp - 1) (loByte v) (t.setSp (t.regs.sp - 1))

/-- `Pop16()`: the value and the state with SP two higher (R90). -/
def pop16 (s : State) : Except Refusal (Word × State) :=
  (memRead s s.regs.sp).bind fun lo =>
    let t := s.setSp (s.regs.sp + 1)
    (memRead t t.regs.sp).map fun hi => (wordOf hi lo, t.setSp (t.regs.sp + 1))

/-- `Push16(PC); PC <- target`: CALL and RST on the state after the fetch (R167, R172). -/
def callTo (target : Word) (s : State) : Except Refusal State :=
  (push16 s.pc s).map fun t => t.setPc target

/-- `PC <- Pop16()`: RET on the state after the fetch (R169). -/
def returnPop (s : State) : Except Refusal State :=
  (pop16 s).map fun r => r.2.setPc r.1

/-! ## Interrupts -/

/-- `Pending() = IE & IF & 0x1F` (R186). -/
def State.pending (s : State) : BitVec 5 := s.irqEnable.setWidth 5 &&& s.irqFlags

/-- The source served: the lowest bit that is pending (R187). -/
def lowestSource (p : BitVec 5) : Nat :=
  if p.getLsbD 0 then 0
  else if p.getLsbD 1 then 1
  else if p.getLsbD 2 then 2
  else if p.getLsbD 3 then 3
  else 4

/-- The vector of a source: `0x0040 + 8 * i` (R184, R188). -/
def vectorOf (source : Nat) : Word := BitVec.ofNat 16 (0x40 + 8 * source)

/-- `RequestInterrupt(i)` (R185). -/
def State.requestInterrupt (source : Nat) (s : State) : State :=
  { s with irqFlags := s.irqFlags ||| (1#5 <<< source) }

/-- The address a dispatch saves: PC, or under the halt-bug condition the HALT's own (R188). -/
def State.returnAddress (s : State) : Word := if s.haltBug then s.pc - 1 else s.pc

/-- TAKING AN INTERRUPT, `Dispatch()` in its order: the source is chosen and its request cleared, `ime` and `ei_delay` are
cleared, the return address is pushed, the processor runs, and PC goes to the vector (R188). -/
def dispatch (s : State) : Except Refusal State :=
  let source := lowestSource s.pending
  let t := { s with irqFlags := s.irqFlags &&& ~~~(1#5 <<< source), ime := false, eiDelay := 0, haltBug := false }
  (push16 s.returnAddress t).map fun t =>
    { t with mode := .running, pc := vectorOf source, lastCycles := s.cfg.intDispatchCycles }

/-- THE RETURN FROM AN INTERRUPT, on the state after the fetch: pop PC and set `ime` at once (R171, R192). -/
def returnFromInterrupt (s : State) : Except Refusal State :=
  (returnPop s).map fun t => { t with ime := true }

/-- `EiTick()`, at the end of every executed instruction and only then (R191). -/
def eiTick (s : State) : State :=
  match s.eiDelay with
  | 0 => s
  | 1 => { s with eiDelay := 0, ime := true }
  | n + 2 => { s with eiDelay := n + 1 }

/-! ## The timer -/

/-- `Period(TAC[1:0])` (R195). -/
def timerPeriod (tac : BitVec 3) : Nat :=
  match (tac.setWidth 2).toNat with
  | 0 => 1024
  | 1 => 16
  | 2 => 64
  | _ => 256

/-- One TIMA increment: an overflow past 0xFF reloads from TMA and requests the Timer interrupt, source 2 (R196). -/
def timaTick (s : State) : State :=
  if s.timer.tima = 0xFF then ({ s with timer := { s.timer with tima := s.timer.tma } }).requestInterrupt 2
  else { s with timer := { s.timer with tima := s.timer.tima + 1 } }

/-- `count` TIMA increments. -/
def timaTicks (count : Nat) (s : State) : State :=
  match count with
  | 0 => s
  | n + 1 => timaTick (timaTicks n s)

/-- DIV's half of `TimerUpdate(n)`: the loop of R196 runs once per 256 cycles and keeps the remainder. -/
def divUpdate (n : Nat) (s : State) : State :=
  let total := s.timer.divSub + n
  { s with timer := { s.timer with div := s.timer.div + BitVec.ofNat 8 (total / 256), divSub := total % 256 } }

/-- TIMA's half of `TimerUpdate(n)`: only while TAC[2] is 1, one increment per period, the remainder kept (R196). -/
def timaUpdate (n : Nat) (s : State) : State :=
  if s.timer.tac.getLsbD 2 then
    let total := s.timer.timaSub + n
    let period := timerPeriod s.timer.tac
    timaTicks (total / period) { s with timer := { s.timer with timaSub := total % period } }
  else s

/-- `TimerUpdate(n)` (R196). -/
def timerUpdate (n : Nat) (s : State) : State := timaUpdate n (divUpdate n s)

/-! ## Around the processor step -/

/-- The first line of `CpuStep`: a set disable flag ends the boot overlay (R181, R205). -/
def bootCheck (s : State) : State :=
  { s with bootActive := s.bootActive && ioCell s 0x50 == 0 }

/-- An idle step: nothing but its 4 cycles (R181, R201). -/
def idle (s : State) : State := { s with lastCycles := 4 }

/-- The end of a completed machine step: the timer advances by exactly the cycles the step reported (R180), and the draws of
the next step are fresh (log 3). -/
def endStep (s : State) : State :=
  let t := timerUpdate s.lastCycles s
  { t with draws := t.draws + 1 }

/-- A step's answer, its end run on the state a completed step leaves (R180). -/
def completed (k : State → State) (a : Answer) : Answer :=
  match a with
  | .next s => .next (k s)
  | .fault f => .fault f
  | .refused r => .refused r

/-- The state a stopped step leaves: the one from before it with only `fault` or `refused` set (R180, R182). -/
def State.settle (before : State) (a : Answer) : State :=
  match a with
  | .next s => s
  | .fault f => { before with fault := some f }
  | .refused _ => { before with refused := true }

end Sys2Proof.Machine
end

