-- ==== Sys2Proof/Machine/Alu16.lean ====
section
/-! DEFINITION. The meanings of the 16-bit arithmetic instructions (42_alu16 R137 to R140). -/

namespace Sys2Proof.Machine

/-- ADD HL,rr: Z is kept (R137). -/
def execAddHlRr (rr : Rp) (s : State) : Answer :=
  let t := s.fetched 1 8
  let r := add16 t.hl (t.rp rr)
  .next ((t.setHl r.value).setFlags { z := t.regs.f.z, n := false, h := r.half, c := r.carry })

/-- INC rr: no flag changes (R138). -/
def execIncRr (rr : Rp) (s : State) : Answer := .next ((s.fetched 1 8).setRp rr (s.rp rr + 1))

/-- DEC rr: no flag changes (R139). -/
def execDecRr (rr : Rp) (s : State) : Answer := .next ((s.fetched 1 8).setRp rr (s.rp rr - 1))

/-- ADD SP,e (R140, R136). -/
def execAddSpE (e : Byte) (s : State) : Answer :=
  let t := s.fetched 2 16
  let r := spOffset t.cfg.spOffsetFlags t.regs.sp e
  .next ((t.setSp r.value).setFlags (spOffsetFlags t.cfg.spOffsetFlags t.regs.f r))

end Sys2Proof.Machine
end

