-- ==== Sys2Proof/Machine/Alu8.lean ====
section
/-! DEFINITION. The meanings of the 8-bit arithmetic and logic instructions (41_alu8 R119 to R134). -/

namespace Sys2Proof.Machine

/-- ADD A,r (R119). -/
def execAddAR (src : Reg8) (s : State) : Answer := .next (aluAdd (s.reg src) (s.fetched 1 4))

/-- ADD A,(HL) (R119). -/
def execAddAIndHl (s : State) : Answer := readHl 1 8 aluAdd s

/-- ADD A,n (R119). -/
def execAddAN (n : Byte) (s : State) : Answer := .next (aluAdd n (s.fetched 2 8))

/-- ADC A,r (R120). -/
def execAdcAR (src : Reg8) (s : State) : Answer := .next (aluAdc (s.reg src) (s.fetched 1 4))

/-- ADC A,(HL) (R120). -/
def execAdcAIndHl (s : State) : Answer := readHl 1 8 aluAdc s

/-- ADC A,n (R120). -/
def execAdcAN (n : Byte) (s : State) : Answer := .next (aluAdc n (s.fetched 2 8))

/-- SUB r (R121). -/
def execSubR (src : Reg8) (s : State) : Answer := .next (aluSub (s.reg src) (s.fetched 1 4))

/-- SUB (HL) (R121). -/
def execSubIndHl (s : State) : Answer := readHl 1 8 aluSub s

/-- SUB n (R121). -/
def execSubN (n : Byte) (s : State) : Answer := .next (aluSub n (s.fetched 2 8))

/-- SBC A,r (R122). -/
def execSbcAR (src : Reg8) (s : State) : Answer := .next (aluSbc (s.reg src) (s.fetched 1 4))

/-- SBC A,(HL) (R122). -/
def execSbcAIndHl (s : State) : Answer := readHl 1 8 aluSbc s

/-- SBC A,n (R122). -/
def execSbcAN (n : Byte) (s : State) : Answer := .next (aluSbc n (s.fetched 2 8))

/-- AND r (R124). -/
def execAndR (src : Reg8) (s : State) : Answer := .next (aluAnd (s.reg src) (s.fetched 1 4))

/-- AND (HL) (R124). -/
def execAndIndHl (s : State) : Answer := readHl 1 8 aluAnd s

/-- AND n (R124). -/
def execAndN (n : Byte) (s : State) : Answer := .next (aluAnd n (s.fetched 2 8))

/-- XOR r (R125). -/
def execXorR (src : Reg8) (s : State) : Answer := .next (aluXor (s.reg src) (s.fetched 1 4))

/-- XOR (HL) (R125). -/
def execXorIndHl (s : State) : Answer := readHl 1 8 aluXor s

/-- XOR n (R125). -/
def execXorN (n : Byte) (s : State) : Answer := .next (aluXor n (s.fetched 2 8))

/-- OR r (R126). -/
def execOrR (src : Reg8) (s : State) : Answer := .next (aluOr (s.reg src) (s.fetched 1 4))

/-- OR (HL) (R126). -/
def execOrIndHl (s : State) : Answer := readHl 1 8 aluOr s

/-- OR n (R126). -/
def execOrN (n : Byte) (s : State) : Answer := .next (aluOr n (s.fetched 2 8))

/-- CP r (R123). -/
def execCpR (src : Reg8) (s : State) : Answer := .next (aluCp (s.reg src) (s.fetched 1 4))

/-- CP (HL) (R123). -/
def execCpIndHl (s : State) : Answer := readHl 1 8 aluCp s

/-- CP n (R123). -/
def execCpN (n : Byte) (s : State) : Answer := .next (aluCp n (s.fetched 2 8))

/-- INC r (R127). -/
def execIncR (r : Reg8) (s : State) : Answer :=
  let t := s.fetched 1 4
  let v := add8 (t.reg r) 1 false
  .next ((t.setReg r v.value).setFlags (incFlags t.regs.f v))

/-- INC (HL) (R128). -/
def execIncIndHl (s : State) : Answer :=
  modifyHl 1 12 (fun m => (add8 m 1 false).value) (fun m => incFlags s.regs.f (add8 m 1 false)) s

/-- DEC r (R129). -/
def execDecR (r : Reg8) (s : State) : Answer :=
  let t := s.fetched 1 4
  let v := sub8 (t.reg r) 1 false
  .next ((t.setReg r v.value).setFlags (decFlags t.regs.f v))

/-- DEC (HL) (R130). -/
def execDecIndHl (s : State) : Answer :=
  modifyHl 1 12 (fun m => (sub8 m 1 false).value) (fun m => decFlags s.regs.f (sub8 m 1 false)) s

/-- DAA (R131). -/
def execDaa (s : State) : Answer :=
  let t := s.fetched 1 4
  let r := daaAdjust t.regs.a t.regs.f
  .next ((t.setReg .a r.1).setFlags { z := r.1 == 0, n := t.regs.f.n, h := false, c := r.2 })

/-- CPL (R132). -/
def execCpl (s : State) : Answer :=
  let t := s.fetched 1 4
  .next ((t.setReg .a (t.regs.a ^^^ 0xFF#8)).setFlags { z := t.regs.f.z, n := true, h := true, c := t.regs.f.c })

/-- SCF (R133). -/
def execScf (s : State) : Answer :=
  let t := s.fetched 1 4
  .next (t.setFlags { z := t.regs.f.z, n := false, h := false, c := true })

/-- CCF (R134). -/
def execCcf (s : State) : Answer :=
  let t := s.fetched 1 4
  .next (t.setFlags { z := t.regs.f.z, n := false, h := false, c := !t.regs.f.c })

end Sys2Proof.Machine
end

