-- ==== Sys2Proof/Machine/Bits.lean ====
section
/-! DEFINITION. The meanings of BIT, RES and SET (44_bit R156 to R159). -/

namespace Sys2Proof.Machine

/-- BIT b,r (R157). -/
def execBitBR (bit : Nat) (r : Reg8) (s : State) : Answer := cbBit bit (.reg r) s

/-- BIT b,(HL) (R157). -/
def execBitBIndHl (bit : Nat) (s : State) : Answer := cbBit bit .indHl s

/-- RES b,r (R158). -/
def execResBR (bit : Nat) (r : Reg8) (s : State) : Answer := cbRes bit (.reg r) s

/-- RES b,(HL) (R158). -/
def execResBIndHl (bit : Nat) (s : State) : Answer := cbRes bit .indHl s

/-- SET b,r (R159). -/
def execSetBR (bit : Nat) (r : Reg8) (s : State) : Answer := cbSet bit (.reg r) s

/-- SET b,(HL) (R159). -/
def execSetBIndHl (bit : Nat) (s : State) : Answer := cbSet bit .indHl s

end Sys2Proof.Machine
end

