-- ==== Sys2Proof/Machine/Control.lean ====
section
/-! DEFINITION. The meanings of the control transfers (45_control R160 to R172). -/

namespace Sys2Proof.Machine

/-- JP nn (R162). -/
def execJpNn (nn : Word) (s : State) : Answer := .next ((s.fetched 3 16).setPc nn)

/-- JP cc,nn: 16 cycles taken, 12 not (R163). -/
def execJpCcNn (cc : Cond) (nn : Word) (s : State) : Answer :=
  if s.cond cc then .next ((s.fetched 3 16).setPc nn) else .next (s.fetched 3 12)

/-- JP HL (R164). -/
def execJpHl (s : State) : Answer := .next ((s.fetched 1 4).setPc s.hl)

/-- `PC <- u16(PC + sext_16(e))` on the state after the fetch (R165). -/
def jumpRelative (e : Byte) (s : State) : State := s.setPc (s.pc + sext16 e)

/-- JR e (R165). -/
def execJrE (e : Byte) (s : State) : Answer := .next (jumpRelative e (s.fetched 2 12))

/-- JR cc,e: 12 cycles taken, 8 not (R166). -/
def execJrCcE (cc : Cond) (e : Byte) (s : State) : Answer :=
  if s.cond cc then .next (jumpRelative e (s.fetched 2 12)) else .next (s.fetched 2 8)

/-- CALL nn (R167). -/
def execCallNn (nn : Word) (s : State) : Answer := answer (callTo nn (s.fetched 3 24))

/-- CALL cc,nn: 24 cycles taken, 12 not (R168). -/
def execCallCcNn (cc : Cond) (nn : Word) (s : State) : Answer :=
  if s.cond cc then answer (callTo nn (s.fetched 3 24)) else .next (s.fetched 3 12)

/-- RET (R169). -/
def execRet (s : State) : Answer := answer (returnPop (s.fetched 1 16))

/-- RET cc: 20 cycles taken, 8 not (R170). -/
def execRetCc (cc : Cond) (s : State) : Answer :=
  if s.cond cc then answer (returnPop (s.fetched 1 20)) else .next (s.fetched 1 8)

/-- RETI (R171). -/
def execReti (s : State) : Answer := answer (returnFromInterrupt (s.fetched 1 16))

/-- RST t: the target is the address `t * 8` itself (R172). -/
def execRstT (target : Byte) (s : State) : Answer := answer (callTo (target.setWidth 16) (s.fetched 1 16))

end Sys2Proof.Machine
end

