-- ==== Sys2Proof/Machine/Loads.lean ====
section
/-! DEFINITION. The meanings of the loads, the stores and the stack instructions (40_loads R92 to R116). -/

namespace Sys2Proof.Machine

/-- A load of A from an address that the state after the fetch names. -/
def loadA (length cycles : Nat) (address : State → Word) (s : State) : Answer :=
  let t := s.fetched length cycles
  answer ((memRead t (address t)).map fun v => t.setReg .a v)

/-- A store of one byte, both named by the state after the fetch. -/
def storeByte (length cycles : Nat) (address : State → Word) (value : State → Byte) (s : State) : Answer :=
  let t := s.fetched length cycles
  answer (memWrite (address t) (value t) t)

/-- LD r,r' (R92). -/
def execLdRR (dst src : Reg8) (s : State) : Answer :=
  .next ((s.fetched 1 4).setReg dst (s.reg src))

/-- LD r,n (R93). -/
def execLdRN (r : Reg8) (n : Byte) (s : State) : Answer := .next ((s.fetched 2 8).setReg r n)

/-- LD r,(HL): read at the old HL (R94). -/
def execLdRIndHl (dst : Reg8) (s : State) : Answer := readHl 1 8 (fun v t => t.setReg dst v) s

/-- LD (HL),r (R95). -/
def execLdIndHlR (src : Reg8) (s : State) : Answer := storeByte 1 8 State.hl (fun t => t.reg src) s

/-- LD (HL),n (R96). -/
def execLdIndHlN (n : Byte) (s : State) : Answer := storeByte 2 12 State.hl (fun _ => n) s

/-- LD A,(BC) (R97). -/
def execLdAIndBc (s : State) : Answer := loadA 1 8 State.bc s

/-- LD A,(DE) (R98). -/
def execLdAIndDe (s : State) : Answer := loadA 1 8 State.de s

/-- LD (BC),A (R99). -/
def execLdIndBcA (s : State) : Answer := storeByte 1 8 State.bc (fun t => t.regs.a) s

/-- LD (DE),A (R100). -/
def execLdIndDeA (s : State) : Answer := storeByte 1 8 State.de (fun t => t.regs.a) s

/-- LD A,(nn) (R101). -/
def execLdAIndNn (nn : Word) (s : State) : Answer := loadA 3 16 (fun _ => nn) s

/-- LD (nn),A (R102). -/
def execLdIndNnA (nn : Word) (s : State) : Answer := storeByte 3 16 (fun _ => nn) (fun t => t.regs.a) s

/-- LDH A,(n) (R103). -/
def execLdhAIndN (n : Byte) (s : State) : Answer := loadA 2 12 (fun _ => highPage n) s

/-- LDH (n),A (R104). -/
def execLdhIndNA (n : Byte) (s : State) : Answer := storeByte 2 12 (fun _ => highPage n) (fun t => t.regs.a) s

/-- LD A,(C) (R105). -/
def execLdAIndC (s : State) : Answer := loadA 1 8 (fun t => highPage t.regs.c) s

/-- LD (C),A (R106). -/
def execLdIndCA (s : State) : Answer := storeByte 1 8 (fun t => highPage t.regs.c) (fun t => t.regs.a) s

/-- A store of A at HL after which HL becomes `next HL` (R107, R108). -/
def storeAThenHl (next : Word → Word) (s : State) : Answer :=
  let t := s.fetched 1 8
  answer ((memWrite t.hl t.regs.a t).map fun u => u.setHl (next t.hl))

/-- A load of A from HL after which HL becomes `next HL` (R109, R110). -/
def loadAThenHl (next : Word → Word) (s : State) : Answer :=
  let t := s.fetched 1 8
  answer ((memRead t t.hl).map fun v => (t.setReg .a v).setHl (next t.hl))

/-- LD (HL+),A (R107). -/
def execLdIndHlIncA (s : State) : Answer := storeAThenHl (fun a => a + 1) s

/-- LD (HL-),A (R108). -/
def execLdIndHlDecA (s : State) : Answer := storeAThenHl (fun a => a - 1) s

/-- LD A,(HL+) (R109). -/
def execLdAIndHlInc (s : State) : Answer := loadAThenHl (fun a => a + 1) s

/-- LD A,(HL-) (R110). -/
def execLdAIndHlDec (s : State) : Answer := loadAThenHl (fun a => a - 1) s

/-- LD rr,nn (R111). -/
def execLdRrNn (rr : Rp) (nn : Word) (s : State) : Answer := .next ((s.fetched 3 12).setRp rr nn)

/-- LD (nn),SP: the low byte at nn, the high byte at nn + 1 (R112). -/
def execLdIndNnSp (nn : Word) (s : State) : Answer := answer (memWrite16 nn s.regs.sp (s.fetched 3 20))

/-- LD SP,HL (R113). -/
def execLdSpHl (s : State) : Answer := .next ((s.fetched 1 8).setSp s.hl)

/-- LD HL,SP+e (R114, R136). -/
def execLdHlSpE (e : Byte) (s : State) : Answer :=
  let t := s.fetched 2 12
  let r := spOffset t.cfg.spOffsetFlags t.regs.sp e
  .next ((t.setHl r.value).setFlags (spOffsetFlags t.cfg.spOffsetFlags t.regs.f r))

/-- PUSH rr (R115). -/
def execPushRr (rr : Rp2) (s : State) : Answer := answer (push16 (s.rp2 rr) (s.fetched 1 16))

/-- POP rr; POP AF drops the low four bits (R116). -/
def execPopRr (rr : Rp2) (s : State) : Answer :=
  answer ((pop16 (s.fetched 1 12)).map fun r => r.2.setRp2 rr r.1)

end Sys2Proof.Machine
end

