-- ==== Sys2Proof/Machine/Rotate.lean ====
section
/-! DEFINITION. The meanings of the rotates, shifts and SWAP (43_rotate_shift R142 to R155). -/

namespace Sys2Proof.Machine

/-- An accumulator rotate: Z, N and H are cleared whatever the result (R142). -/
def rotateA (r : Byte × Bool) (s : State) : State :=
  (s.setReg .a r.1).setFlags { z := false, n := false, h := false, c := r.2 }

/-- RLCA (R143). -/
def execRlca (s : State) : Answer := .next (rotateA (rotateLeft s.regs.a) (s.fetched 1 4))

/-- RRCA (R144). -/
def execRrca (s : State) : Answer := .next (rotateA (rotateRight s.regs.a) (s.fetched 1 4))

/-- RLA (R145). -/
def execRla (s : State) : Answer := .next (rotateA (rotateLeftCarry s.regs.a s.regs.f.c) (s.fetched 1 4))

/-- RRA (R146). -/
def execRra (s : State) : Answer := .next (rotateA (rotateRightCarry s.regs.a s.regs.f.c) (s.fetched 1 4))

/-- RLC r (R148). -/
def execRlcR (r : Reg8) (s : State) : Answer := cbRotate .rlc (.reg r) s

/-- RLC (HL) (R148). -/
def execRlcIndHl (s : State) : Answer := cbRotate .rlc .indHl s

/-- RRC r (R149). -/
def execRrcR (r : Reg8) (s : State) : Answer := cbRotate .rrc (.reg r) s

/-- RRC (HL) (R149). -/
def execRrcIndHl (s : State) : Answer := cbRotate .rrc .indHl s

/-- RL r (R150). -/
def execRlR (r : Reg8) (s : State) : Answer := cbRotate .rl (.reg r) s

/-- RL (HL) (R150). -/
def execRlIndHl (s : State) : Answer := cbRotate .rl .indHl s

/-- RR r (R151). -/
def execRrR (r : Reg8) (s : State) : Answer := cbRotate .rr (.reg r) s

/-- RR (HL) (R151). -/
def execRrIndHl (s : State) : Answer := cbRotate .rr .indHl s

/-- SLA r (R152). -/
def execSlaR (r : Reg8) (s : State) : Answer := cbRotate .sla (.reg r) s

/-- SLA (HL) (R152). -/
def execSlaIndHl (s : State) : Answer := cbRotate .sla .indHl s

/-- SRA r (R153). -/
def execSraR (r : Reg8) (s : State) : Answer := cbRotate .sra (.reg r) s

/-- SRA (HL) (R153). -/
def execSraIndHl (s : State) : Answer := cbRotate .sra .indHl s

/-- SWAP r (R154). -/
def execSwapR (r : Reg8) (s : State) : Answer := cbRotate .swap (.reg r) s

/-- SWAP (HL) (R154). -/
def execSwapIndHl (s : State) : Answer := cbRotate .swap .indHl s

/-- SRL r (R155). -/
def execSrlR (r : Reg8) (s : State) : Answer := cbRotate .srl (.reg r) s

/-- SRL (HL) (R155). -/
def execSrlIndHl (s : State) : Answer := cbRotate .srl .indHl s

end Sys2Proof.Machine
end

