-- ==== Sys2Proof/Machine/System.lean ====
section
/-! DEFINITION. The meanings of the system instructions and of the eleven illegal bytes (46_system R173 to R179). -/

namespace Sys2Proof.Machine

/-- NOP (R173). -/
def execNop (s : State) : Answer := .next (s.fetched 1 4)

/-- HALT: with `ime` false and an interrupt pending it sets the halt-bug condition and keeps running, else it enters Halted
(R174). -/
def execHalt (s : State) : Answer :=
  let t := s.fetched 1 4
  if !t.ime && t.pending != 0 then .next { t with haltBug := true } else .next { t with mode := .halted }

/-- STOP: the second byte is ignored, DIV and its sub-counter are cleared (R175). -/
def execStop (_n : Byte) (s : State) : Answer :=
  let t := s.fetched 2 4
  .next { t with timer := { t.timer with div := 0x00, divSub := 0 }, mode := .stopped }

/-- DI (R176). -/
def execDi (s : State) : Answer := .next { s.fetched 1 4 with ime := false, eiDelay := 0 }

/-- EI (R177). -/
def execEi (s : State) : Answer :=
  let t := s.fetched 1 4
  if !t.ime && t.eiDelay == 0 then .next { t with eiDelay := 2 } else .next t

/-- PREFIX CB: perform the CB page's instruction of the second byte (R178). -/
def execPrefixCb (op2 : Byte) (s : State) : Answer := performCb (cbOpOf op2) s

/-- `raise IllegalOpcode(addr, op)`: `addr` is PC at the start of the step, and nothing else changes (R179). -/
def raiseIllegal (op : Byte) (s : State) : Answer := .fault (.illegalOpcode s.pc op)

/-- The illegal byte 0xD3 (R179). -/
def execIllegalD3 (s : State) : Answer := raiseIllegal 0xD3 s

/-- The illegal byte 0xDB (R179). -/
def execIllegalDB (s : State) : Answer := raiseIllegal 0xDB s

/-- The illegal byte 0xDD (R179). -/
def execIllegalDD (s : State) : Answer := raiseIllegal 0xDD s

/-- The illegal byte 0xE3 (R179). -/
def execIllegalE3 (s : State) : Answer := raiseIllegal 0xE3 s

/-- The illegal byte 0xE4 (R179). -/
def execIllegalE4 (s : State) : Answer := raiseIllegal 0xE4 s

/-- The illegal byte 0xEB (R179). -/
def execIllegalEB (s : State) : Answer := raiseIllegal 0xEB s

/-- The illegal byte 0xEC (R179). -/
def execIllegalEC (s : State) : Answer := raiseIllegal 0xEC s

/-- The illegal byte 0xED (R179). -/
def execIllegalED (s : State) : Answer := raiseIllegal 0xED s

/-- The illegal byte 0xF4 (R179). -/
def execIllegalF4 (s : State) : Answer := raiseIllegal 0xF4 s

/-- The illegal byte 0xFC (R179). -/
def execIllegalFC (s : State) : Answer := raiseIllegal 0xFC s

/-- The illegal byte 0xFD (R179). -/
def execIllegalFD (s : State) : Answer := raiseIllegal 0xFD s

end Sys2Proof.Machine
end

