-- ==== Sys2Proof/Machine/Dispatch.lean ====
section
/-! DEFINITION. One arm per constructor of `Instr`: the meaning of each instruction. -/

namespace Sys2Proof.Machine

def exec (i : Instr) (s : State) : Host.Outcome State Fault Refusal :=
  match i with
  | .nop => Sys2Proof.Machine.execNop s
  | .ldRrNn rr nn => Sys2Proof.Machine.execLdRrNn rr nn s
  | .ldIndBcA => Sys2Proof.Machine.execLdIndBcA s
  | .incRr rr => Sys2Proof.Machine.execIncRr rr s
  | .incR r => Sys2Proof.Machine.execIncR r s
  | .decR r => Sys2Proof.Machine.execDecR r s
  | .ldRN r n => Sys2Proof.Machine.execLdRN r n s
  | .rlca => Sys2Proof.Machine.execRlca s
  | .ldIndNnSp nn => Sys2Proof.Machine.execLdIndNnSp nn s
  | .addHlRr rr => Sys2Proof.Machine.execAddHlRr rr s
  | .ldAIndBc => Sys2Proof.Machine.execLdAIndBc s
  | .decRr rr => Sys2Proof.Machine.execDecRr rr s
  | .rrca => Sys2Proof.Machine.execRrca s
  | .stop n => Sys2Proof.Machine.execStop n s
  | .ldIndDeA => Sys2Proof.Machine.execLdIndDeA s
  | .rla => Sys2Proof.Machine.execRla s
  | .jrE e => Sys2Proof.Machine.execJrE e s
  | .ldAIndDe => Sys2Proof.Machine.execLdAIndDe s
  | .rra => Sys2Proof.Machine.execRra s
  | .jrCcE cc e => Sys2Proof.Machine.execJrCcE cc e s
  | .ldIndHlIncA => Sys2Proof.Machine.execLdIndHlIncA s
  | .daa => Sys2Proof.Machine.execDaa s
  | .ldAIndHlInc => Sys2Proof.Machine.execLdAIndHlInc s
  | .cpl => Sys2Proof.Machine.execCpl s
  | .ldIndHlDecA => Sys2Proof.Machine.execLdIndHlDecA s
  | .incIndHl => Sys2Proof.Machine.execIncIndHl s
  | .decIndHl => Sys2Proof.Machine.execDecIndHl s
  | .ldIndHlN n => Sys2Proof.Machine.execLdIndHlN n s
  | .scf => Sys2Proof.Machine.execScf s
  | .ldAIndHlDec => Sys2Proof.Machine.execLdAIndHlDec s
  | .ccf => Sys2Proof.Machine.execCcf s
  | .ldRR dst src => Sys2Proof.Machine.execLdRR dst src s
  | .ldRIndHl dst => Sys2Proof.Machine.execLdRIndHl dst s
  | .ldIndHlR src => Sys2Proof.Machine.execLdIndHlR src s
  | .halt => Sys2Proof.Machine.execHalt s
  | .addAR src => Sys2Proof.Machine.execAddAR src s
  | .addAIndHl => Sys2Proof.Machine.execAddAIndHl s
  | .adcAR src => Sys2Proof.Machine.execAdcAR src s
  | .adcAIndHl => Sys2Proof.Machine.execAdcAIndHl s
  | .subR src => Sys2Proof.Machine.execSubR src s
  | .subIndHl => Sys2Proof.Machine.execSubIndHl s
  | .sbcAR src => Sys2Proof.Machine.execSbcAR src s
  | .sbcAIndHl => Sys2Proof.Machine.execSbcAIndHl s
  | .andR src => Sys2Proof.Machine.execAndR src s
  | .andIndHl => Sys2Proof.Machine.execAndIndHl s
  | .xorR src => Sys2Proof.Machine.execXorR src s
  | .xorIndHl => Sys2Proof.Machine.execXorIndHl s
  | .orR src => Sys2Proof.Machine.execOrR src s
  | .orIndHl => Sys2Proof.Machine.execOrIndHl s
  | .cpR src => Sys2Proof.Machine.execCpR src s
  | .cpIndHl => Sys2Proof.Machine.execCpIndHl s
  | .retCc cc => Sys2Proof.Machine.execRetCc cc s
  | .popRr rr => Sys2Proof.Machine.execPopRr rr s
  | .jpCcNn cc nn => Sys2Proof.Machine.execJpCcNn cc nn s
  | .jpNn nn => Sys2Proof.Machine.execJpNn nn s
  | .callCcNn cc nn => Sys2Proof.Machine.execCallCcNn cc nn s
  | .pushRr rr => Sys2Proof.Machine.execPushRr rr s
  | .addAN n => Sys2Proof.Machine.execAddAN n s
  | .rstT target => Sys2Proof.Machine.execRstT target s
  | .ret => Sys2Proof.Machine.execRet s
  | .prefixCb op2 => Sys2Proof.Machine.execPrefixCb op2 s
  | .callNn nn => Sys2Proof.Machine.execCallNn nn s
  | .adcAN n => Sys2Proof.Machine.execAdcAN n s
  | .illegalD3 => Sys2Proof.Machine.execIllegalD3 s
  | .subN n => Sys2Proof.Machine.execSubN n s
  | .reti => Sys2Proof.Machine.execReti s
  | .illegalDB => Sys2Proof.Machine.execIllegalDB s
  | .illegalDD => Sys2Proof.Machine.execIllegalDD s
  | .sbcAN n => Sys2Proof.Machine.execSbcAN n s
  | .ldhIndNA n => Sys2Proof.Machine.execLdhIndNA n s
  | .ldIndCA => Sys2Proof.Machine.execLdIndCA s
  | .illegalE3 => Sys2Proof.Machine.execIllegalE3 s
  | .illegalE4 => Sys2Proof.Machine.execIllegalE4 s
  | .andN n => Sys2Proof.Machine.execAndN n s
  | .addSpE e => Sys2Proof.Machine.execAddSpE e s
  | .jpHl => Sys2Proof.Machine.execJpHl s
  | .ldIndNnA nn => Sys2Proof.Machine.execLdIndNnA nn s
  | .illegalEB => Sys2Proof.Machine.execIllegalEB s
  | .illegalEC => Sys2Proof.Machine.execIllegalEC s
  | .illegalED => Sys2Proof.Machine.execIllegalED s
  | .xorN n => Sys2Proof.Machine.execXorN n s
  | .ldhAIndN n => Sys2Proof.Machine.execLdhAIndN n s
  | .ldAIndC => Sys2Proof.Machine.execLdAIndC s
  | .di => Sys2Proof.Machine.execDi s
  | .illegalF4 => Sys2Proof.Machine.execIllegalF4 s
  | .orN n => Sys2Proof.Machine.execOrN n s
  | .ldHlSpE e => Sys2Proof.Machine.execLdHlSpE e s
  | .ldSpHl => Sys2Proof.Machine.execLdSpHl s
  | .ldAIndNn nn => Sys2Proof.Machine.execLdAIndNn nn s
  | .ei => Sys2Proof.Machine.execEi s
  | .illegalFC => Sys2Proof.Machine.execIllegalFC s
  | .illegalFD => Sys2Proof.Machine.execIllegalFD s
  | .cpN n => Sys2Proof.Machine.execCpN n s
  | .rlcR r => Sys2Proof.Machine.execRlcR r s
  | .rlcIndHl => Sys2Proof.Machine.execRlcIndHl s
  | .rrcR r => Sys2Proof.Machine.execRrcR r s
  | .rrcIndHl => Sys2Proof.Machine.execRrcIndHl s
  | .rlR r => Sys2Proof.Machine.execRlR r s
  | .rlIndHl => Sys2Proof.Machine.execRlIndHl s
  | .rrR r => Sys2Proof.Machine.execRrR r s
  | .rrIndHl => Sys2Proof.Machine.execRrIndHl s
  | .slaR r => Sys2Proof.Machine.execSlaR r s
  | .slaIndHl => Sys2Proof.Machine.execSlaIndHl s
  | .sraR r => Sys2Proof.Machine.execSraR r s
  | .sraIndHl => Sys2Proof.Machine.execSraIndHl s
  | .swapR r => Sys2Proof.Machine.execSwapR r s
  | .swapIndHl => Sys2Proof.Machine.execSwapIndHl s
  | .srlR r => Sys2Proof.Machine.execSrlR r s
  | .srlIndHl => Sys2Proof.Machine.execSrlIndHl s
  | .bitBR bit r => Sys2Proof.Machine.execBitBR bit r s
  | .bitBIndHl bit => Sys2Proof.Machine.execBitBIndHl bit s
  | .resBR bit r => Sys2Proof.Machine.execResBR bit r s
  | .resBIndHl bit => Sys2Proof.Machine.execResBIndHl bit s
  | .setBR bit r => Sys2Proof.Machine.execSetBR bit r s
  | .setBIndHl bit => Sys2Proof.Machine.execSetBIndHl bit s

end Sys2Proof.Machine
end

