-- ==== Sys2Proof/Machine/Run.lean ====
section
/-! DEFINITION. The processor step and the machine step (60_exceptions R180, R181), and where the host places an instruction so
that the next step runs it. -/

namespace Sys2Proof.Machine

/-- A step that executes one instruction: fetch, execute, the EI delay, the timer (R81, R181, R191, R180). -/
def executeStep (s : State) : Answer :=
  match fetchInstr s with
  | .error r => .refused r
  | .ok i => completed (fun t => endStep (eiTick t)) (exec i s)

/-- A step that takes one interrupt and executes no instruction (R181, R188, R189). -/
def dispatchStep (s : State) : Answer := completed endStep (answer (dispatch s))

/-- A Halted processor wakes when an enabled source is requested, whatever `ime` holds (R190). -/
def wake (s : State) : State := if s.pending != 0 then { s with mode := .running } else s

/-- The processor step in the order of R181, with the machine step's end around it. -/
def processorStep (s : State) : Answer :=
  if s.mode = .stopped then .next (endStep (idle s))
  else if s.ime && s.pending != 0 then dispatchStep s
  else if s.mode = .halted then .next (endStep (idle (wake s)))
  else executeStep s

/-- The machine step: a state with a fault or refused has no further step (R180, R182). -/
def machineStep (s : State) : Answer :=
  match s.fault with
  | some f => .fault f
  | none => if s.refused then .refused .alreadyRefused else processorStep (bootCheck s)

/-! ## Placing an instruction for the host -/

/-- `s` with the byte that a read of `a` returns set to `v`, in the storage behind `a`.  The unusable gap, closed RAM and the
routed I/O addresses have no storage to set. -/
def placeByte (a : Word) (v : Byte) (s : State) : State :=
  match bootByte s a with
  | some _ => { s with cfg := { s.cfg with bootRom := s.cfg.bootRom.map fun image => imageStore image a.toNat v } }
  | none =>
    match regionOf a with
    | .romFixed offset => placeRom offset s
    | .romBanked offset => placeRom (romBankSel s.cart.variant s.bank % s.cart.romBanks * 0x4000 + offset) s
    | .vram offset => { s with ram := { s.ram with vram := ramStore s.ram.vram offset v } }
    | .extRam offset =>
      match extRamWrite offset v s with
      | .ok t => t
      | .error _ => s
    | .wram offset => { s with ram := { s.ram with wram := ramStore s.ram.wram offset v } }
    | .echo offset => { s with ram := { s.ram with wram := ramStore s.ram.wram offset v } }
    | .oam offset => setOam offset v s
    | .unusable => s
    | .io offset => if ioRouted offset then s else setIoCell offset v s
    | .hram offset => { s with ram := { s.ram with hram := ramStore s.ram.hram offset v } }
    | .irqEnable => { s with irqEnable := v }
where
  placeRom (index : Nat) (s : State) : State :=
    { s with cart := { s.cart with
      rom := imageStore s.cart.rom index v
      romLength := max s.cart.romLength (index + 1) } }

/-- Bytes placed from `a` up. -/
def placeBytes (a : Word) (bytes : List Byte) (s : State) : State :=
  match bytes with
  | [] => s
  | v :: rest => placeBytes (a + 1) rest (placeByte a v s)

/-- A state whose next step fetches at PC: running, no fault, no halt bug, no interrupt to take first.  It is the identity on
`State.reset`. -/
def readyToFetch (s : State) : State :=
  { bootCheck s with
    mode := .running, haltBug := false, fault := none, refused := false, ime := s.ime && s.pending == 0 }

/-- An instruction's bytes stored where the next step fetches. -/
def placeInstr (bytes : List Byte) (s : State) : State := placeBytes s.pc bytes (readyToFetch s)

end Sys2Proof.Machine
end

