-- ==== Sys2Proof/Machine/Collaborators.lean ====
section
/-! DEFINITION. The moves of the host and the collaborators, which act only between machine steps (60_exceptions R202;
20_memory R69): under no law, so a claim about runs allows any of them after any step. -/

namespace Sys2Proof.Machine

/-- A source a collaborator may request: video 0 and 1, any collaborator 3, input 4; source 2 is the timer's own (R184, R202). -/
inductive OutsideSource where
  | vblank
  | lcdStatus
  | serial
  | input
  deriving DecidableEq, Repr

/-- The bit of the source in IF and IE (R184). -/
def OutsideSource.bit : OutsideSource → Nat
  | .vblank => 0
  | .lcdStatus => 1
  | .serial => 3
  | .input => 4

/-- A move between two steps. -/
inductive HostMove where
  /-- `RequestInterrupt(i)` (R185). -/
  | requestInterrupt (source : OutsideSource)
  /-- `SetVideo(stat, ly)`: writes STAT and LY (R46, R202). -/
  | setVideo (stat ly : Byte)
  /-- `Release()`, while Stopped: the only way out of it (R201, R202). -/
  | release
  deriving DecidableEq, Repr

/-- The effect of a move (R202). -/
def hostMove (m : HostMove) (s : State) : State :=
  match m with
  | .requestInterrupt source => s.requestInterrupt source.bit
  | .setVideo stat ly => setIoCell 0x44 ly (setIoCell 0x41 stat s)
  | .release => if s.mode = .stopped then { s with mode := .running } else s

/-! What the host may ask between steps (R202, R203). -/

/-- `Cycles()`. -/
def State.cycles (s : State) : Nat := s.lastCycles

/-- `Halted()`. -/
def State.isHalted (s : State) : Bool := s.mode == .halted

/-- `Ime()`. -/
def State.masterEnable (s : State) : Bool := s.ime

/-- `Read(a)`: `MemRead(a, 1)`, with no side effect (R70). -/
def State.hostRead (s : State) (a : Word) : Except Refusal Byte := memRead s a

end Sys2Proof.Machine
end

