-- ==== Sys2Proof/Machine/Load.lean ====
section
/-! DEFINITION. `Load(CART_IMAGE, BOOT_ROM)`, the host's operation before any step (20_memory R50 to R54), and the reset state
of the boot mode (10_state R32, 70_reset_and_hazards R204). -/

namespace Sys2Proof.Machine

/-- Why a load yields no machine (R50). -/
inductive LoadError where
  | unreadable
  | unknownCartType
  | unknownRomSize
  | unknownRamSize
  deriving DecidableEq, Repr

/-- The variant of the type byte at 0x147 (R52). -/
def cartType (byte : Byte) : Except LoadError Variant :=
  match byte.toNat with
  | 0x00 | 0x08 | 0x09 => .ok .plain
  | 0x01 | 0x02 | 0x03 => .ok .v1
  | 0x05 | 0x06 => .ok .v2
  | 0x0F | 0x10 | 0x11 | 0x12 | 0x13 => .ok .v3
  | 0x19 | 0x1A | 0x1B | 0x1C | 0x1D | 0x1E => .ok .v5
  | _ => .error .unknownCartType

/-- The ROM bank count of the code at 0x148: `2 << n` for n in 0..8 (R53). -/
def romBanksOf (code : Byte) : Except LoadError Nat :=
  if code.toNat ≤ 8 then .ok (2 <<< code.toNat) else .error .unknownRomSize

/-- The RAM bank count of the code at 0x149 (R54). -/
def ramBanksOf (code : Byte) : Except LoadError Nat :=
  match code.toNat with
  | 0x00 => .ok 0
  | 0x01 => .ok 1
  | 0x02 => .ok 1
  | 0x03 => .ok 4
  | 0x04 => .ok 16
  | 0x05 => .ok 8
  | _ => .error .unknownRamSize

/-- The byte of the image at a header offset. -/
def headerByte (image : List Byte) (offset : Nat) : Byte := (image[offset]?).getD 0x00

/-- The cartridge of an image, or why there is none (R50). -/
def loadCart (image : List Byte) : Except LoadError Cart :=
  if image.length < 0x150 then .error .unreadable
  else
    (cartType (headerByte image 0x147)).bind fun variant =>
      (romBanksOf (headerByte image 0x148)).bind fun romBanks =>
        (ramBanksOf (headerByte image 0x149)).map fun ramBanks =>
          { rom := imageCells image 0, romLength := image.length, romBanks := romBanks, ramBanks := ramBanks,
            variant := variant }

/-- The header fields that have no effect in the block, parsed and kept for the host (R51, 00_scope R5). -/
structure Header where
  /-- From 0x134, of variable length. -/
  title : List Byte
  /-- 0x13F-0x142. -/
  manufacturer : List Byte
  /-- 0x143: 0x80 and 0xC0 say colour is supported. -/
  colourFlag : Byte
  /-- 0x144-0x145, meaningful only when the old licensee byte is 0x33. -/
  newLicensee : List Byte
  /-- 0x14A. -/
  region : Byte
  /-- 0x14B. -/
  oldLicensee : Byte
  /-- 0x14C. -/
  maskRomVersion : Byte
  deriving DecidableEq, Repr

/-- The title: the bytes from 0x134 up to the first 0x00, and never past 0x13E, where the next field begins (R51; DESIGN CHOICE,
log 20: the spec says only that its length varies). -/
def Cart.title (c : Cart) : List Byte :=
  ((List.range (0x13F - 0x134)).map fun k => imageByte c.rom (0x134 + k)).takeWhile fun v => v != 0x00

/-- The header of a loaded cartridge, from its image (R51). -/
def Cart.header (c : Cart) : Header :=
  { title := c.title
    manufacturer := [0x13F, 0x140, 0x141, 0x142].map (imageByte c.rom)
    colourFlag := imageByte c.rom 0x143
    newLicensee := [0x144, 0x145].map (imageByte c.rom)
    region := imageByte c.rom 0x14A
    oldLicensee := imageByte c.rom 0x14B
    maskRomVersion := imageByte c.rom 0x14C }

/-- The I/O cells R32 sets to 0x00 in the boot mode; every other cell of `io` is "any" there, a draw. -/
def ioBootCells : Mem :=
  [(0x01, 0x00), (0x02, 0x00), (0x40, 0x00), (0x41, 0x00), (0x42, 0x00), (0x43, 0x00), (0x44, 0x00), (0x45, 0x00)] ++
  [(0x46, 0x00), (0x4A, 0x00), (0x4B, 0x00), (0x50, 0x00)]

/-- The state after reset in the boot mode: PC = 0x0000 under the overlay, the CPU registers draws (R32, R204, log 6). -/
def State.bootMode (cart : Cart) (cfg : Config) : State :=
  { State.postBoot cart cfg with
    regs :=
      { a := Config.bootRegister .a, f := Flags.ofByte (Config.bootRegister .f), b := Config.bootRegister .b
        c := Config.bootRegister .c, d := Config.bootRegister .d, e := Config.bootRegister .e, h := Config.bootRegister .h
        l := Config.bootRegister .l, sp := wordOf (Config.bootRegister .spHigh) (Config.bootRegister .spLow) }
    pc := 0x0000
    irqFlags := 0x00
    timer := { div := 0x00, tima := 0x00, tma := 0x00, tac := 0, divSub := 0, timaSub := 0 }
    ram := { vram := [], wram := [], oam := [], hram := [], io := ioBootCells, ext := [], mbc2 := [] }
    bootActive := true }

/-- `Load(CART_IMAGE, BOOT_ROM)` with the other parameters of R8: the machine after reset, or the load error (R50, R204). -/
def load (image : List Byte) (bootRom : Option (Vector Byte 256)) (intDispatchCycles : Nat)
    (flagsSetting : SpOffsetFlags) : Except LoadError State :=
  (loadCart image).map fun cart =>
    match bootRom with
    | none => State.postBoot cart
        { intDispatchCycles := intDispatchCycles, spOffsetFlags := flagsSetting, bootRom := none }
    | some boot => State.bootMode cart
        { intDispatchCycles := intDispatchCycles, spOffsetFlags := flagsSetting
          bootRom := some (imageCells boot.toList 0) }

end Sys2Proof.Machine
end

