-- ==== Sys2Proof/Safety.lean ====
section
/-! DEFINITION. The terms the claims use: which accesses are given a meaning, which reads a write may change, what an
instruction leaves alone, and the invariant of a safe run. -/

namespace Sys2Proof.Machine

/-! ## Accesses -/

/-- An access to `a` is not the one R63 refuses: external RAM with a variant-3 clock register selected. -/
def State.accessible (s : State) (a : Word) : Bool :=
  !(rtcSelected s && decide (0xA000 ≤ a.toNat) && decide (a.toNat ≤ 0xBFFF))

/-- A write of `v` to `a` is given a meaning: so is the access, and for the DMA trigger so are the copy's reads (R47, R63). -/
def State.writable (s : State) (a : Word) (v : Byte) : Bool :=
  s.accessible a && (decide (a ≠ 0xFF46) || s.accessible (wordOf v 0x00))

/-- The two writes of `Push16(v)` are given a meaning (R90). -/
def State.pushable (s : State) (v : Word) : Bool :=
  s.writable (s.regs.sp - 1) (hiByte v) && s.writable (s.regs.sp - 2) (loByte v)

/-- The two reads of `Pop16()` are given a meaning (R90). -/
def State.poppable (s : State) : Bool := s.accessible s.regs.sp && s.accessible (s.regs.sp + 1)

/-- Plain RAM: a byte written there is what the next read of the address returns, and nothing else happens (R39, R34, R41). -/
def plainRam (a : Word) : Bool :=
  (decide (0x8000 ≤ a.toNat) && decide (a.toNat ≤ 0x9FFF)) || (decide (0xC000 ≤ a.toNat) && decide (a.toNat ≤ 0xFE9F)) ||
  (decide (0xFF80 ≤ a.toNat) && decide (a.toNat ≤ 0xFFFE))

/-- The other address of the same `wram` cell: the mirror covers 0xC000-0xDDFF only (R38). -/
def mirrorOf (a x : Word) : Bool :=
  (decide (0xC000 ≤ a.toNat) && decide (a.toNat ≤ 0xDDFF) && decide (x.toNat = a.toNat + 0x2000)) ||
  (decide (0xE000 ≤ a.toNat) && decide (a.toNat ≤ 0xFDFF) && decide (x.toNat + 0x2000 = a.toNat))

/-- The read of `x` may change when a byte is written to `a`: the address itself, its mirror, the banked windows for a write
to 0x0000-0x7FFF, the sprite table for the DMA trigger, the overlay's page for the boot-disable register, the mirrors of
variant-2's RAM, and nothing else (R34, R38, R47, R48, R58, R62). -/
def touched (variant : Variant) (a x : Word) : Bool :=
  decide (x = a) || mirrorOf a x ||
  (decide (a.toNat ≤ 0x7FFF) &&
    ((decide (0x4000 ≤ x.toNat) && decide (x.toNat ≤ 0x7FFF)) || (decide (0xA000 ≤ x.toNat) && decide (x.toNat ≤ 0xBFFF)))) ||
  (decide (a = 0xFF46) && decide (0xFE00 ≤ x.toNat) && decide (x.toNat ≤ 0xFE9F)) ||
  (decide (a = 0xFF50) && decide (x.toNat ≤ 0xFF)) ||
  (decide (variant = .v2) && decide (0xA000 ≤ a.toNat) && decide (a.toNat ≤ 0xBFFF) && decide (0xA000 ≤ x.toNat) &&
    decide (x.toNat ≤ 0xBFFF) && decide (x.toNat % 0x200 = a.toNat % 0x200))

/-! ## Frames -/

/-- Every address reads as before. -/
def SameReads (s t : State) : Prop := ∀ x, memRead t x = memRead s x

/-- Every address reads as before but those a byte write to `a` may change. -/
def SameReadsBut (a : Word) (s t : State) : Prop := ∀ x, touched s.cart.variant a x = false → memRead t x = memRead s x

/-- Every address reads as before but those a byte write to `a` or to `b` may change. -/
def SameReadsBut2 (a b : Word) (s t : State) : Prop :=
  ∀ x, touched s.cart.variant a x = false → touched s.cart.variant b x = false → memRead t x = memRead s x

/-- Nothing but the register file, PC, `halt_bug` and the reported cycles differs. -/
def RegistersOnly (s t : State) : Prop :=
  t = { s with regs := t.regs, pc := t.pc, haltBug := t.haltBug, lastCycles := t.lastCycles }

/-- The instruction of `length` bytes is over: PC is past it, but for the one increment the halt-bug condition suppresses, the
condition is used up, and the step reports `cycles` (R18, R79, R208). -/
def Advanced (length cycles : Nat) (s t : State) : Prop :=
  t.pc = (if s.haltBug then s.pc else s.pc + 1) + BitVec.ofNat 16 (length - 1) ∧ t.haltBug = false ∧ t.lastCycles = cycles

/-- As `Advanced`, with PC at a target. -/
def Jumped (target : Word) (cycles : Nat) (t : State) : Prop :=
  t.pc = target ∧ t.haltBug = false ∧ t.lastCycles = cycles

/-- The address of the byte after an instruction of `length` bytes at PC (R18). -/
def State.nextAddress (s : State) (length : Nat) : Word :=
  (if s.haltBug then s.pc else s.pc + 1) + BitVec.ofNat 16 (length - 1)

/-- A flags byte's worth of claims: each flag as given. -/
def FlagsAre (t : State) (z n h c : Prop) : Prop :=
  (t.regs.f.z = true ↔ z) ∧ (t.regs.f.n = true ↔ n) ∧ (t.regs.f.h = true ↔ h) ∧ (t.regs.f.c = true ↔ c)

/-- A load of register `r`: it holds `v`, and no other register and no flag differs. -/
def Loaded (r : Reg8) (v : Byte) (s t : State) : Prop :=
  t.reg r = v ∧ (∀ q, q ≠ r → t.reg q = s.reg q) ∧ t.regs.f = s.regs.f ∧ t.regs.sp = s.regs.sp

/-- The byte `v` is written to `a` through the bus, with every side effect of its region and no other effect but on the register
file, PC, `halt_bug` and the reported cycles; every address the write does not touch reads as before; and plain RAM reads it
back. -/
def StoredByte (a : Word) (v : Byte) (s t : State) : Prop :=
  (∃ u, memWrite a v s = .ok u ∧
    t = { u with regs := t.regs, pc := t.pc, haltBug := t.haltBug, lastCycles := t.lastCycles }) ∧
  SameReadsBut a s t ∧ (plainRam a = true → memRead t a = .ok v)

/-- As `StoredByte`, for `v` written to `a` and then `w` to `b`. -/
def StoredTwo (a : Word) (v : Byte) (b : Word) (w : Byte) (s t : State) : Prop :=
  (∃ u x, memWrite a v s = .ok u ∧ memWrite b w u = .ok x ∧
    t = { x with regs := t.regs, pc := t.pc, haltBug := t.haltBug, lastCycles := t.lastCycles }) ∧
  SameReadsBut2 a b s t ∧ (plainRam a = true → plainRam b = true → memRead t a = .ok v) ∧
  (plainRam b = true → memRead t b = .ok w)

/-- The encodings of the three forms of an instruction of the accumulator: the register and (HL) forms by the `r8` field in bits
2:0 from `opcode` up, the immediate form (R77, R118). -/
def AluEncodings (register : Reg8 → Instr) (atHl : Instr) (immediate : Byte → Instr) (opcode immediateOpcode : Byte) : Prop :=
  encode (register .b) = [opcode] ∧ encode (register .c) = [opcode + 1] ∧ encode (register .d) = [opcode + 2] ∧
  encode (register .e) = [opcode + 3] ∧ encode (register .h) = [opcode + 4] ∧ encode (register .l) = [opcode + 5] ∧
  encode atHl = [opcode + 6] ∧ encode (register .a) = [opcode + 7] ∧ ∀ n, encode (immediate n) = [immediateOpcode, n]

/-- The three operand forms of an instruction of the accumulator (R118), each with its encoding, its length and its cycles: a
register, the byte at HL, an immediate.  `effect v` relates the states before and after for the operand `v`; nothing but the
register file, PC, `halt_bug` and the reported cycles differs, and the (HL) form is refused exactly when its read is. -/
def AluForms (register : Reg8 → Instr) (atHl : Instr) (immediate : Byte → Instr) (opcode immediateOpcode : Byte)
    (effect : Byte → State → State → Prop) : Prop :=
  AluEncodings register atHl immediate opcode immediateOpcode ∧ ∀ s : State,
    (∀ src, ∃ t, exec (register src) s = .next t ∧
      effect (s.reg src) s t ∧ Advanced 1 4 s t ∧ RegistersOnly s t ∧ SameReads s t) ∧
    (∀ v, memRead s s.hl = .ok v → ∃ t, exec atHl s = .next t ∧
      effect v s t ∧ Advanced 1 8 s t ∧ RegistersOnly s t ∧ SameReads s t) ∧
    (∀ r, memRead s s.hl = .error r → exec atHl s = .refused r) ∧
    (∀ n, ∃ t, exec (immediate n) s = .next t ∧
      effect n s t ∧ Advanced 2 8 s t ∧ RegistersOnly s t ∧ SameReads s t)

/-- No register but A and F differs. -/
def AccumulatorOnly (s t : State) : Prop := t.regs = { s.regs with a := t.regs.a, f := t.regs.f }

/-- The encodings of the two forms of a CB-page instruction: the lead byte, then a byte with the `r8` field in bits 2:0 from
`opcode` up (R77, R84). -/
def CbEncodings (register : Reg8 → Instr) (atHl : Instr) (opcode : Byte) : Prop :=
  encode (register .b) = [0xCB, opcode] ∧ encode (register .c) = [0xCB, opcode + 1] ∧
  encode (register .d) = [0xCB, opcode + 2] ∧ encode (register .e) = [0xCB, opcode + 3] ∧
  encode (register .h) = [0xCB, opcode + 4] ∧ encode (register .l) = [0xCB, opcode + 5] ∧
  encode atHl = [0xCB, opcode + 6] ∧ encode (register .a) = [0xCB, opcode + 7]

/-- The (HL) form of a CB-page instruction that writes its operand: it reads the byte once and writes `value` of it once, and it
is refused exactly when one of the two accesses is (R91, R147). -/
def CbAtHl (atHl : Instr) (value : State → Byte → Byte → Prop) (effect : Byte → Byte → State → State → Prop) : Prop :=
  ∀ (s : State) (m v : Byte) (r : Refusal),
    (memRead s s.hl = .ok m → value s m v → s.writable s.hl v = true → ∃ t, exec atHl s = .next t ∧
      StoredByte s.hl v s t ∧ effect m v s t ∧ Advanced 2 16 s t) ∧
    (memRead s s.hl = .error r → exec atHl s = .refused r) ∧
    (memRead s s.hl = .ok m → value s m v → memWrite s.hl v s = .error r → exec atHl s = .refused r)

/-- The two operand forms of a CB-page rotate or shift (R147), each with its encoding: the result and the carry out, as numbers,
are `result` and `carry` of the operand and the old carry; Z follows the result, N and H are cleared. -/
def CbForms (register : Reg8 → Instr) (atHl : Instr) (opcode : Byte) (result : Nat → Nat → Nat) (carry : Nat → Prop) : Prop :=
  CbEncodings register atHl opcode ∧
  (∀ s r, ∃ t v, exec (register r) s = .next t ∧ t.reg r = v ∧ v.toNat = result (s.reg r).toNat s.regs.f.c.toNat ∧
    (∀ q, q ≠ r → t.reg q = s.reg q) ∧ t.regs.sp = s.regs.sp ∧
    FlagsAre t (v = 0) False False (carry (s.reg r).toNat) ∧ Advanced 2 8 s t ∧ RegistersOnly s t ∧ SameReads s t) ∧
  CbAtHl atHl (fun s m v => v.toNat = result m.toNat s.regs.f.c.toNat) fun m v s t =>
    t.regs = { s.regs with f := t.regs.f } ∧ FlagsAre t (v = 0) False False (carry m.toNat)

/-- The flags of ADD SP,e and LD HL,SP+e: under `hw` Z and N are cleared and H and C are the carries of the unsigned low bytes;
under `doc16` Z is kept, N is cleared and H and C are those of the 16-bit addition (R136). -/
def SpFlags (s : State) (e : Byte) (t : State) : Prop :=
  match s.cfg.spOffsetFlags with
  | .hw => FlagsAre t False False (s.regs.sp.toNat % 16 + e.toNat % 16 > 15) (s.regs.sp.toNat % 256 + e.toNat > 255)
  | .doc16 => FlagsAre t (s.regs.f.z = true) False
      (s.regs.sp.toNat % 4096 + (e.toInt % 65536).toNat % 4096 > 4095)
      (s.regs.sp.toNat + (e.toInt % 65536).toNat > 65535)

/-- A byte with bit `b` replaced and every other bit kept (R158, R159). -/
def BitReplaced (b : Nat) (bit : Bool) (old new : Byte) : Prop :=
  ∀ k, k < 8 → new.getLsbD k = if k = b then bit else old.getLsbD k

/-- The RAM gate after `v` is written to it: open for low nibble 0xA, closed for 0x0, else as it was (R59). -/
def gateAfter (v : Byte) (gate : Bool) : Bool :=
  if v.toNat % 16 = 0xA then true else if v.toNat % 16 = 0 then false else gate

/-- The cell of external RAM behind `a` on every variant but variant-2: the selected bank modulo the bank count (R57). -/
def extCell (s : State) (a : Word) : Nat :=
  (match s.cart.variant with
    | .plain | .v2 => 0
    | .v1 => if s.bank.bankMode then s.bank.ramBank.toNat else 0
    | .v3 | .v5 => s.bank.ramBank.toNat) % s.cart.ramBanks * 0x2000 + (a.toNat - 0xA000)

/-- A number below 100 in packed decimal: its tens in the high nibble, its ones in the low one (R131). -/
def packedDecimal (k : Nat) : Byte := BitVec.ofNat 8 (k / 10 * 16 + k % 10)

/-! ## The invariant -/

/-- The bank registers hold what their variant's writes can leave (R31, R60 to R64). -/
def bankLegal (variant : Variant) (b : Bank) : Bool :=
  match variant with
  | .plain => decide (b = Bank.reset)
  | .v1 =>
    decide (1 ≤ b.romBank.toNat) && decide (b.romBank.toNat ≤ 31) && decide (b.ramBank.toNat ≤ 3) &&
    (b.bankMode || b.ramBank == 0)
  | .v2 =>
    decide (1 ≤ b.romBank.toNat) && decide (b.romBank.toNat ≤ 15) && b.romHi == 0 && b.ramBank == 0 && !b.bankMode
  | .v3 => decide (1 ≤ b.romBank.toNat) && decide (b.romBank.toNat ≤ 255) && b.romHi == 0 && !b.bankMode
  | .v5 => decide (b.ramBank.toNat ≤ 15) && b.romHi == 0 && !b.bankMode

/-- What holds between machine steps of a loaded machine. -/
structure State.Inv (s : State) : Prop where
  /-- Memory is in canonical form. -/
  memory : Memory.wf s = true
  /-- `div_sub` is 0..255 (R27). -/
  divSub : s.timer.divSub < 256
  /-- `tima_sub` is below the period TAC selects (R27). -/
  timaSub : s.timer.timaSub < timerPeriod s.timer.tac
  /-- Between steps EI's delay is 0, or 1 with `ime` still false (R23, R177, R191). -/
  eiDelay : s.eiDelay = 0 ∨ (s.eiDelay = 1 ∧ s.ime = false)
  /-- The bank registers are legal for the variant (R31). -/
  bank : bankLegal s.cart.variant s.bank = true
  /-- There is a ROM bank to select (R53). -/
  romBanks : 0 < s.cart.romBanks
  /-- While the overlay is active there is a boot image and the disable flag is 0, so the per-step check changes nothing
  (R29, R181, D10). -/
  overlay : s.bootActive = true → s.cfg.bootRom.isSome = true ∧ cellRead s.ram.io 0x50 = some 0x00

end Sys2Proof.Machine
end

