-- ==== Sys2Proof/Certificates/Slice0/Obligations.lean ====
section
/-! DEFINITION. The statements of this model, from the numbered rules of spec/.  Each docstring names the rules a statement rests
on; where a clause rests on a choice of the model, it names the log entry. -/

open Sys2Proof Sys2Proof.Machine

/-! ## Encoding -/

/-- Words written out from the opcode maps and from the source's own scenarios decode to the instructions they stand for (R83,
R84, R85, R87). The spec marks as its own, and this statement rests on: general knowledge in R83, R84, R85, R87; the decisions
D25. -/
def Obligations.DecodesSpecWords : Prop :=
  decode [0x3E, 0x05] = .ok (.ldRN .a 0x05, []) ∧
  decode [0xC6, 0x03, 0x76] = .ok (.addAN 0x03, [0x76]) ∧
  decode [0x76] = .ok (.halt, []) ∧
  decode [0xCD, 0x05, 0x01] = .ok (.callNn 0x0105, []) ∧
  decode [0xC9] = .ok (.ret, []) ∧
  decode [0xCB, 0x37] = .ok (.swapR .a, []) ∧
  decode [0xCB, 0x7F] = .ok (.bitBR 7 .a, []) ∧
  decode [0xCB, 0xCB] = .ok (.setBR 1 .e, []) ∧
  decode [0x41] = .ok (.ldRR .b .c, []) ∧
  decode [0x8B] = .ok (.adcAR .e, []) ∧
  decode [0x09] = .ok (.addHlRr .bc, []) ∧
  decode [0xF8, 0x08] = .ok (.ldHlSpE 0x08, []) ∧
  decode [0xF1] = .ok (.popRr .af, []) ∧
  decode [0x30, 0xFA] = .ok (.jrCcE .nc 0xFA, []) ∧
  decode [0xEF] = .ok (.rstT 0x28, []) ∧
  decode [0xDD] = .ok (.illegalDD, [])

/-- Decoding an encoded well-formed instruction gives it back, whatever bytes follow: no bit of an operand is dropped (R75 to
R84). The spec marks as its own, and this statement rests on: general knowledge in R75, R76, R77, R78, R82, R83, R84; the
decisions D34, D50, D57; what it derives in R77. -/
def Obligations.DecodeEncode : Prop :=
  ∀ (i : Instr) (rest : List Byte), i.wellFormed = true → decode (encode i ++ rest) = .ok (i, rest)

/-- What is decoded is well-formed and its encoding is the bytes it was read from: every word has one meaning (R75 to R87).
That STOP's second byte is kept in the instruction, so that `encode` gives it back, is the model's choice (log 18): R175 only
fetches and ignores it. The spec marks as its own, and this statement rests on: general knowledge in R75, R76, R77, R78, R82,
R83, R84, R85, R86, R87, R175; the decisions D25, D33, D34, D50, D52, D57; what it derives in R77. -/
def Obligations.EncodeDecode : Prop :=
  ∀ (bytes : List Byte) (i : Instr) (rest : List Byte), decode bytes = .ok (i, rest) →
    i.wellFormed = true ∧ encode i ++ rest = bytes

/-- The length of an instruction follows from its first byte, by the lists of R82, and the decoder takes exactly that many
bytes or refuses too few of them. The spec marks as its own, and this statement rests on: general knowledge in R82. -/
def Obligations.LengthFollowsFirstByte : Prop :=
  ∀ (op : Byte) (rest : List Byte),
    (instrLength op = 3 ↔ op ∈ ([0x01, 0x11, 0x21, 0x31, 0x08, 0xC2, 0xC3, 0xC4, 0xCA, 0xCC, 0xCD, 0xD2, 0xD4, 0xDA, 0xDC,
      0xEA, 0xFA] : List Byte)) ∧
    (instrLength op = 2 ↔ op ∈ ([0x06, 0x0E, 0x16, 0x1E, 0x26, 0x2E, 0x36, 0x3E, 0x10, 0x18, 0x20, 0x28, 0x30, 0x38, 0xC6,
      0xCE, 0xD6, 0xDE, 0xE6, 0xEE, 0xF6, 0xFE, 0xE0, 0xF0, 0xE8, 0xF8, 0xCB] : List Byte)) ∧
    (instrLength op = 1 ∨ instrLength op = 2 ∨ instrLength op = 3) ∧
    (rest.length + 1 < instrLength op → decode (op :: rest) = .error .truncated) ∧
    (instrLength op ≤ rest.length + 1 → ∃ i, decode (op :: rest) = .ok (i, rest.drop (instrLength op - 1)))

/-- The eleven illegal bytes, each stopping with the address and the byte; no other byte decodes to an instruction that
faults; and a step that fetches one of the eleven as an opcode raises the fault (R85, R179). The spec marks as its own, and
this statement rests on: general knowledge in R85; the decisions D25. -/
def Obligations.IllegalBytesFault : Prop :=
  (∀ s : State,
    exec .illegalD3 s = .fault (.illegalOpcode s.pc 0xD3) ∧ exec .illegalDB s = .fault (.illegalOpcode s.pc 0xDB) ∧
    exec .illegalDD s = .fault (.illegalOpcode s.pc 0xDD) ∧ exec .illegalE3 s = .fault (.illegalOpcode s.pc 0xE3) ∧
    exec .illegalE4 s = .fault (.illegalOpcode s.pc 0xE4) ∧ exec .illegalEB s = .fault (.illegalOpcode s.pc 0xEB) ∧
    exec .illegalEC s = .fault (.illegalOpcode s.pc 0xEC) ∧ exec .illegalED s = .fault (.illegalOpcode s.pc 0xED) ∧
    exec .illegalF4 s = .fault (.illegalOpcode s.pc 0xF4) ∧ exec .illegalFC s = .fault (.illegalOpcode s.pc 0xFC) ∧
    exec .illegalFD s = .fault (.illegalOpcode s.pc 0xFD)) ∧
  (∀ (op byte2 byte3 : Byte) (s : State),
    (op ∈ ([0xD3, 0xDB, 0xDD, 0xE3, 0xE4, 0xEB, 0xEC, 0xED, 0xF4, 0xFC, 0xFD] : List Byte) →
      exec (decodeOpcode op byte2 byte3) s = .fault (.illegalOpcode s.pc op)) ∧
    (op ∉ ([0xD3, 0xDB, 0xDD, 0xE3, 0xE4, 0xEB, 0xEC, 0xED, 0xF4, 0xFC, 0xFD] : List Byte) →
      ∀ f, exec (decodeOpcode op byte2 byte3) s ≠ .fault f)) ∧
  (∀ (op : Byte) (s : State), s.fault = none → s.refused = false → s.mode = .running → (s.ime = false ∨ s.pending = 0) →
    op ∈ ([0xD3, 0xDB, 0xDD, 0xE3, 0xE4, 0xEB, 0xEC, 0xED, 0xF4, 0xFC, 0xFD] : List Byte) →
    memRead (bootCheck s) s.pc = .ok op → step s = .fault (.illegalOpcode s.pc op))

/-! ## The step -/

/-- When the bytes at PC decode to an instruction, the step is that instruction's meaning on the state after the per-step boot
check, and after it the EI delay, the timer and the step count (R79 to R81, R180, R181). The spec marks as its own, and this
statement rests on: the decisions D22, D25, D32, D48, D50, D57. -/
def Obligations.StepRunsDecoded : Prop :=
  ∀ (s : State) (i : Instr) (op byte2 byte3 : Byte) (rest : List Byte),
    s.fault = none → s.refused = false → s.mode = .running → (s.ime = false ∨ s.pending = 0) →
    memRead (bootCheck s) s.pc = .ok op →
    (2 ≤ instrLength op → memRead (bootCheck s) s.afterOpcode = .ok byte2) →
    (3 ≤ instrLength op → memRead (bootCheck s) (s.afterOpcode + 1) = .ok byte3) →
    decode [op, byte2, byte3] = .ok (i, rest) →
    i.wellFormed = true ∧
    (∀ t, exec i (bootCheck s) = .next t → step s = .next (endStep (eiTick t))) ∧
    (∀ f, exec i (bootCheck s) = .fault f → step s = .fault f) ∧
    (∀ r, exec i (bootCheck s) = .refused r → step s = .refused r)

/-- With `ime` set and something pending, a step takes the interrupt of the lowest pending source and executes nothing: the
request is cleared, `ime` and the EI delay are cleared, the return address (the HALT's own under the halt-bug condition) is
pushed, the processor runs at the source's vector, and the step reports the parameter's cycles. This holds wherever the stack
is; in plain RAM the whole next state is given (R181, R184, R187 to R189). The spec marks as its own, and this statement rests
on: general knowledge in R184, R189; the decisions D27, D31, D32, D47. -/
def Obligations.StepDispatches : Prop :=
  ∀ (s : State) (i : Nat), s.fault = none → s.refused = false → s.mode ≠ .stopped → s.ime = true →
    s.pending.getLsbD i = true → (∀ j, j < i → s.pending.getLsbD j = false) → s.pushable s.returnAddress = true →
    s.returnAddress = (if s.haltBug then s.pc - 1 else s.pc) ∧
    ∃ u, step s = .next (endStep u) ∧
      u.pc = BitVec.ofNat 16 (0x40 + 8 * i) ∧ u.mode = .running ∧ u.ime = false ∧ u.eiDelay = 0 ∧ u.haltBug = false ∧
      u.lastCycles = s.cfg.intDispatchCycles ∧ u.regs = { s.regs with sp := s.regs.sp - 2 } ∧
      (plainRam (s.regs.sp - 1) = true → plainRam (s.regs.sp - 2) = true →
        u.irqFlags = s.irqFlags &&& ~~~(1#5 <<< i) ∧
        u = { bootCheck s with
          regs := u.regs, pc := u.pc, mode := u.mode, haltBug := u.haltBug, ime := u.ime, eiDelay := u.eiDelay
          irqFlags := u.irqFlags, lastCycles := u.lastCycles, ram := u.ram } ∧
        memRead u (s.regs.sp - 1) = .ok (hiByte s.returnAddress) ∧ memRead u (s.regs.sp - 2) = .ok (loByte s.returnAddress) ∧
        (∀ x, x ≠ 0xFF0F → touched s.cart.variant (s.regs.sp - 1) x = false →
          touched s.cart.variant (s.regs.sp - 2) x = false → memRead u x = memRead (bootCheck s) x))

/-- A Stopped step, and a Halted step that dispatches nothing, change nothing but the timer: 4 cycles, and a Halted processor
with something pending runs again (R181, R190, R201). The spec marks as its own, and this statement rests on: the decisions
D29, D32, D33, D48, D52. -/
def Obligations.IdleSteps : Prop :=
  ∀ s : State, s.fault = none → s.refused = false →
    (s.mode = .stopped →
      step s = .next { timerUpdate 4 (bootCheck s) with lastCycles := 4, draws := s.draws + 1 }) ∧
    (s.mode = .halted → (s.ime = false ∨ s.pending = 0) →
      step s = .next { timerUpdate 4 (bootCheck s) with
        mode := if s.pending = 0 then .halted else .running, lastCycles := 4, draws := s.draws + 1 })

/-- A stopped machine has no further step, and a step that stops leaves the state from before it with only its mark set (R21,
R180, R182). How a model whose outcomes carry no state says so is its own choice (log 15): a state that holds a fault answers
that fault again, a refused one answers `alreadyRefused`, and the state a stop leaves is `State.settle`. The spec marks as its
own, and this statement rests on: the decisions D22, D25, D48. -/
def Obligations.StuckStates : Prop :=
  ∀ s : State,
    (∀ f, s.fault = some f → step s = .fault f) ∧
    (s.fault = none → s.refused = true → step s = .refused .alreadyRefused) ∧
    (∀ f, step s = .fault f →
      s.settle (step s) = { s with fault := some f } ∧ step (s.settle (step s)) = .fault f) ∧
    (∀ r, step s = .refused r →
      s.settle (step s) = { s with refused := true } ∧ step (s.settle (step s)) = .refused .alreadyRefused)

/-- Why a step can stop at all: an illegal byte at PC, or an access to a clock register of variant-3 while one is selected, or
that the machine had stopped before (R182, R63). That a stopped state answers its fault again or `alreadyRefused` is the
model's choice (log 15). The spec marks as its own, and this statement rests on: general knowledge in R63; the decisions D22,
D25. -/
def Obligations.OnlyKnownStops : Prop :=
  ∀ s : State,
    (∀ f, step s = .fault f → s.fault = some f ∨
      ∃ op, op ∈ ([0xD3, 0xDB, 0xDD, 0xE3, 0xE4, 0xEB, 0xEC, 0xED, 0xF4, 0xFC, 0xFD] : List Byte) ∧
        memRead (bootCheck s) s.pc = .ok op ∧ f = .illegalOpcode s.pc op) ∧
    (∀ r, step s = .refused r → (r = .alreadyRefused ∧ s.refused = true) ∨
      (r = .rtcRegister ∧ s.cart.variant = .v3 ∧ s.bank.ramEnable = true ∧ 3 < s.bank.ramBank.toNat))

/-! ## The timer -/

/-- DIV and its sub-counter together count the cycles modulo 65536, whatever TAC holds; and the timer changes nothing but its
own fields and IF, so that every address but DIV, TIMA and IF reads as before. The end of a step is the timer by the cycles
reported, and the model's own step count (log 3) (R180, R195, R196). The spec marks as its own, and this statement rests on:
general knowledge in R195; the decisions D22, D25, D35, D36, D37, D38, D48, D56. -/
def Obligations.TimerDivider : Prop :=
  ∀ (n : Nat) (s : State),
    (timerUpdate n s).timer.divSub < 256 ∧
    (timerUpdate n s).timer.div.toNat * 256 + (timerUpdate n s).timer.divSub =
      (s.timer.div.toNat * 256 + s.timer.divSub + n) % 65536 ∧
    timerUpdate n s = { s with timer := (timerUpdate n s).timer, irqFlags := (timerUpdate n s).irqFlags } ∧
    (∀ x, x ≠ 0xFF04 → x ≠ 0xFF05 → x ≠ 0xFF0F → memRead (timerUpdate n s) x = memRead s x) ∧
    endStep s = { s with
      timer := (timerUpdate s.lastCycles s).timer, irqFlags := (timerUpdate s.lastCycles s).irqFlags, draws := s.draws + 1 }

/-- TIMA: held while TAC[2] is 0; while it is 1, one count per period, the remainder kept; past 0xFF it reloads from TMA and
requests interrupt 2, and no other bit of IF and nothing but the timer's own fields changes (R27, R195, R196). The spec marks
as its own, and this statement rests on: general knowledge in R195; the decisions D35, D36, D37, D38, D56. -/
def Obligations.TimerCounter : Prop :=
  ∀ (n : Nat) (s : State) (period total : Nat),
    period = (if s.timer.tac.toNat % 4 = 0 then 1024 else if s.timer.tac.toNat % 4 = 1 then 16
      else if s.timer.tac.toNat % 4 = 2 then 64 else 256) →
    total = s.timer.tima.toNat * period + s.timer.timaSub + n →
    (timerUpdate n s).timer.tma = s.timer.tma ∧ (timerUpdate n s).timer.tac = s.timer.tac ∧
    timerUpdate n s = { s with timer := (timerUpdate n s).timer, irqFlags := (timerUpdate n s).irqFlags } ∧
    ((timerUpdate n s).irqFlags = s.irqFlags ∨ (timerUpdate n s).irqFlags = s.irqFlags ||| 0b00100#5) ∧
    (s.timer.tac.getLsbD 2 = false →
      (timerUpdate n s).timer.tima = s.timer.tima ∧ (timerUpdate n s).timer.timaSub = s.timer.timaSub ∧
      (timerUpdate n s).irqFlags = s.irqFlags) ∧
    (s.timer.tac.getLsbD 2 = true → (timerUpdate n s).timer.timaSub < period) ∧
    (s.timer.tac.getLsbD 2 = true → total < 256 * period →
      (timerUpdate n s).timer.tima.toNat * period + (timerUpdate n s).timer.timaSub = total ∧
      (timerUpdate n s).irqFlags = s.irqFlags) ∧
    (s.timer.tac.getLsbD 2 = true → 256 * period ≤ total → total < 256 * period + (256 - s.timer.tma.toNat) * period →
      (timerUpdate n s).timer.tima.toNat * period + (timerUpdate n s).timer.timaSub + 256 * period =
        total + s.timer.tma.toNat * period) ∧
    (s.timer.tac.getLsbD 2 = true → 256 * period ≤ total → (timerUpdate n s).irqFlags = s.irqFlags ||| 0b00100#5)

/-! ## Loads, stores and the stack -/

/-- LD r,r' and LD r,n: the destination holds the source, and nothing else but PC and the reported cycles differs (R92, R93).
The spec marks as its own, and this statement rests on: general knowledge in R92, R93. -/
def Obligations.LoadsRegister : Prop :=
  ∀ s : State,
    (∀ dst src, ∃ t, exec (.ldRR dst src) s = .next t ∧
      Loaded dst (s.reg src) s t ∧ Advanced 1 4 s t ∧ RegistersOnly s t ∧ SameReads s t) ∧
    (∀ r n, ∃ t, exec (.ldRN r n) s = .next t ∧
      Loaded r n s t ∧ Advanced 2 8 s t ∧ RegistersOnly s t ∧ SameReads s t)

/-- The loads from memory: the register holds the byte the bus reads at the address the form names, HL's old value for LD
H,(HL) and LD L,(HL) among them; no flag changes (R94, R97, R98, R101, R103, R105). The spec marks as its own, and this
statement rests on: general knowledge in R94, R97, R98, R101, R103, R105. -/
def Obligations.LoadsFromMemory : Prop :=
  ∀ (s : State) (v : Byte),
    (∀ dst, memRead s s.hl = .ok v → ∃ t, exec (.ldRIndHl dst) s = .next t ∧
      Loaded dst v s t ∧ Advanced 1 8 s t ∧ RegistersOnly s t ∧ SameReads s t) ∧
    (memRead s s.bc = .ok v → ∃ t, exec .ldAIndBc s = .next t ∧
      Loaded .a v s t ∧ Advanced 1 8 s t ∧ RegistersOnly s t ∧ SameReads s t) ∧
    (memRead s s.de = .ok v → ∃ t, exec .ldAIndDe s = .next t ∧
      Loaded .a v s t ∧ Advanced 1 8 s t ∧ RegistersOnly s t ∧ SameReads s t) ∧
    (∀ nn, memRead s nn = .ok v → ∃ t, exec (.ldAIndNn nn) s = .next t ∧
      Loaded .a v s t ∧ Advanced 3 16 s t ∧ RegistersOnly s t ∧ SameReads s t) ∧
    (∀ n : Byte, memRead s (BitVec.ofNat 16 (0xFF00 + n.toNat)) = .ok v → ∃ t, exec (.ldhAIndN n) s = .next t ∧
      Loaded .a v s t ∧ Advanced 2 12 s t ∧ RegistersOnly s t ∧ SameReads s t) ∧
    (memRead s (BitVec.ofNat 16 (0xFF00 + s.regs.c.toNat)) = .ok v → ∃ t, exec .ldAIndC s = .next t ∧
      Loaded .a v s t ∧ Advanced 1 8 s t ∧ RegistersOnly s t ∧ SameReads s t)

/-- The byte stores: the byte goes to the bus at the address the form names, no register and no flag changes, and every
address the write does not touch reads as before (R91, R95, R96, R99, R100, R102, R104, R106). The spec marks as its own, and
this statement rests on: general knowledge in R95, R96, R99, R100, R102, R104, R106. -/
def Obligations.StoresByte : Prop :=
  ∀ s : State,
    (∀ src, s.writable s.hl (s.reg src) = true → ∃ t, exec (.ldIndHlR src) s = .next t ∧
      StoredByte s.hl (s.reg src) s t ∧ t.regs = s.regs ∧ Advanced 1 8 s t) ∧
    (∀ n, s.writable s.hl n = true → ∃ t, exec (.ldIndHlN n) s = .next t ∧
      StoredByte s.hl n s t ∧ t.regs = s.regs ∧ Advanced 2 12 s t) ∧
    (s.writable s.bc s.regs.a = true → ∃ t, exec .ldIndBcA s = .next t ∧
      StoredByte s.bc s.regs.a s t ∧ t.regs = s.regs ∧ Advanced 1 8 s t) ∧
    (s.writable s.de s.regs.a = true → ∃ t, exec .ldIndDeA s = .next t ∧
      StoredByte s.de s.regs.a s t ∧ t.regs = s.regs ∧ Advanced 1 8 s t) ∧
    (∀ nn, s.writable nn s.regs.a = true → ∃ t, exec (.ldIndNnA nn) s = .next t ∧
      StoredByte nn s.regs.a s t ∧ t.regs = s.regs ∧ Advanced 3 16 s t) ∧
    (∀ n : Byte, s.writable (BitVec.ofNat 16 (0xFF00 + n.toNat)) s.regs.a = true → ∃ t, exec (.ldhIndNA n) s = .next t ∧
      StoredByte (BitVec.ofNat 16 (0xFF00 + n.toNat)) s.regs.a s t ∧ t.regs = s.regs ∧ Advanced 2 12 s t) ∧
    (s.writable (BitVec.ofNat 16 (0xFF00 + s.regs.c.toNat)) s.regs.a = true → ∃ t, exec .ldIndCA s = .next t ∧
      StoredByte (BitVec.ofNat 16 (0xFF00 + s.regs.c.toNat)) s.regs.a s t ∧ t.regs = s.regs ∧ Advanced 1 8 s t)

/-- The forms that step HL: the access is at the old HL, HL wraps modulo 2^16, and no flag changes (R107 to R110). The spec
marks as its own, and this statement rests on: general knowledge in R107, R108, R109, R110. -/
def Obligations.StepsHl : Prop :=
  ∀ (s : State) (v : Byte),
    (s.writable s.hl s.regs.a = true → ∃ t, exec .ldIndHlIncA s = .next t ∧ StoredByte s.hl s.regs.a s t ∧
      t.hl.toNat = (s.hl.toNat + 1) % 65536 ∧ t.regs = { s.regs with h := t.regs.h, l := t.regs.l } ∧ Advanced 1 8 s t) ∧
    (s.writable s.hl s.regs.a = true → ∃ t, exec .ldIndHlDecA s = .next t ∧ StoredByte s.hl s.regs.a s t ∧
      t.hl.toNat = (s.hl.toNat + 65535) % 65536 ∧ t.regs = { s.regs with h := t.regs.h, l := t.regs.l } ∧
      Advanced 1 8 s t) ∧
    (memRead s s.hl = .ok v → ∃ t, exec .ldAIndHlInc s = .next t ∧ t.hl.toNat = (s.hl.toNat + 1) % 65536 ∧
      t.regs = { s.regs with a := v, h := t.regs.h, l := t.regs.l } ∧ Advanced 1 8 s t ∧ RegistersOnly s t ∧
      SameReads s t) ∧
    (memRead s s.hl = .ok v → ∃ t, exec .ldAIndHlDec s = .next t ∧ t.hl.toNat = (s.hl.toNat + 65535) % 65536 ∧
      t.regs = { s.regs with a := v, h := t.regs.h, l := t.regs.l } ∧ Advanced 1 8 s t ∧ RegistersOnly s t ∧
      SameReads s t)

/-- LD rr,nn and LD SP,HL: the pair holds the value, high half first, and no other pair, A or flag differs (R14, R111, R113).
The spec marks as its own, and this statement rests on: general knowledge in R111, R113. -/
def Obligations.LoadsPair : Prop :=
  ∀ s : State,
    (∀ rr nn, ∃ t, exec (.ldRrNn rr nn) s = .next t ∧ t.rp rr = nn ∧ (∀ q, q ≠ rr → t.rp q = s.rp q) ∧
      t.regs.a = s.regs.a ∧ t.regs.f = s.regs.f ∧ Advanced 3 12 s t ∧ RegistersOnly s t ∧ SameReads s t) ∧
    (∃ t, exec .ldSpHl s = .next t ∧ t.regs = { s.regs with sp := s.hl } ∧ Advanced 1 8 s t ∧ RegistersOnly s t ∧
      SameReads s t)

/-- LD (nn),SP: the low byte of SP at nn, then the high byte at nn + 1, which wraps; no register or flag changes (R67, R112).
The spec marks as its own, and this statement rests on: general knowledge in R112; the decisions D3. -/
def Obligations.StoresSp : Prop :=
  ∀ (s : State) (nn : Word), s.writable nn (loByte s.regs.sp) = true → s.writable (nn + 1) (hiByte s.regs.sp) = true →
    ∃ t, exec (.ldIndNnSp nn) s = .next t ∧ StoredTwo nn (loByte s.regs.sp) (nn + 1) (hiByte s.regs.sp) s t ∧
      t.regs = s.regs ∧ Advanced 3 20 s t

/-- LD HL,SP+e and ADD SP,e: SP plus the signed displacement modulo 2^16, with the flags of the setting: under `hw` those of
the unsigned low bytes with Z cleared, under `doc16` those of the 16-bit addition with Z kept (R114, R136, R140). The spec
marks as its own, and this statement rests on: general knowledge in R136; the decisions D39. -/
def Obligations.AddsSpDisplacement : Prop :=
  ∀ (s : State) (e : Byte),
    (∃ t, exec (.ldHlSpE e) s = .next t ∧ (t.hl.toNat : Int) = ((s.regs.sp.toNat : Int) + e.toInt) % 65536 ∧
      t.regs = { s.regs with h := t.regs.h, l := t.regs.l, f := t.regs.f } ∧ SpFlags s e t ∧ Advanced 2 12 s t ∧
      RegistersOnly s t ∧ SameReads s t) ∧
    (∃ t, exec (.addSpE e) s = .next t ∧ (t.regs.sp.toNat : Int) = ((s.regs.sp.toNat : Int) + e.toInt) % 65536 ∧
      t.regs = { s.regs with sp := t.regs.sp, f := t.regs.f } ∧ SpFlags s e t ∧ Advanced 2 16 s t ∧ RegistersOnly s t ∧
      SameReads s t)

/-- PUSH rr: the high byte at SP - 1, then the low byte at SP - 2, SP two lower; PUSH AF pushes F with bits 3:0 zero; no other
register and no flag changes (R16, R90, R115). The spec marks as its own, and this statement rests on: general knowledge in
R115; the decisions D3, D4; what it derives in R16. -/
def Obligations.Pushes : Prop :=
  ∀ (s : State) (rr : Rp2), s.pushable (s.rp2 rr) = true →
    ∃ t, exec (.pushRr rr) s = .next t ∧
      StoredTwo (s.regs.sp - 1) (hiByte (s.rp2 rr)) (s.regs.sp - 2) (loByte (s.rp2 rr)) s t ∧
      t.regs = { s.regs with sp := s.regs.sp - 2 } ∧ Advanced 1 16 s t ∧ loByte (s.rp2 .af) &&& 0x0F = 0

/-- POP rr: the low byte is read at SP, the high byte at SP + 1, SP is two higher; POP AF drops bits 3:0 of the popped low
byte, and no other pair or flag differs (R14, R90, R116). The spec marks as its own, and this statement rests on: the
decisions D3, D4. -/
def Obligations.Pops : Prop :=
  ∀ (s : State) (lo hi : Byte), memRead s s.regs.sp = .ok lo → memRead s (s.regs.sp + 1) = .ok hi →
    (∀ rr, ∃ t, exec (.popRr rr) s = .next t ∧ t.regs.sp = s.regs.sp + 2 ∧
      t.rp2 rr = (if rr = .af then wordOf hi (lo &&& 0xF0) else wordOf hi lo) ∧ (∀ q, q ≠ rr → t.rp2 q = s.rp2 q) ∧
      Advanced 1 12 s t ∧ RegistersOnly s t ∧ SameReads s t)

/-! ## 8-bit arithmetic and logic -/

/-- ADD A,s in its three forms: the sum modulo 256; Z of the result, N 0, H the carry from bit 3, C the carry from bit 7 (R117
to R119). -/
def Obligations.AddsAccumulator : Prop :=
  AluForms .addAR .addAIndHl .addAN 0x80 0xC6 fun v s t =>
    t.regs.a.toNat = (s.regs.a.toNat + v.toNat) % 256 ∧ AccumulatorOnly s t ∧
    FlagsAre t (t.regs.a = 0) False (s.regs.a.toNat % 16 + v.toNat % 16 > 15) (s.regs.a.toNat + v.toNat > 255)

/-- ADC A,s: the carry-in counts for the result and for both carries (R117, R118, R120). -/
def Obligations.AddsWithCarry : Prop :=
  AluForms .adcAR .adcAIndHl .adcAN 0x88 0xCE fun v s t =>
    t.regs.a.toNat = (s.regs.a.toNat + v.toNat + s.regs.f.c.toNat) % 256 ∧ AccumulatorOnly s t ∧
    FlagsAre t (t.regs.a = 0) False (s.regs.a.toNat % 16 + v.toNat % 16 + s.regs.f.c.toNat > 15)
      (s.regs.a.toNat + v.toNat + s.regs.f.c.toNat > 255)

/-- SUB s: the difference modulo 256; Z of the result, N 1, H the borrow into bit 4, C the borrow; and SUB v undoes ADD A,v
(R117, R118, R121). -/
def Obligations.Subtracts : Prop :=
  AluForms .subR .subIndHl .subN 0x90 0xD6 fun v s t =>
    t.regs.a.toNat = (s.regs.a.toNat + 256 - v.toNat) % 256 ∧ AccumulatorOnly s t ∧
    FlagsAre t (t.regs.a = 0) True (s.regs.a.toNat % 16 < v.toNat % 16) (s.regs.a.toNat < v.toNat) ∧
    (∀ x, s.regs.a = x + v → t.regs.a = x)

/-- SBC A,s: the borrow-in counts for the result and for both borrows (R117, R118, R122). -/
def Obligations.SubtractsWithCarry : Prop :=
  AluForms .sbcAR .sbcAIndHl .sbcAN 0x98 0xDE fun v s t =>
    t.regs.a.toNat = (s.regs.a.toNat + 512 - v.toNat - s.regs.f.c.toNat) % 256 ∧ AccumulatorOnly s t ∧
    FlagsAre t (t.regs.a = 0) True (s.regs.a.toNat % 16 < v.toNat % 16 + s.regs.f.c.toNat)
      (s.regs.a.toNat < v.toNat + s.regs.f.c.toNat)

/-- CP s: the flags of SUB; A and every other register is kept (R117, R118, R123). -/
def Obligations.Compares : Prop :=
  AluForms .cpR .cpIndHl .cpN 0xB8 0xFE fun v s t =>
    t.regs = { s.regs with f := t.regs.f } ∧
    FlagsAre t (s.regs.a = v) True (s.regs.a.toNat % 16 < v.toNat % 16) (s.regs.a.toNat < v.toNat)

/-- AND, XOR and OR, bit by bit: Z of the result, N 0, C 0, H set by AND and cleared by XOR and OR (R118, R124 to R126). -/
def Obligations.LogicOperations : Prop :=
  (AluForms .andR .andIndHl .andN 0xA0 0xE6 fun v s t =>
    (∀ k, t.regs.a.getLsbD k = (s.regs.a.getLsbD k && v.getLsbD k)) ∧ AccumulatorOnly s t ∧
    FlagsAre t (t.regs.a = 0) False True False) ∧
  (AluForms .xorR .xorIndHl .xorN 0xA8 0xEE fun v s t =>
    (∀ k, t.regs.a.getLsbD k = (s.regs.a.getLsbD k != v.getLsbD k)) ∧ AccumulatorOnly s t ∧
    FlagsAre t (t.regs.a = 0) False False False) ∧
  (AluForms .orR .orIndHl .orN 0xB0 0xF6 fun v s t =>
    (∀ k, t.regs.a.getLsbD k = (s.regs.a.getLsbD k || v.getLsbD k)) ∧ AccumulatorOnly s t ∧
    FlagsAre t (t.regs.a = 0) False False False)

/-- INC r and DEC r with their encodings: modulo 256; Z of the result, N 0 or 1, H when the low nibble wraps, C kept; no other
register differs (R127, R129). -/
def Obligations.IncDecRegister : Prop :=
  (encode (.incR .b) = [0x04] ∧ encode (.incR .c) = [0x0C] ∧ encode (.incR .d) = [0x14] ∧ encode (.incR .e) = [0x1C] ∧
    encode (.incR .h) = [0x24] ∧ encode (.incR .l) = [0x2C] ∧ encode (.incR .a) = [0x3C]) ∧
  (encode (.decR .b) = [0x05] ∧ encode (.decR .c) = [0x0D] ∧ encode (.decR .d) = [0x15] ∧ encode (.decR .e) = [0x1D] ∧
    encode (.decR .h) = [0x25] ∧ encode (.decR .l) = [0x2D] ∧ encode (.decR .a) = [0x3D]) ∧
  ∀ (s : State) (r : Reg8),
    (∃ t, exec (.incR r) s = .next t ∧ (t.reg r).toNat = ((s.reg r).toNat + 1) % 256 ∧
      (∀ q, q ≠ r → t.reg q = s.reg q) ∧ t.regs.sp = s.regs.sp ∧
      FlagsAre t (t.reg r = 0) False ((s.reg r).toNat % 16 = 15) (s.regs.f.c = true) ∧
      Advanced 1 4 s t ∧ RegistersOnly s t ∧ SameReads s t) ∧
    (∃ t, exec (.decR r) s = .next t ∧ (t.reg r).toNat = ((s.reg r).toNat + 255) % 256 ∧
      (∀ q, q ≠ r → t.reg q = s.reg q) ∧ t.regs.sp = s.regs.sp ∧
      FlagsAre t (t.reg r = 0) True ((s.reg r).toNat % 16 = 0) (s.regs.f.c = true) ∧
      Advanced 1 4 s t ∧ RegistersOnly s t ∧ SameReads s t)

/-- INC (HL) and DEC (HL): the byte at HL is read once and its successor or predecessor is written once; C is kept and no
register differs (R72, R128, R130). The spec marks as its own, and this statement rests on: general knowledge in R128, R130;
what it derives in R72. -/
def Obligations.IncDecMemory : Prop :=
  ∀ (s : State) (m : Byte), memRead s s.hl = .ok m →
    (s.writable s.hl (m + 1) = true → ∃ t, exec .incIndHl s = .next t ∧ StoredByte s.hl (m + 1) s t ∧
      t.regs = { s.regs with f := t.regs.f } ∧
      FlagsAre t (m.toNat = 255) False (m.toNat % 16 = 15) (s.regs.f.c = true) ∧ Advanced 1 12 s t) ∧
    (s.writable s.hl (m - 1) = true → ∃ t, exec .decIndHl s = .next t ∧ StoredByte s.hl (m - 1) s t ∧
      t.regs = { s.regs with f := t.regs.f } ∧
      FlagsAre t (m.toNat = 1) True (m.toNat % 16 = 0) (s.regs.f.c = true) ∧ Advanced 1 12 s t)

/-- DAA for every A and F: after an addition the corrections are added, after a subtraction they are subtracted; Z of the
result, N kept, H cleared, C set and never cleared after an addition, kept after a subtraction (R131). The spec marks as its
own, and this statement rests on: general knowledge in R131. -/
def Obligations.AdjustsDecimal : Prop :=
  ∀ s : State,
    ∃ t, exec .daa s = .next t ∧ AccumulatorOnly s t ∧ Advanced 1 4 s t ∧ RegistersOnly s t ∧ SameReads s t ∧
      (s.regs.f.n = false →
        t.regs.a.toNat = (s.regs.a.toNat + (if s.regs.f.c = true ∨ s.regs.a.toNat > 0x99 then 0x60 else 0) +
          (if s.regs.f.h = true ∨ s.regs.a.toNat % 16 > 9 then 0x06 else 0)) % 256 ∧
        FlagsAre t (t.regs.a = 0) False False (s.regs.f.c = true ∨ s.regs.a.toNat > 0x99)) ∧
      (s.regs.f.n = true →
        t.regs.a.toNat = (s.regs.a.toNat + 256 - (if s.regs.f.c = true then 0x60 else 0) -
          (if s.regs.f.h = true then 0x06 else 0)) % 256 ∧
        FlagsAre t (t.regs.a = 0) True False (s.regs.f.c = true))

/-- What DAA is for: two numbers below 100 in packed decimal, added or subtracted and then adjusted, give the packed decimal
sum or difference modulo 100, with C telling the carry or the borrow (R119, R121, R131). The spec marks as its own, and this
statement rests on: general knowledge in R131. -/
def Obligations.DecimalArithmetic : Prop :=
  ∀ (s : State) (x y : Nat), x < 100 → y < 100 → s.regs.a = packedDecimal x →
    (∃ t u, exec (.addAN (packedDecimal y)) s = .next t ∧ exec .daa t = .next u ∧
      u.regs.a = packedDecimal ((x + y) % 100) ∧ (u.regs.f.c = true ↔ 100 ≤ x + y)) ∧
    (∃ t u, exec (.subN (packedDecimal y)) s = .next t ∧ exec .daa t = .next u ∧
      u.regs.a = packedDecimal ((x + 100 - y) % 100) ∧ (u.regs.f.c = true ↔ x < y))

/-- CPL, SCF and CCF with their encodings: A complemented with N and H set, and twice restored; C set; C complemented with H
cleared and not set to the old C; Z kept by all three (R132 to R134). The spec marks as its own, and this statement rests on:
general knowledge in R132, R133, R134. -/
def Obligations.ComplementsAndCarry : Prop :=
  (encode .cpl = [0x2F] ∧ encode .scf = [0x37] ∧ encode .ccf = [0x3F]) ∧
  ∀ s : State,
    (∃ t, exec .cpl s = .next t ∧ t.regs.a = s.regs.a ^^^ 0xFF ∧ AccumulatorOnly s t ∧
      FlagsAre t (s.regs.f.z = true) True True (s.regs.f.c = true) ∧ Advanced 1 4 s t ∧ RegistersOnly s t ∧ SameReads s t ∧
      ∃ u, exec .cpl t = .next u ∧ u.regs.a = s.regs.a) ∧
    (∃ t, exec .scf s = .next t ∧ t.regs = { s.regs with f := t.regs.f } ∧
      FlagsAre t (s.regs.f.z = true) False False True ∧ Advanced 1 4 s t ∧ RegistersOnly s t ∧ SameReads s t) ∧
    (∃ t, exec .ccf s = .next t ∧ t.regs = { s.regs with f := t.regs.f } ∧
      FlagsAre t (s.regs.f.z = true) False False (s.regs.f.c = false) ∧ Advanced 1 4 s t ∧ RegistersOnly s t ∧ SameReads s t)

/-! ## 16-bit arithmetic -/

/-- ADD HL,rr: the sum modulo 2^16; Z kept, N 0, H the carry from bit 11, C the carry from bit 15, of the old values for ADD
HL,HL too (R135, R137). The spec marks as its own, and this statement rests on: general knowledge in R137. -/
def Obligations.AddsPairToHl : Prop :=
  ∀ (s : State) (rr : Rp),
    ∃ t, exec (.addHlRr rr) s = .next t ∧ t.hl.toNat = (s.hl.toNat + (s.rp rr).toNat) % 65536 ∧
      t.regs = { s.regs with h := t.regs.h, l := t.regs.l, f := t.regs.f } ∧
      FlagsAre t (s.regs.f.z = true) False (s.hl.toNat % 4096 + (s.rp rr).toNat % 4096 > 4095)
        (s.hl.toNat + (s.rp rr).toNat > 65535) ∧
      Advanced 1 8 s t ∧ RegistersOnly s t ∧ SameReads s t

/-- INC rr and DEC rr with their encodings: modulo 2^16, and no flag, no other pair and not A changes (R138, R139). The spec
marks as its own, and this statement rests on: general knowledge in R138, R139. -/
def Obligations.IncDecPair : Prop :=
  (encode (.incRr .bc) = [0x03] ∧ encode (.incRr .de) = [0x13] ∧ encode (.incRr .hl) = [0x23] ∧
    encode (.incRr .sp) = [0x33] ∧ encode (.decRr .bc) = [0x0B] ∧ encode (.decRr .de) = [0x1B] ∧
    encode (.decRr .hl) = [0x2B] ∧ encode (.decRr .sp) = [0x3B]) ∧
  ∀ (s : State) (rr : Rp),
    (∃ t, exec (.incRr rr) s = .next t ∧ (t.rp rr).toNat = ((s.rp rr).toNat + 1) % 65536 ∧
      (∀ q, q ≠ rr → t.rp q = s.rp q) ∧ t.regs.a = s.regs.a ∧ t.regs.f = s.regs.f ∧
      Advanced 1 8 s t ∧ RegistersOnly s t ∧ SameReads s t) ∧
    (∃ t, exec (.decRr rr) s = .next t ∧ (t.rp rr).toNat = ((s.rp rr).toNat + 65535) % 65536 ∧
      (∀ q, q ≠ rr → t.rp q = s.rp q) ∧ t.regs.a = s.regs.a ∧ t.regs.f = s.regs.f ∧
      Advanced 1 8 s t ∧ RegistersOnly s t ∧ SameReads s t)

/-! ## Rotates, shifts and bits -/

/-- RLCA, RRCA, RLA and RRA with their encodings, as numbers: Z is cleared whatever the result, C is the bit that left A (R142
to R146). The spec marks as its own, and this statement rests on: general knowledge in R142; the decisions D40. -/
def Obligations.RotatesAccumulator : Prop :=
  (encode .rlca = [0x07] ∧ encode .rrca = [0x0F] ∧ encode .rla = [0x17] ∧ encode .rra = [0x1F]) ∧
  ∀ (s : State) (a c : Nat), a = s.regs.a.toNat → c = s.regs.f.c.toNat →
    (∃ t, exec .rlca s = .next t ∧ t.regs.a.toNat = 2 * a % 256 + a / 128 ∧ AccumulatorOnly s t ∧
      FlagsAre t False False False (128 ≤ a) ∧ Advanced 1 4 s t ∧ RegistersOnly s t ∧ SameReads s t) ∧
    (∃ t, exec .rrca s = .next t ∧ t.regs.a.toNat = a / 2 + a % 2 * 128 ∧ AccumulatorOnly s t ∧
      FlagsAre t False False False (a % 2 = 1) ∧ Advanced 1 4 s t ∧ RegistersOnly s t ∧ SameReads s t) ∧
    (∃ t, exec .rla s = .next t ∧ t.regs.a.toNat = 2 * a % 256 + c ∧ AccumulatorOnly s t ∧
      FlagsAre t False False False (128 ≤ a) ∧ Advanced 1 4 s t ∧ RegistersOnly s t ∧ SameReads s t) ∧
    (∃ t, exec .rra s = .next t ∧ t.regs.a.toNat = a / 2 + c * 128 ∧ AccumulatorOnly s t ∧
      FlagsAre t False False False (a % 2 = 1) ∧ Advanced 1 4 s t ∧ RegistersOnly s t ∧ SameReads s t)

/-- RLC, RRC, RL and RR of the CB page as numbers, on a register and on the byte at HL (R147 to R151). -/
def Obligations.RotatesOperand : Prop :=
  CbForms .rlcR .rlcIndHl 0x00 (fun v _ => 2 * v % 256 + v / 128) (fun v => 128 ≤ v) ∧
  CbForms .rrcR .rrcIndHl 0x08 (fun v _ => v / 2 + v % 2 * 128) (fun v => v % 2 = 1) ∧
  CbForms .rlR .rlIndHl 0x10 (fun v c => 2 * v % 256 + c) (fun v => 128 ≤ v) ∧
  CbForms .rrR .rrIndHl 0x18 (fun v c => v / 2 + c * 128) (fun v => v % 2 = 1)

/-- SLA, SRA, SWAP and SRL as numbers, on a register and on the byte at HL; SWAP twice gives the byte back (R147, R152 to
R155). The spec marks as its own, and this statement rests on: general knowledge in R147, R154; the decisions D26, D57. -/
def Obligations.ShiftsOperand : Prop :=
  CbForms .slaR .slaIndHl 0x20 (fun v _ => 2 * v % 256) (fun v => 128 ≤ v) ∧
  CbForms .sraR .sraIndHl 0x28 (fun v _ => v / 2 + v / 128 * 128) (fun v => v % 2 = 1) ∧
  CbForms .swapR .swapIndHl 0x30 (fun v _ => v % 16 * 16 + v / 16) (fun _ => False) ∧
  CbForms .srlR .srlIndHl 0x38 (fun v _ => v / 2) (fun v => v % 2 = 1) ∧
  (∀ (s : State) (r : Reg8), ∃ t u, exec (.swapR r) s = .next t ∧ exec (.swapR r) t = .next u ∧ u.reg r = s.reg r)

/-- BIT b,s with its encoding: Z is the inverse of the tested bit, N 0, H 1, C kept, and nothing else is written; the (HL)
form is refused exactly when its one read is (R91, R147, R157). -/
def Obligations.TestsBit : Prop :=
  ∀ b : Nat, b < 8 →
    CbEncodings (.bitBR b) (.bitBIndHl b) (BitVec.ofNat 8 (0x40 + 8 * b)) ∧ ∀ s : State,
    (∀ r, ∃ t, exec (.bitBR b r) s = .next t ∧ t.regs = { s.regs with f := t.regs.f } ∧
      FlagsAre t ((s.reg r).toNat / 2 ^ b % 2 = 0) False True (s.regs.f.c = true) ∧
      Advanced 2 8 s t ∧ RegistersOnly s t ∧ SameReads s t) ∧
    (∀ m, memRead s s.hl = .ok m → ∃ t, exec (.bitBIndHl b) s = .next t ∧ t.regs = { s.regs with f := t.regs.f } ∧
      FlagsAre t (m.toNat / 2 ^ b % 2 = 0) False True (s.regs.f.c = true) ∧
      Advanced 2 12 s t ∧ RegistersOnly s t ∧ SameReads s t) ∧
    (∀ r, memRead s s.hl = .error r → exec (.bitBIndHl b) s = .refused r)

/-- RES and SET with their encodings: bit b becomes 0 or 1 and every other bit is kept; the (HL) form writes whatever the bit
was, with the side effects of the address; no flag changes (R91, R147, R158, R159). -/
def Obligations.ResetsAndSetsBit : Prop :=
  ∀ b : Nat, b < 8 →
    CbEncodings (.resBR b) (.resBIndHl b) (BitVec.ofNat 8 (0x80 + 8 * b)) ∧
    CbEncodings (.setBR b) (.setBIndHl b) (BitVec.ofNat 8 (0xC0 + 8 * b)) ∧
    (∀ s r, ∃ t, exec (.resBR b r) s = .next t ∧ BitReplaced b false (s.reg r) (t.reg r) ∧
      (∀ q, q ≠ r → t.reg q = s.reg q) ∧ t.regs.f = s.regs.f ∧ t.regs.sp = s.regs.sp ∧
      Advanced 2 8 s t ∧ RegistersOnly s t ∧ SameReads s t) ∧
    (∀ s r, ∃ t, exec (.setBR b r) s = .next t ∧ BitReplaced b true (s.reg r) (t.reg r) ∧
      (∀ q, q ≠ r → t.reg q = s.reg q) ∧ t.regs.f = s.regs.f ∧ t.regs.sp = s.regs.sp ∧
      Advanced 2 8 s t ∧ RegistersOnly s t ∧ SameReads s t) ∧
    CbAtHl (.resBIndHl b) (fun _ m v => BitReplaced b false m v) (fun _ _ s t => t.regs = s.regs) ∧
    CbAtHl (.setBIndHl b) (fun _ m v => BitReplaced b true m v) (fun _ _ s t => t.regs = s.regs)

/-! ## Control transfer -/

/-- The jumps: PC at the target, a relative one taken from the byte after the instruction and wrapping; an untaken one only
advances PC and costs less; no register and no flag changes (R160, R162 to R166). The spec marks as its own, and this
statement rests on: general knowledge in R160. -/
def Obligations.Jumps : Prop :=
  ∀ (s : State) (nn : Word) (e : Byte) (cc : Cond),
    (s.cond cc = true ↔ match cc with
      | .nz => s.regs.f.z = false
      | .z => s.regs.f.z = true
      | .nc => s.regs.f.c = false
      | .c => s.regs.f.c = true) ∧
    (∃ t, exec (.jpNn nn) s = .next t ∧ Jumped nn 16 t ∧ t.regs = s.regs ∧ RegistersOnly s t ∧ SameReads s t) ∧
    (∃ t, exec .jpHl s = .next t ∧ Jumped s.hl 4 t ∧ t.regs = s.regs ∧ RegistersOnly s t ∧ SameReads s t) ∧
    (∃ t, exec (.jpCcNn cc nn) s = .next t ∧ (s.cond cc = true → Jumped nn 16 t) ∧
      (s.cond cc = false → Advanced 3 12 s t) ∧ t.regs = s.regs ∧ RegistersOnly s t ∧ SameReads s t) ∧
    (∃ t, exec (.jrE e) s = .next t ∧ Jumped t.pc 12 t ∧
      (t.pc.toNat : Int) = ((s.nextAddress 2).toNat + e.toInt) % 65536 ∧
      t.regs = s.regs ∧ RegistersOnly s t ∧ SameReads s t) ∧
    (∃ t, exec (.jrCcE cc e) s = .next t ∧
      (s.cond cc = true → Jumped t.pc 12 t ∧ (t.pc.toNat : Int) = ((s.nextAddress 2).toNat + e.toInt) % 65536) ∧
      (s.cond cc = false → Advanced 2 8 s t) ∧ t.regs = s.regs ∧ RegistersOnly s t ∧ SameReads s t)

/-- CALL, CALL cc and RST: the address of the byte after the instruction is pushed and PC is at the target; an untaken CALL
pushes nothing; no flag and no register but SP changes (R90, R160, R167, R168, R172). The spec marks as its own, and this
statement rests on: general knowledge in R160; the decisions D3, D4. -/
def Obligations.Calls : Prop :=
  ∀ s : State,
    (∀ nn, s.pushable (s.nextAddress 3) = true → ∃ t, exec (.callNn nn) s = .next t ∧ Jumped nn 24 t ∧
      StoredTwo (s.regs.sp - 1) (hiByte (s.nextAddress 3)) (s.regs.sp - 2) (loByte (s.nextAddress 3)) s t ∧
      t.regs = { s.regs with sp := s.regs.sp - 2 }) ∧
    (∀ cc nn, s.cond cc = true → s.pushable (s.nextAddress 3) = true → ∃ t, exec (.callCcNn cc nn) s = .next t ∧
      Jumped nn 24 t ∧
      StoredTwo (s.regs.sp - 1) (hiByte (s.nextAddress 3)) (s.regs.sp - 2) (loByte (s.nextAddress 3)) s t ∧
      t.regs = { s.regs with sp := s.regs.sp - 2 }) ∧
    (∀ cc nn, s.cond cc = false → ∃ t, exec (.callCcNn cc nn) s = .next t ∧ Advanced 3 12 s t ∧ t.regs = s.regs ∧
      RegistersOnly s t ∧ SameReads s t) ∧
    (∀ n : Nat, n < 8 → s.pushable (s.nextAddress 1) = true → ∃ t, exec (.rstT (BitVec.ofNat 8 (8 * n))) s = .next t ∧
      Jumped (BitVec.ofNat 16 (8 * n)) 16 t ∧
      StoredTwo (s.regs.sp - 1) (hiByte (s.nextAddress 1)) (s.regs.sp - 2) (loByte (s.nextAddress 1)) s t ∧
      t.regs = { s.regs with sp := s.regs.sp - 2 })

/-- RET, RET cc and RETI: PC is the word popped and SP two higher; an untaken RET reads nothing; RETI sets `ime` at once, and
nothing else changes (R90, R160, R169 to R171, R192). The spec marks as its own, and this statement rests on: general
knowledge in R160, R171, R192; the decisions D3, D4. -/
def Obligations.Returns : Prop :=
  ∀ (s : State) (cc : Cond) (lo hi : Byte),
    (s.cond cc = false → ∃ t, exec (.retCc cc) s = .next t ∧ Advanced 1 8 s t ∧ t.regs = s.regs ∧ RegistersOnly s t ∧
      SameReads s t) ∧
    (memRead s s.regs.sp = .ok lo → memRead s (s.regs.sp + 1) = .ok hi →
      (∃ t, exec .ret s = .next t ∧ Jumped (wordOf hi lo) 16 t ∧ t.regs = { s.regs with sp := s.regs.sp + 2 } ∧
        RegistersOnly s t ∧ SameReads s t) ∧
      (s.cond cc = true → ∃ t, exec (.retCc cc) s = .next t ∧ Jumped (wordOf hi lo) 20 t ∧
        t.regs = { s.regs with sp := s.regs.sp + 2 } ∧ RegistersOnly s t ∧ SameReads s t) ∧
      (∃ t, exec .reti s = .next t ∧ Jumped (wordOf hi lo) 16 t ∧ t.regs = { s.regs with sp := s.regs.sp + 2 } ∧
        t.ime = true ∧ t = { s with regs := t.regs, pc := t.pc, haltBug := t.haltBug, lastCycles := t.lastCycles, ime := t.ime } ∧
        SameReads s t))

/-- The stack's round trips in plain RAM: a push then a pop of the same pair restores SP, the pair and every flag; a CALL then
a RET resumes at the byte after the CALL with the SP of before it; no other register changes (R90, R167, R169). The spec marks
as its own, and this statement rests on: the decisions D3, D4. -/
def Obligations.StackRoundTrips : Prop :=
  ∀ s : State, plainRam (s.regs.sp - 1) = true → plainRam (s.regs.sp - 2) = true →
    (∀ rr, ∃ t u, exec (.pushRr rr) s = .next t ∧ exec (.popRr rr) t = .next u ∧ u.regs = s.regs) ∧
    (∀ nn, ∃ t u, exec (.callNn nn) s = .next t ∧ t.pc = nn ∧ exec .ret t = .next u ∧ u.pc = s.nextAddress 3 ∧
      u.regs = s.regs)

/-! ## System -/

/-- NOP, DI and EI with their encodings: NOP only advances PC; DI clears `ime` and a pending enable; EI starts the delay only
with `ime` false and no delay running, and otherwise changes nothing (R173, R176, R177). The spec marks as its own, and this
statement rests on: general knowledge in R173, R176, R177; the decisions D28, D60. -/
def Obligations.NopDiEi : Prop :=
  (encode .nop = [0x00] ∧ encode .di = [0xF3] ∧ encode .ei = [0xFB]) ∧
  ∀ s : State,
    (∃ t, exec .nop s = .next t ∧ Advanced 1 4 s t ∧ t.regs = s.regs ∧ RegistersOnly s t ∧ SameReads s t) ∧
    (∃ t, exec .di s = .next t ∧ Advanced 1 4 s t ∧ t.ime = false ∧ t.eiDelay = 0 ∧
      t = { s with pc := t.pc, haltBug := t.haltBug, lastCycles := t.lastCycles, ime := t.ime, eiDelay := t.eiDelay } ∧
      SameReads s t) ∧
    (∃ t, exec .ei s = .next t ∧ Advanced 1 4 s t ∧
      (s.ime = false → s.eiDelay = 0 → t.eiDelay = 2) ∧ ((s.ime = true ∨ s.eiDelay ≠ 0) → t.eiDelay = s.eiDelay) ∧
      t = { s with pc := t.pc, haltBug := t.haltBug, lastCycles := t.lastCycles, eiDelay := t.eiDelay } ∧ SameReads s t)

/-- HALT: with `ime` false and something pending it keeps running under the halt-bug condition, else it is Halted; STOP takes
two bytes, clears DIV and its sub-counter and is Stopped whatever is pending (R174, R175, R186). The spec marks as its own,
and this statement rests on: general knowledge in R175; the decisions D29, D30, D31, D33, D34, D50, D52, D54. -/
def Obligations.HaltAndStop : Prop :=
  ∀ (s : State) (n : Byte),
    ((s.ime = false ∧ s.irqEnable.toNat &&& s.irqFlags.toNat &&& 0x1F ≠ 0) → ∃ t, exec .halt s = .next t ∧
      t.haltBug = true ∧ t.pc = s.nextAddress 1 ∧ t.lastCycles = 4 ∧ t.regs = s.regs ∧ RegistersOnly s t ∧ SameReads s t) ∧
    ((s.ime = true ∨ s.irqEnable.toNat &&& s.irqFlags.toNat &&& 0x1F = 0) → ∃ t, exec .halt s = .next t ∧
      Advanced 1 4 s t ∧ t.mode = .halted ∧
      t = { s with pc := t.pc, haltBug := t.haltBug, lastCycles := t.lastCycles, mode := t.mode } ∧ SameReads s t) ∧
    (∃ t, exec (.stop n) s = .next t ∧ Advanced 2 4 s t ∧ t.mode = .stopped ∧
      t.timer = { s.timer with div := 0, divSub := 0 } ∧
      t = { s with pc := t.pc, haltBug := t.haltBug, lastCycles := t.lastCycles, mode := t.mode, timer := t.timer } ∧
      (∀ x, x ≠ 0xFF04 → memRead t x = memRead s x))

/-- The lead byte performs the CB-page instruction of its second byte: that pair of bytes decodes to it, with the same
outcome, and it completes wherever its operand is a register or the byte at HL is readable and writable (R81, R84, R178). The
spec marks as its own, and this statement rests on: general knowledge in R84; the decisions D57. -/
def Obligations.PrefixPerformsCbPage : Prop :=
  ∀ (s : State) (op2 : Byte),
    ∃ i, decode [0xCB, op2] = .ok (i, []) ∧ exec (.prefixCb op2) s = exec i s ∧
      ((op2.toNat % 8 ≠ 6 ∨ ∀ v, s.writable s.hl v = true) → ∃ t, exec (.prefixCb op2) s = .next t ∧
        t.pc = s.nextAddress 2 ∧ t.regs.sp = s.regs.sp ∧ t.ime = s.ime ∧ t.mode = s.mode)

/-- EI's delay: after the step of EI `ime` is still false, after the step of the next instruction it is true unless that was
DI, and a step that idles does not count (R177, R191). The spec marks as its own, and this statement rests on: general
knowledge in R177, R191; the decisions D28, D60. -/
def Obligations.EiDelay : Prop :=
  ∀ (s t : State) (i : Instr), step s = .next t →
    (s.mode = .running → s.ime = false → fetchInstr (bootCheck s) = .ok i →
      (i = .ei → s.eiDelay = 0 → t.ime = false ∧ t.eiDelay = 1) ∧
      (i ≠ .di → s.eiDelay = 1 → t.ime = true ∧ t.eiDelay = 0) ∧
      (i = .di → t.ime = false ∧ t.eiDelay = 0)) ∧
    (s.mode ≠ .running → s.ime = false → t.ime = false ∧ t.eiDelay = s.eiDelay)

/-! ## Memory -/

/-- Plain RAM: a byte written is what the next read returns, every address the write does not touch reads as before, and no
register, flag, timer or mode changes (R34, R36, R39, R41). -/
def Obligations.RamReadsBack : Prop :=
  ∀ (s : State) (a : Word) (v : Byte), plainRam a = true →
    ∃ t, memWrite a v s = .ok t ∧ memRead t a = .ok v ∧
      (∀ x, x ≠ a → mirrorOf a x = false → memRead t x = memRead s x) ∧
      t = { s with ram := { s.ram with vram := t.ram.vram, wram := t.ram.wram, oam := t.ram.oam, hram := t.ram.hram } }

/-- The mirror: an access to 0xE000-0xFDFF is the access 0x2000 lower, and 0xDE00-0xDFFF has no mirror (R38). The spec marks
as its own, and this statement rests on: what it derives in R38. -/
def Obligations.MirrorIsWorkingRam : Prop :=
  ∀ (s : State) (a : Word) (v : Byte),
    (0xE000 ≤ a.toNat → a.toNat ≤ 0xFDFF →
      memRead s a = memRead s (a - 0x2000) ∧ memWrite a v s = memWrite (a - 0x2000) v s) ∧
    (0xDE00 ≤ a.toNat → a.toNat ≤ 0xDFFF →
      ∃ t, memWrite a v s = .ok t ∧ memRead t a = .ok v ∧ ∀ x, x ≠ a → memRead t x = memRead s x)

/-- The bank at 0x4000-0x7FFF is the selected number modulo the bank count, and a byte past the image reads 0xFF;
0x0000-0x3FFF is bank 0 where the boot overlay does not shadow it (R55, R56). The spec marks as its own, and this statement
rests on: the decisions D18, D19, D20. -/
def Obligations.ReadsSelectedBank : Prop :=
  ∀ (s : State) (a : Word) (bank : Nat),
    (bank = match s.cart.variant with
      | .plain => 1
      | .v1 => if s.bank.bankMode then s.bank.romBank.toNat else (s.bank.romHi.toNat <<< 5) ||| s.bank.romBank.toNat
      | .v2 | .v3 | .v5 => s.bank.romBank.toNat) →
    (0x4000 ≤ a.toNat → a.toNat ≤ 0x7FFF →
      memRead s a = .ok
        (if bank % s.cart.romBanks * 0x4000 + (a.toNat - 0x4000) < s.cart.romLength
          then imageByte s.cart.rom (bank % s.cart.romBanks * 0x4000 + (a.toNat - 0x4000)) else 0xFF)) ∧
    (a.toNat ≤ 0x3FFF → (s.bootActive = false ∨ 0xFF < a.toNat) →
      memRead s a = .ok (if a.toNat < s.cart.romLength then imageByte s.cart.rom a.toNat else 0xFF))

/-- A write to 0x0000-0x7FFF, window by window on every variant: it changes nothing but the bank registers, and of them what
the variant's rule says. Variant-1: the gate, the low bits with 0 coerced to 1, the 2-bit value to the high bits or the RAM
bank by the mode, the mode, whose clearing clears the RAM bank. Variant-2: the gate where address bit 8 is clear and nothing
where it is set, 4 bits with 0 coerced to 1. Variant-3: the gate, a byte with 0 coerced to 1, the RAM bank. Variant-5: the
gate, the low 8 bits and bit 8 with 0 selectable, a RAM bank of 4 bits. Without a controller: nothing (R58 to R64). The spec
marks as its own, and this statement rests on: general knowledge in R61, R62, R63, R64; the decisions D18, D19, D21, D22, D23.
-/
def Obligations.SelectsBank : Prop :=
  ∀ (s : State) (a : Word) (v : Byte), a.toNat ≤ 0x7FFF →
    ∃ t, memWrite a v s = .ok t ∧ t = { s with bank := t.bank } ∧
      match s.cart.variant with
      | .plain => t.bank = s.bank
      | .v1 =>
        (a.toNat ≤ 0x1FFF → t.bank = { s.bank with ramEnable := gateAfter v s.bank.ramEnable }) ∧
        (0x2000 ≤ a.toNat → a.toNat ≤ 0x3FFF →
          t.bank = { s.bank with romBank := BitVec.ofNat 9 (if v.toNat % 32 = 0 then 1 else v.toNat % 32) }) ∧
        (0x4000 ≤ a.toNat → a.toNat ≤ 0x5FFF → s.bank.bankMode = false →
          t.bank = { s.bank with romHi := BitVec.ofNat 2 (v.toNat % 4) }) ∧
        (0x4000 ≤ a.toNat → a.toNat ≤ 0x5FFF → s.bank.bankMode = true →
          t.bank = { s.bank with ramBank := BitVec.ofNat 8 (v.toNat % 4) }) ∧
        (0x6000 ≤ a.toNat → v.toNat % 2 = 1 → t.bank = { s.bank with bankMode := true }) ∧
        (0x6000 ≤ a.toNat → v.toNat % 2 = 0 → t.bank = { s.bank with bankMode := false, ramBank := 0 })
      | .v2 =>
        (a.toNat ≤ 0x1FFF → a.toNat / 256 % 2 = 0 → t.bank = { s.bank with ramEnable := gateAfter v s.bank.ramEnable }) ∧
        (a.toNat ≤ 0x1FFF → a.toNat / 256 % 2 = 1 → t.bank = s.bank) ∧
        (0x2000 ≤ a.toNat → a.toNat ≤ 0x3FFF →
          t.bank = { s.bank with romBank := BitVec.ofNat 9 (if v.toNat % 16 = 0 then 1 else v.toNat % 16) }) ∧
        (0x4000 ≤ a.toNat → t.bank = s.bank)
      | .v3 =>
        (a.toNat ≤ 0x1FFF → t.bank = { s.bank with ramEnable := gateAfter v s.bank.ramEnable }) ∧
        (0x2000 ≤ a.toNat → a.toNat ≤ 0x3FFF →
          t.bank = { s.bank with romBank := BitVec.ofNat 9 (if v.toNat = 0 then 1 else v.toNat) }) ∧
        (0x4000 ≤ a.toNat → a.toNat ≤ 0x5FFF → t.bank = { s.bank with ramBank := v }) ∧
        (0x6000 ≤ a.toNat → t.bank = s.bank)
      | .v5 =>
        (a.toNat ≤ 0x1FFF → t.bank = { s.bank with ramEnable := gateAfter v s.bank.ramEnable }) ∧
        (0x2000 ≤ a.toNat → a.toNat ≤ 0x2FFF →
          t.bank = { s.bank with romBank := BitVec.ofNat 9 (s.bank.romBank.toNat / 256 * 256 + v.toNat) }) ∧
        (0x3000 ≤ a.toNat → a.toNat ≤ 0x3FFF →
          t.bank = { s.bank with romBank := BitVec.ofNat 9 (v.toNat % 2 * 256 + s.bank.romBank.toNat % 256) }) ∧
        (0x4000 ≤ a.toNat → a.toNat ≤ 0x5FFF → t.bank = { s.bank with ramBank := BitVec.ofNat 8 (v.toNat % 16) }) ∧
        (0x6000 ≤ a.toNat → t.bank = s.bank)

/-- External RAM on every variant. The gate of variants 1, 2 (where its address filter passes), 3 and 5: low nibble 0xA opens,
0x0 closes, any other value changes nothing. While it is closed, or with no RAM at all, reads give 0xFF and writes are
dropped. Open, on every variant but 2: the read is the byte of the selected bank modulo the bank count, and a byte written is
read back and changes that cell alone. Open on variant-2, whatever the RAM size: 512 entries of 4 bits mirrored every 0x200
bytes, read with the high nibble 0xF (R57, R59, R60, R62). The spec marks as its own, and this statement rests on: general
knowledge in R62; the decisions D17, D18, D21. -/
def Obligations.GatesExternalRam : Prop :=
  ∀ (s : State) (a : Word) (v : Byte),
    (s.cart.variant ≠ .plain → a.toNat ≤ 0x1FFF → (s.cart.variant = .v2 → a.toNat / 256 % 2 = 0) →
      ∃ t, memWrite a v s = .ok t ∧ t = { s with bank := { s.bank with ramEnable := t.bank.ramEnable } } ∧
        t.bank.ramEnable = gateAfter v s.bank.ramEnable) ∧
    (0xA000 ≤ a.toNat → a.toNat ≤ 0xBFFF →
      (((s.cart.variant ≠ .plain ∧ s.bank.ramEnable = false) ∨
        (s.cart.variant ≠ .v2 ∧ s.cart.ramBanks = 0 ∧ s.accessible a = true)) →
        memRead s a = .ok 0xFF ∧ memWrite a v s = .ok s) ∧
      (s.cart.variant ≠ .v2 → (s.cart.variant = .plain ∨ s.bank.ramEnable = true) → 0 < s.cart.ramBanks →
        s.accessible a = true →
        memRead s a = .ok (ramByte .ext s.ram.ext (extCell s a)) ∧
        ∃ t, memWrite a v s = .ok t ∧ memRead t a = .ok v ∧ t = { s with ram := { s.ram with ext := t.ram.ext } } ∧
          (∀ k, ramByte .ext t.ram.ext k = if k = extCell s a then v else ramByte .ext s.ram.ext k) ∧
          (∀ x, x ≠ a → memRead t x = memRead s x)) ∧
      (s.cart.variant = .v2 → s.bank.ramEnable = true →
        memRead s a = .ok (0xF0 ||| ramByte .mbc2 s.ram.mbc2 (a.toNat % 0x200)) ∧
        ∃ t, memWrite a v s = .ok t ∧ t = { s with ram := { s.ram with mbc2 := t.ram.mbc2 } } ∧
          (∀ x : Word, 0xA000 ≤ x.toNat → x.toNat ≤ 0xBFFF → x.toNat % 0x200 = a.toNat % 0x200 →
            memRead t x = .ok (0xF0 ||| (v &&& 0x0F))) ∧
          (∀ x : Word, (x.toNat < 0xA000 ∨ 0xBFFF < x.toNat ∨ x.toNat % 0x200 ≠ a.toNat % 0x200) →
            memRead t x = memRead s x)))

/-- Variant-3 with RAM enabled: a `ram_bank` above 3 refuses every access to 0xA000-0xBFFF, by an instruction too, and the
state it leaves is the old one with the mark set; 0 to 3 reaches RAM, whose byte reads back (R57, R63). The spec marks as its
own, and this statement rests on: general knowledge in R63; the decisions D17, D18, D22. -/
def Obligations.RefusesClockRegister : Prop :=
  ∀ (s : State) (a : Word) (v : Byte), s.cart.variant = .v3 → s.bank.ramEnable = true → 0xA000 ≤ a.toNat → a.toNat ≤ 0xBFFF →
    (3 < s.bank.ramBank.toNat →
      memRead s a = .error .rtcRegister ∧ memWrite a v s = .error .rtcRegister ∧
      exec (.ldAIndNn a) s = .refused .rtcRegister ∧ exec (.ldIndNnA a) s = .refused .rtcRegister ∧
      s.settle (exec (.ldAIndNn a) s) = { s with refused := true }) ∧
    (s.bank.ramBank.toNat ≤ 3 → 0 < s.cart.ramBanks →
      ∃ t, memWrite a v s = .ok t ∧ memRead t a = .ok v ∧ ∀ x, x ≠ a → memRead t x = memRead s x)

/-- The DMA copy: after a write of `v` to 0xFF46 the sprite table holds what the bus read at v * 256 + i, each of the 160
bytes, and nothing else but the register itself has changed (R47). For v = 0xFF and i = 0 the byte at 0xFF00 is the host's
answer, and that the copy's read gives what a read before the write gives is the model's choice, two draws of one step being
equal (log 3). The spec marks as its own, and this statement rests on: the decisions D12. -/
def Obligations.DmaCopies : Prop :=
  ∀ (s : State) (v : Byte), s.accessible (BitVec.ofNat 16 (v.toNat * 256)) = true →
    ∃ t, memWrite 0xFF46 v s = .ok t ∧ memRead t 0xFF46 = .ok v ∧
      (∀ i, i < 160 → v.toNat * 256 + i ≠ 0xFF46 →
        memRead t (BitVec.ofNat 16 (0xFE00 + i)) = memRead s (BitVec.ofNat 16 (v.toNat * 256 + i))) ∧
      (v = 0xFF → memRead t 0xFE46 = .ok v) ∧
      (∀ x, x ≠ 0xFF46 → (x.toNat < 0xFE00 ∨ 0xFE9F < x.toNat) → memRead t x = memRead s x) ∧
      t = { s with ram := { s.ram with io := t.ram.io, oam := t.ram.oam } }

/-- What each I/O address reads after a byte is written there, IE too: IF with bits 7:5 set, DIV always cleared, TAC with bits
7:3 set, LY cleared, the input register the host's answer to the two selection bits, every other the byte itself (10_state R24
to R26, R42 to R49). The spec marks as its own, and this statement rests on: general knowledge in R42, R48; the decisions D6,
D7, D8, D9, D10, D12, D30, D37, D45, D46, D51. -/
def Obligations.IoReadsBack : Prop :=
  ∀ (s : State) (a : Word) (v : Byte), ((0xFF00 ≤ a.toNat ∧ a.toNat ≤ 0xFF7F) ∨ a = 0xFFFF) → s.writable a v = true →
    ∃ t, memWrite a v s = .ok t ∧ memRead t a = .ok
      (if a = 0xFF00 then Config.inputRead s.draws (BitVec.ofNat 2 (v.toNat / 16))
        else if a = 0xFF04 ∨ a = 0xFF44 then 0x00
        else if a = 0xFF07 then 0xF8 ||| (v &&& 0x07)
        else if a = 0xFF0F then 0xE0 ||| (v &&& 0x1F)
        else v) ∧
      (a = 0xFF04 → t.timer.divSub = 0) ∧
      (a = 0xFF07 → t.timer.timaSub = if v.toNat % 4 = s.timer.tac.toNat % 4 then s.timer.timaSub else 0) ∧
      (a = 0xFF0F → t.irqFlags.toNat = v.toNat % 32)

/-- The boot overlay: while it is active reads of 0x0000-0x00FF give the boot image and writes go to the cartridge controller;
a nonzero byte to 0xFF50 ends it, a zero does not; when it is over the cartridge is read (R35, R37, R48). The spec marks as
its own, and this statement rests on: general knowledge in R48; the decisions D10, D11. -/
def Obligations.BootOverlay : Prop :=
  ∀ (s : State) (a : Word) (v : Byte),
    (∀ image, s.bootActive = true → s.cfg.bootRom = some image → a.toNat ≤ 0xFF →
      memRead s a = .ok (imageByte image a.toNat)) ∧
    (s.bootActive = false → a.toNat ≤ 0xFF → memRead s a = .ok (romByte s 0 a.toNat)) ∧
    (a.toNat ≤ 0xFF → ∃ t, memWrite a v s = .ok t ∧ t = { s with bank := t.bank } ∧
      (s.cart.variant = .v1 → v.toNat % 16 = 0xA → t.bank.ramEnable = true)) ∧
    (∃ t, memWrite 0xFF50 v s = .ok t ∧ memRead t 0xFF50 = .ok v ∧ (v ≠ 0 → t.bootActive = false) ∧
      (v = 0 → t.bootActive = s.bootActive))

/-! ## The whole machine -/

/-- EVERY STEP KEEPS THE INVARIANT: memory in canonical form at its sizes, the sub-counters below their periods, the EI delay
settled, the bank registers legal for the variant, and the overlay only with a boot image and a clear disable flag (R23, R27
to R31, R181). The spec marks as its own, and this statement rests on: general knowledge in R23; the decisions D10, D28, D32,
D36, D37. -/
def Obligations.StepKeepsInvariant : Prop :=
  ∀ s t : State, s.Inv → step s = .next t → t.Inv

/-- Reset leaves what R32 gives for the post-boot mode, and the invariant holds there. That the sound registers R32 names
stand at these addresses is presumed (log 13). That the two palettes OBP0 and OBP1 read 0x00 and that the image is the blank
one are the model's choices (log 2, log 4) and no part of this statement but through the invariant (R32, R204). The spec marks
as its own, and this statement rests on: general knowledge in R32, R204; the decisions D24, D41, D42, D43. -/
def Obligations.ResetState : Prop :=
  State.reset.Inv ∧ State.reset.af = 0x01B0 ∧ State.reset.bc = 0x0013 ∧ State.reset.de = 0x00D8 ∧
  State.reset.hl = 0x014D ∧ State.reset.regs.sp = 0xFFFE ∧ State.reset.pc = 0x0100 ∧ State.reset.mode = .running ∧
  State.reset.haltBug = false ∧ State.reset.fault = none ∧ State.reset.refused = false ∧ State.reset.ime = false ∧
  State.reset.eiDelay = 0 ∧ State.reset.irqFlags = 0x01 ∧ State.reset.irqEnable = 0x00 ∧
  State.reset.timer = { div := 0xAB, tima := 0x00, tma := 0x00, tac := 0, divSub := 0, timaSub := 0 } ∧
  State.reset.bootActive = false ∧ State.reset.joypSel = 0 ∧
  State.reset.bank = { ramEnable := false, romBank := 1, romHi := 0, ramBank := 0, bankMode := false } ∧
  (∀ cell ∈ ([(0xFF01, 0x00), (0xFF02, 0x7E), (0xFF04, 0xAB), (0xFF05, 0x00), (0xFF06, 0x00), (0xFF07, 0xF8), (0xFF0F, 0xE1),
      (0xFF40, 0x91), (0xFF41, 0x85), (0xFF42, 0x00), (0xFF43, 0x00), (0xFF44, 0x00), (0xFF45, 0x00), (0xFF46, 0xFF),
      (0xFF47, 0xFC), (0xFF4A, 0x00), (0xFF4B, 0x00), (0xFF50, 0x01), (0xFFFF, 0x00)] : List (Word × Byte)),
    memRead State.reset cell.1 = .ok cell.2) ∧
  (∀ cell ∈ ([(0xFF10, 0x80), (0xFF11, 0xBF), (0xFF12, 0xF3), (0xFF13, 0xFF), (0xFF14, 0xBF), (0xFF16, 0x3F), (0xFF17, 0x00),
      (0xFF18, 0xFF), (0xFF19, 0xBF), (0xFF1A, 0x7F), (0xFF1B, 0xFF), (0xFF1C, 0x9F), (0xFF1D, 0xFF), (0xFF1E, 0xBF),
      (0xFF20, 0xFF), (0xFF21, 0x00), (0xFF22, 0x00), (0xFF23, 0xBF), (0xFF24, 0x77), (0xFF25, 0xF3),
      (0xFF26, 0xF1)] : List (Word × Byte)),
    memRead State.reset cell.1 = .ok cell.2)

/-- Loading any image that R50 to R54 accept, with or without a boot image, gives a machine in its reset mode that meets the
invariant; an image under 0x150 bytes gives none; and the host's moves between steps keep the invariant (R50, R202, R204). The
spec marks as its own, and this statement rests on: general knowledge in R51, R52, R53, R54, R204; the decisions D13, D14,
D15, D16, D24, D41, D42, D45, D52. -/
def Obligations.HostKeepsInvariant : Prop :=
  (∀ (image : List Byte) (boot : Option (Vector Byte 256)) (cycles : Nat) (flags : SpOffsetFlags),
    (image.length < 0x150 → load image boot cycles flags = .error .unreadable) ∧
    (∀ s, load image boot cycles flags = .ok s →
      s.Inv ∧ s.pc = (if boot.isSome then 0x0000 else 0x0100) ∧ s.bootActive = boot.isSome ∧ s.mode = .running ∧
      s.ime = false ∧ s.irqEnable = 0x00 ∧ s.fault = none ∧ s.refused = false ∧
      s.cfg.intDispatchCycles = cycles ∧ s.cfg.spOffsetFlags = flags)) ∧
  (∀ (s : State) (move : HostMove), s.Inv → (hostMove move s).Inv)

/-- No step changes the cartridge image, its bank counts, its variant or a parameter; a completed step leaves no fault and no
refusal; the boot overlay never returns; and only STOP enters Stopped, which no step leaves (R8, R30, R48, R58, R201). The
spec marks as its own, and this statement rests on: general knowledge in R48; the decisions D5, D10, D27, D33, D39, D42, D48,
D52. -/
def Obligations.StepConstants : Prop :=
  ∀ s t : State, step s = .next t →
    t.cart = s.cart ∧ t.cfg = s.cfg ∧ t.fault = none ∧ t.refused = false ∧ t.draws = s.draws + 1 ∧
    (s.bootActive = false → t.bootActive = false) ∧
    (s.mode = .stopped → t.mode = .stopped ∧ t.pc = s.pc ∧ t.regs = s.regs) ∧
    (t.mode = .stopped → s.mode = .stopped ∨ ∃ n, fetchInstr (bootCheck s) = .ok (.stop n))
end

