-- ==== Sys2Proof/Laws/Memory.lean ====
section
/-! SUPPORT. The laws of a byte array in canonical form: a read after a write, and that every memory operation keeps the form. -/

namespace Sys2Proof.Machine

/-! ## Read after write -/

theorem cellRead_insert_same (m : Mem) (i : Nat) (v : Byte) : cellRead (cellInsert m i v) i = some v := by
  induction m with
  | nil => simp [cellInsert, cellRead]
  | cons cell rest ih =>
    obtain ⟨j, w⟩ := cell
    simp only [cellInsert]
    split
    · simp [cellRead]
    · split
      · simp [cellRead]
      · simp only [cellRead]
        simp_all

theorem cellRead_insert_other (m : Mem) (i k : Nat) (v : Byte) (h : k ≠ i) :
    cellRead (cellInsert m i v) k = cellRead m k := by
  induction m with
  | nil => simp [cellInsert, cellRead, h]
  | cons cell rest ih =>
    obtain ⟨j, w⟩ := cell
    simp only [cellInsert]
    split
    next hij =>
      subst hij
      simp only [cellRead, h, if_false]
    next hij =>
      split
      next hlt =>
        simp only [cellRead, h, if_false]
        by_cases hk : k < i
        · simp [hk, show k ≠ j by omega, show k < j by omega]
        · simp [hk]
      next hlt => simp only [cellRead, ih]

@[simp] theorem ramStore_eq (m : Mem) (i : Nat) (v : Byte) : ramStore m i v = cellInsert m i v := by
  simp [ramStore, cellWrite, ramUnlisted]

@[simp] theorem ramByte_insert_same (array : RamArray) (m : Mem) (i : Nat) (v : Byte) :
    ramByte array (cellInsert m i v) i = v := by
  simp [ramByte, cellRead_insert_same]

theorem ramByte_insert_other (array : RamArray) (m : Mem) (i k : Nat) (v : Byte) (h : k ≠ i) :
    ramByte array (cellInsert m i v) k = ramByte array m k := by
  simp [ramByte, cellRead_insert_other m i k v h]

/-! ## The canonical form -/

/-- Every index of the list is at least `low`. -/
def Mem.from (low : Nat) (m : Mem) : Prop := ∀ cell ∈ m, low ≤ cell.1

theorem rising_cons {i : Nat} {v : Byte} {m : Mem} :
    Mem.rising ((i, v) :: m) = true ↔ Mem.from (i + 1) m ∧ Mem.rising m = true := by
  induction m generalizing i v with
  | nil => simp [Mem.rising, Mem.from]
  | cons cell rest ih =>
    obtain ⟨j, w⟩ := cell
    rw [Mem.rising, Bool.and_eq_true, decide_eq_true_iff]
    constructor
    · rintro ⟨hij, hr⟩
      refine ⟨?_, hr⟩
      intro c hc
      rcases List.mem_cons.mp hc with rfl | hc
      · simpa using hij
      · have := (ih.mp hr).1 c hc
        omega
    · rintro ⟨hf, hr⟩
      have := hf (j, w) (by simp)
      exact ⟨by simpa using this, hr⟩

theorem mem_cellInsert {m : Mem} {i : Nat} {v : Byte} {c : Host.Cell} (h : c ∈ cellInsert m i v) : c = (i, v) ∨ c ∈ m := by
  induction m with
  | nil => simp only [cellInsert, List.mem_singleton] at h; exact .inl h
  | cons cell rest ih =>
    obtain ⟨j, w⟩ := cell
    simp only [cellInsert] at h
    split at h
    · rcases List.mem_cons.mp h with h | h
      · exact .inl h
      · exact .inr (by simp [h])
    · split at h
      · rcases List.mem_cons.mp h with h | h
        · exact .inl h
        · exact .inr h
      · rcases List.mem_cons.mp h with h | h
        · exact .inr (by simp [h])
        · rcases ih h with h | h
          · exact .inl h
          · exact .inr (by simp [h])

theorem rising_cellInsert (m : Mem) (i : Nat) (v : Byte) (h : Mem.rising m = true) :
    Mem.rising (cellInsert m i v) = true := by
  induction m with
  | nil => rfl
  | cons cell rest ih =>
    obtain ⟨j, w⟩ := cell
    have hc := rising_cons.mp h
    simp only [cellInsert]
    split
    next hij => subst hij; exact rising_cons.mpr hc
    next hij =>
      split
      next hlt =>
        refine rising_cons.mpr ⟨?_, h⟩
        intro c hm
        rcases List.mem_cons.mp hm with rfl | hm
        · simp; omega
        · have := hc.1 c hm; omega
      next hlt =>
        refine rising_cons.mpr ⟨?_, ih hc.2⟩
        intro c hm
        rcases mem_cellInsert hm with rfl | hm
        · simp; omega
        · exact hc.1 c hm

theorem wf_iff {unlisted : Option Byte} {size : Nat} {m : Mem} :
    Mem.wf unlisted size m = true ↔ Mem.rising m = true ∧ ∀ c ∈ m, c.1 < size ∧ some c.2 ≠ unlisted := by
  simp [Mem.wf, List.all_eq_true]

/-- A write of a cell inside the array keeps the canonical form of a RAM array. -/
theorem wf_cellInsert {size : Nat} {m : Mem} (i : Nat) (v : Byte) (h : Mem.wf ramUnlisted size m = true) (hi : i < size) :
    Mem.wf ramUnlisted size (cellInsert m i v) = true := by
  rw [wf_iff] at h ⊢
  refine ⟨rising_cellInsert m i v h.1, ?_⟩
  intro c hc
  rcases mem_cellInsert hc with rfl | hc
  · exact ⟨hi, by simp [ramUnlisted]⟩
  · exact h.2 c hc

theorem mem_cellErase {m : Mem} {i : Nat} {c : Host.Cell} (h : c ∈ cellErase m i) : c ∈ m := by
  induction m with
  | nil => simp [cellErase] at h
  | cons cell rest ih =>
    obtain ⟨j, w⟩ := cell
    simp only [cellErase] at h
    split at h
    · simp [h]
    · split at h
      · exact h
      · rcases List.mem_cons.mp h with h | h
        · simp [h]
        · simp [ih h]

theorem rising_cellErase (m : Mem) (i : Nat) (h : Mem.rising m = true) : Mem.rising (cellErase m i) = true := by
  induction m with
  | nil => rfl
  | cons cell rest ih =>
    obtain ⟨j, w⟩ := cell
    have hc := rising_cons.mp h
    simp only [cellErase]
    split
    · exact hc.2
    · split
      · exact h
      · exact rising_cons.mpr ⟨fun c hm => hc.1 c (mem_cellErase hm), ih hc.2⟩

/-- Setting a cell of an image keeps its canonical form, the byte 0x00 not listed. -/
theorem wf_imageStore {size : Nat} {m : Mem} (i : Nat) (v : Byte) (h : Mem.wf imageUnlisted size m = true) (hi : i < size) :
    Mem.wf imageUnlisted size (imageStore m i v) = true := by
  rw [wf_iff] at h ⊢
  simp only [imageStore, cellWrite]
  split
  · exact ⟨rising_cellErase m i h.1, fun c hc => h.2 c (mem_cellErase hc)⟩
  next hv =>
    refine ⟨rising_cellInsert m i v h.1, ?_⟩
    intro c hc
    rcases mem_cellInsert hc with rfl | hc
    · exact ⟨hi, hv⟩
    · exact h.2 c hc

/-- The cells of an image begin at the index it is laid out from. -/
theorem imageCells_from (bytes : List Byte) (i : Nat) : ∀ c ∈ imageCells bytes i, i ≤ c.1 ∧ c.1 < i + bytes.length ∧ c.2 ≠ 0x00 := by
  induction bytes generalizing i with
  | nil => simp [imageCells]
  | cons v rest ih =>
    intro c hc
    simp only [imageCells] at hc
    split at hc
    · have := ih (i + 1) c hc
      simp only [List.length_cons]
      exact ⟨by omega, by omega, this.2.2⟩
    next hv =>
      rcases List.mem_cons.mp hc with rfl | hc
      · simp only [List.length_cons]
        exact ⟨by omega, by omega, hv⟩
      · have := ih (i + 1) c hc
        simp only [List.length_cons]
        exact ⟨by omega, by omega, this.2.2⟩

theorem imageCells_rising (bytes : List Byte) (i : Nat) : Mem.rising (imageCells bytes i) = true := by
  induction bytes generalizing i with
  | nil => rfl
  | cons v rest ih =>
    simp only [imageCells]
    split
    · exact ih (i + 1)
    · exact rising_cons.mpr ⟨fun c hc => (imageCells_from rest (i + 1) c hc).1, ih (i + 1)⟩

/-- An image given as bytes is laid out in canonical form. -/
theorem imageCells_wf (bytes : List Byte) : Mem.wf imageUnlisted bytes.length (imageCells bytes 0) = true := by
  rw [wf_iff]
  refine ⟨imageCells_rising bytes 0, ?_⟩
  intro c hc
  have := imageCells_from bytes 0 c hc
  refine ⟨by omega, ?_⟩
  simp only [imageUnlisted]
  intro h
  exact this.2.2 (Option.some.inj h)

end Sys2Proof.Machine
end

