-- ==== Sys2Proof/Laws/State.lean ====
section
/-! SUPPORT. The small lemmas of the state's updates: one per field per update, true by unfolding, so that no later proof unfolds
a record update; and the laws of the register file. -/

namespace Sys2Proof.Machine

/-! ## The updates of the register file and PC -/

@[simp] theorem setReg_pc (s : State) (r : Reg8) (v : Byte) : (s.setReg r v).pc = s.pc := rfl
@[simp] theorem setReg_mode (s : State) (r : Reg8) (v : Byte) : (s.setReg r v).mode = s.mode := rfl
@[simp] theorem setReg_haltBug (s : State) (r : Reg8) (v : Byte) : (s.setReg r v).haltBug = s.haltBug := rfl
@[simp] theorem setReg_fault (s : State) (r : Reg8) (v : Byte) : (s.setReg r v).fault = s.fault := rfl
@[simp] theorem setReg_refused (s : State) (r : Reg8) (v : Byte) : (s.setReg r v).refused = s.refused := rfl
@[simp] theorem setReg_ime (s : State) (r : Reg8) (v : Byte) : (s.setReg r v).ime = s.ime := rfl
@[simp] theorem setReg_eiDelay (s : State) (r : Reg8) (v : Byte) : (s.setReg r v).eiDelay = s.eiDelay := rfl
@[simp] theorem setReg_irqFlags (s : State) (r : Reg8) (v : Byte) : (s.setReg r v).irqFlags = s.irqFlags := rfl
@[simp] theorem setReg_irqEnable (s : State) (r : Reg8) (v : Byte) : (s.setReg r v).irqEnable = s.irqEnable := rfl
@[simp] theorem setReg_timer (s : State) (r : Reg8) (v : Byte) : (s.setReg r v).timer = s.timer := rfl
@[simp] theorem setReg_ram (s : State) (r : Reg8) (v : Byte) : (s.setReg r v).ram = s.ram := rfl
@[simp] theorem setReg_joypSel (s : State) (r : Reg8) (v : Byte) : (s.setReg r v).joypSel = s.joypSel := rfl
@[simp] theorem setReg_bootActive (s : State) (r : Reg8) (v : Byte) : (s.setReg r v).bootActive = s.bootActive := rfl
@[simp] theorem setReg_cart (s : State) (r : Reg8) (v : Byte) : (s.setReg r v).cart = s.cart := rfl
@[simp] theorem setReg_bank (s : State) (r : Reg8) (v : Byte) : (s.setReg r v).bank = s.bank := rfl
@[simp] theorem setReg_lastCycles (s : State) (r : Reg8) (v : Byte) : (s.setReg r v).lastCycles = s.lastCycles := rfl
@[simp] theorem setReg_outputs (s : State) (r : Reg8) (v : Byte) : (s.setReg r v).outputs = s.outputs := rfl
@[simp] theorem setReg_cfg (s : State) (r : Reg8) (v : Byte) : (s.setReg r v).cfg = s.cfg := rfl
@[simp] theorem setReg_draws (s : State) (r : Reg8) (v : Byte) : (s.setReg r v).draws = s.draws := rfl

@[simp] theorem setBc_pc (s : State) (v : Word) : (s.setBc v).pc = s.pc := rfl
@[simp] theorem setBc_mode (s : State) (v : Word) : (s.setBc v).mode = s.mode := rfl
@[simp] theorem setBc_haltBug (s : State) (v : Word) : (s.setBc v).haltBug = s.haltBug := rfl
@[simp] theorem setBc_fault (s : State) (v : Word) : (s.setBc v).fault = s.fault := rfl
@[simp] theorem setBc_refused (s : State) (v : Word) : (s.setBc v).refused = s.refused := rfl
@[simp] theorem setBc_ime (s : State) (v : Word) : (s.setBc v).ime = s.ime := rfl
@[simp] theorem setBc_eiDelay (s : State) (v : Word) : (s.setBc v).eiDelay = s.eiDelay := rfl
@[simp] theorem setBc_irqFlags (s : State) (v : Word) : (s.setBc v).irqFlags = s.irqFlags := rfl
@[simp] theorem setBc_irqEnable (s : State) (v : Word) : (s.setBc v).irqEnable = s.irqEnable := rfl
@[simp] theorem setBc_timer (s : State) (v : Word) : (s.setBc v).timer = s.timer := rfl
@[simp] theorem setBc_ram (s : State) (v : Word) : (s.setBc v).ram = s.ram := rfl
@[simp] theorem setBc_joypSel (s : State) (v : Word) : (s.setBc v).joypSel = s.joypSel := rfl
@[simp] theorem setBc_bootActive (s : State) (v : Word) : (s.setBc v).bootActive = s.bootActive := rfl
@[simp] theorem setBc_cart (s : State) (v : Word) : (s.setBc v).cart = s.cart := rfl
@[simp] theorem setBc_bank (s : State) (v : Word) : (s.setBc v).bank = s.bank := rfl
@[simp] theorem setBc_lastCycles (s : State) (v : Word) : (s.setBc v).lastCycles = s.lastCycles := rfl
@[simp] theorem setBc_outputs (s : State) (v : Word) : (s.setBc v).outputs = s.outputs := rfl
@[simp] theorem setBc_cfg (s : State) (v : Word) : (s.setBc v).cfg = s.cfg := rfl
@[simp] theorem setBc_draws (s : State) (v : Word) : (s.setBc v).draws = s.draws := rfl

@[simp] theorem setDe_pc (s : State) (v : Word) : (s.setDe v).pc = s.pc := rfl
@[simp] theorem setDe_mode (s : State) (v : Word) : (s.setDe v).mode = s.mode := rfl
@[simp] theorem setDe_haltBug (s : State) (v : Word) : (s.setDe v).haltBug = s.haltBug := rfl
@[simp] theorem setDe_fault (s : State) (v : Word) : (s.setDe v).fault = s.fault := rfl
@[simp] theorem setDe_refused (s : State) (v : Word) : (s.setDe v).refused = s.refused := rfl
@[simp] theorem setDe_ime (s : State) (v : Word) : (s.setDe v).ime = s.ime := rfl
@[simp] theorem setDe_eiDelay (s : State) (v : Word) : (s.setDe v).eiDelay = s.eiDelay := rfl
@[simp] theorem setDe_irqFlags (s : State) (v : Word) : (s.setDe v).irqFlags = s.irqFlags := rfl
@[simp] theorem setDe_irqEnable (s : State) (v : Word) : (s.setDe v).irqEnable = s.irqEnable := rfl
@[simp] theorem setDe_timer (s : State) (v : Word) : (s.setDe v).timer = s.timer := rfl
@[simp] theorem setDe_ram (s : State) (v : Word) : (s.setDe v).ram = s.ram := rfl
@[simp] theorem setDe_joypSel (s : State) (v : Word) : (s.setDe v).joypSel = s.joypSel := rfl
@[simp] theorem setDe_bootActive (s : State) (v : Word) : (s.setDe v).bootActive = s.bootActive := rfl
@[simp] theorem setDe_cart (s : State) (v : Word) : (s.setDe v).cart = s.cart := rfl
@[simp] theorem setDe_bank (s : State) (v : Word) : (s.setDe v).bank = s.bank := rfl
@[simp] theorem setDe_lastCycles (s : State) (v : Word) : (s.setDe v).lastCycles = s.lastCycles := rfl
@[simp] theorem setDe_outputs (s : State) (v : Word) : (s.setDe v).outputs = s.outputs := rfl
@[simp] theorem setDe_cfg (s : State) (v : Word) : (s.setDe v).cfg = s.cfg := rfl
@[simp] theorem setDe_draws (s : State) (v : Word) : (s.setDe v).draws = s.draws := rfl

@[simp] theorem setHl_pc (s : State) (v : Word) : (s.setHl v).pc = s.pc := rfl
@[simp] theorem setHl_mode (s : State) (v : Word) : (s.setHl v).mode = s.mode := rfl
@[simp] theorem setHl_haltBug (s : State) (v : Word) : (s.setHl v).haltBug = s.haltBug := rfl
@[simp] theorem setHl_fault (s : State) (v : Word) : (s.setHl v).fault = s.fault := rfl
@[simp] theorem setHl_refused (s : State) (v : Word) : (s.setHl v).refused = s.refused := rfl
@[simp] theorem setHl_ime (s : State) (v : Word) : (s.setHl v).ime = s.ime := rfl
@[simp] theorem setHl_eiDelay (s : State) (v : Word) : (s.setHl v).eiDelay = s.eiDelay := rfl
@[simp] theorem setHl_irqFlags (s : State) (v : Word) : (s.setHl v).irqFlags = s.irqFlags := rfl
@[simp] theorem setHl_irqEnable (s : State) (v : Word) : (s.setHl v).irqEnable = s.irqEnable := rfl
@[simp] theorem setHl_timer (s : State) (v : Word) : (s.setHl v).timer = s.timer := rfl
@[simp] theorem setHl_ram (s : State) (v : Word) : (s.setHl v).ram = s.ram := rfl
@[simp] theorem setHl_joypSel (s : State) (v : Word) : (s.setHl v).joypSel = s.joypSel := rfl
@[simp] theorem setHl_bootActive (s : State) (v : Word) : (s.setHl v).bootActive = s.bootActive := rfl
@[simp] theorem setHl_cart (s : State) (v : Word) : (s.setHl v).cart = s.cart := rfl
@[simp] theorem setHl_bank (s : State) (v : Word) : (s.setHl v).bank = s.bank := rfl
@[simp] theorem setHl_lastCycles (s : State) (v : Word) : (s.setHl v).lastCycles = s.lastCycles := rfl
@[simp] theorem setHl_outputs (s : State) (v : Word) : (s.setHl v).outputs = s.outputs := rfl
@[simp] theorem setHl_cfg (s : State) (v : Word) : (s.setHl v).cfg = s.cfg := rfl
@[simp] theorem setHl_draws (s : State) (v : Word) : (s.setHl v).draws = s.draws := rfl

@[simp] theorem setAf_pc (s : State) (v : Word) : (s.setAf v).pc = s.pc := rfl
@[simp] theorem setAf_mode (s : State) (v : Word) : (s.setAf v).mode = s.mode := rfl
@[simp] theorem setAf_haltBug (s : State) (v : Word) : (s.setAf v).haltBug = s.haltBug := rfl
@[simp] theorem setAf_fault (s : State) (v : Word) : (s.setAf v).fault = s.fault := rfl
@[simp] theorem setAf_refused (s : State) (v : Word) : (s.setAf v).refused = s.refused := rfl
@[simp] theorem setAf_ime (s : State) (v : Word) : (s.setAf v).ime = s.ime := rfl
@[simp] theorem setAf_eiDelay (s : State) (v : Word) : (s.setAf v).eiDelay = s.eiDelay := rfl
@[simp] theorem setAf_irqFlags (s : State) (v : Word) : (s.setAf v).irqFlags = s.irqFlags := rfl
@[simp] theorem setAf_irqEnable (s : State) (v : Word) : (s.setAf v).irqEnable = s.irqEnable := rfl
@[simp] theorem setAf_timer (s : State) (v : Word) : (s.setAf v).timer = s.timer := rfl
@[simp] theorem setAf_ram (s : State) (v : Word) : (s.setAf v).ram = s.ram := rfl
@[simp] theorem setAf_joypSel (s : State) (v : Word) : (s.setAf v).joypSel = s.joypSel := rfl
@[simp] theorem setAf_bootActive (s : State) (v : Word) : (s.setAf v).bootActive = s.bootActive := rfl
@[simp] theorem setAf_cart (s : State) (v : Word) : (s.setAf v).cart = s.cart := rfl
@[simp] theorem setAf_bank (s : State) (v : Word) : (s.setAf v).bank = s.bank := rfl
@[simp] theorem setAf_lastCycles (s : State) (v : Word) : (s.setAf v).lastCycles = s.lastCycles := rfl
@[simp] theorem setAf_outputs (s : State) (v : Word) : (s.setAf v).outputs = s.outputs := rfl
@[simp] theorem setAf_cfg (s : State) (v : Word) : (s.setAf v).cfg = s.cfg := rfl
@[simp] theorem setAf_draws (s : State) (v : Word) : (s.setAf v).draws = s.draws := rfl

@[simp] theorem setSp_pc (s : State) (v : Word) : (s.setSp v).pc = s.pc := rfl
@[simp] theorem setSp_mode (s : State) (v : Word) : (s.setSp v).mode = s.mode := rfl
@[simp] theorem setSp_haltBug (s : State) (v : Word) : (s.setSp v).haltBug = s.haltBug := rfl
@[simp] theorem setSp_fault (s : State) (v : Word) : (s.setSp v).fault = s.fault := rfl
@[simp] theorem setSp_refused (s : State) (v : Word) : (s.setSp v).refused = s.refused := rfl
@[simp] theorem setSp_ime (s : State) (v : Word) : (s.setSp v).ime = s.ime := rfl
@[simp] theorem setSp_eiDelay (s : State) (v : Word) : (s.setSp v).eiDelay = s.eiDelay := rfl
@[simp] theorem setSp_irqFlags (s : State) (v : Word) : (s.setSp v).irqFlags = s.irqFlags := rfl
@[simp] theorem setSp_irqEnable (s : State) (v : Word) : (s.setSp v).irqEnable = s.irqEnable := rfl
@[simp] theorem setSp_timer (s : State) (v : Word) : (s.setSp v).timer = s.timer := rfl
@[simp] theorem setSp_ram (s : State) (v : Word) : (s.setSp v).ram = s.ram := rfl
@[simp] theorem setSp_joypSel (s : State) (v : Word) : (s.setSp v).joypSel = s.joypSel := rfl
@[simp] theorem setSp_bootActive (s : State) (v : Word) : (s.setSp v).bootActive = s.bootActive := rfl
@[simp] theorem setSp_cart (s : State) (v : Word) : (s.setSp v).cart = s.cart := rfl
@[simp] theorem setSp_bank (s : State) (v : Word) : (s.setSp v).bank = s.bank := rfl
@[simp] theorem setSp_lastCycles (s : State) (v : Word) : (s.setSp v).lastCycles = s.lastCycles := rfl
@[simp] theorem setSp_outputs (s : State) (v : Word) : (s.setSp v).outputs = s.outputs := rfl
@[simp] theorem setSp_cfg (s : State) (v : Word) : (s.setSp v).cfg = s.cfg := rfl
@[simp] theorem setSp_draws (s : State) (v : Word) : (s.setSp v).draws = s.draws := rfl

@[simp] theorem setFlags_pc (s : State) (f : Flags) : (s.setFlags f).pc = s.pc := rfl
@[simp] theorem setFlags_mode (s : State) (f : Flags) : (s.setFlags f).mode = s.mode := rfl
@[simp] theorem setFlags_haltBug (s : State) (f : Flags) : (s.setFlags f).haltBug = s.haltBug := rfl
@[simp] theorem setFlags_fault (s : State) (f : Flags) : (s.setFlags f).fault = s.fault := rfl
@[simp] theorem setFlags_refused (s : State) (f : Flags) : (s.setFlags f).refused = s.refused := rfl
@[simp] theorem setFlags_ime (s : State) (f : Flags) : (s.setFlags f).ime = s.ime := rfl
@[simp] theorem setFlags_eiDelay (s : State) (f : Flags) : (s.setFlags f).eiDelay = s.eiDelay := rfl
@[simp] theorem setFlags_irqFlags (s : State) (f : Flags) : (s.setFlags f).irqFlags = s.irqFlags := rfl
@[simp] theorem setFlags_irqEnable (s : State) (f : Flags) : (s.setFlags f).irqEnable = s.irqEnable := rfl
@[simp] theorem setFlags_timer (s : State) (f : Flags) : (s.setFlags f).timer = s.timer := rfl
@[simp] theorem setFlags_ram (s : State) (f : Flags) : (s.setFlags f).ram = s.ram := rfl
@[simp] theorem setFlags_joypSel (s : State) (f : Flags) : (s.setFlags f).joypSel = s.joypSel := rfl
@[simp] theorem setFlags_bootActive (s : State) (f : Flags) : (s.setFlags f).bootActive = s.bootActive := rfl
@[simp] theorem setFlags_cart (s : State) (f : Flags) : (s.setFlags f).cart = s.cart := rfl
@[simp] theorem setFlags_bank (s : State) (f : Flags) : (s.setFlags f).bank = s.bank := rfl
@[simp] theorem setFlags_lastCycles (s : State) (f : Flags) : (s.setFlags f).lastCycles = s.lastCycles := rfl
@[simp] theorem setFlags_outputs (s : State) (f : Flags) : (s.setFlags f).outputs = s.outputs := rfl
@[simp] theorem setFlags_cfg (s : State) (f : Flags) : (s.setFlags f).cfg = s.cfg := rfl
@[simp] theorem setFlags_draws (s : State) (f : Flags) : (s.setFlags f).draws = s.draws := rfl

@[simp] theorem setRp_pc (s : State) (rr : Rp) (v : Word) : (s.setRp rr v).pc = s.pc := by cases rr <;> rfl
@[simp] theorem setRp_mode (s : State) (rr : Rp) (v : Word) : (s.setRp rr v).mode = s.mode := by cases rr <;> rfl
@[simp] theorem setRp_haltBug (s : State) (rr : Rp) (v : Word) : (s.setRp rr v).haltBug = s.haltBug := by cases rr <;> rfl
@[simp] theorem setRp_fault (s : State) (rr : Rp) (v : Word) : (s.setRp rr v).fault = s.fault := by cases rr <;> rfl
@[simp] theorem setRp_refused (s : State) (rr : Rp) (v : Word) : (s.setRp rr v).refused = s.refused := by cases rr <;> rfl
@[simp] theorem setRp_ime (s : State) (rr : Rp) (v : Word) : (s.setRp rr v).ime = s.ime := by cases rr <;> rfl
@[simp] theorem setRp_eiDelay (s : State) (rr : Rp) (v : Word) : (s.setRp rr v).eiDelay = s.eiDelay := by cases rr <;> rfl
@[simp] theorem setRp_irqFlags (s : State) (rr : Rp) (v : Word) : (s.setRp rr v).irqFlags = s.irqFlags := by cases rr <;> rfl
@[simp] theorem setRp_irqEnable (s : State) (rr : Rp) (v : Word) : (s.setRp rr v).irqEnable = s.irqEnable := by cases rr <;> rfl
@[simp] theorem setRp_timer (s : State) (rr : Rp) (v : Word) : (s.setRp rr v).timer = s.timer := by cases rr <;> rfl
@[simp] theorem setRp_ram (s : State) (rr : Rp) (v : Word) : (s.setRp rr v).ram = s.ram := by cases rr <;> rfl
@[simp] theorem setRp_joypSel (s : State) (rr : Rp) (v : Word) : (s.setRp rr v).joypSel = s.joypSel := by cases rr <;> rfl
@[simp] theorem setRp_bootActive (s : State) (rr : Rp) (v : Word) : (s.setRp rr v).bootActive = s.bootActive := by cases rr <;> rfl
@[simp] theorem setRp_cart (s : State) (rr : Rp) (v : Word) : (s.setRp rr v).cart = s.cart := by cases rr <;> rfl
@[simp] theorem setRp_bank (s : State) (rr : Rp) (v : Word) : (s.setRp rr v).bank = s.bank := by cases rr <;> rfl
@[simp] theorem setRp_lastCycles (s : State) (rr : Rp) (v : Word) : (s.setRp rr v).lastCycles = s.lastCycles := by cases rr <;> rfl
@[simp] theorem setRp_outputs (s : State) (rr : Rp) (v : Word) : (s.setRp rr v).outputs = s.outputs := by cases rr <;> rfl
@[simp] theorem setRp_cfg (s : State) (rr : Rp) (v : Word) : (s.setRp rr v).cfg = s.cfg := by cases rr <;> rfl
@[simp] theorem setRp_draws (s : State) (rr : Rp) (v : Word) : (s.setRp rr v).draws = s.draws := by cases rr <;> rfl

@[simp] theorem setRp2_pc (s : State) (rr : Rp2) (v : Word) : (s.setRp2 rr v).pc = s.pc := by cases rr <;> rfl
@[simp] theorem setRp2_mode (s : State) (rr : Rp2) (v : Word) : (s.setRp2 rr v).mode = s.mode := by cases rr <;> rfl
@[simp] theorem setRp2_haltBug (s : State) (rr : Rp2) (v : Word) : (s.setRp2 rr v).haltBug = s.haltBug := by cases rr <;> rfl
@[simp] theorem setRp2_fault (s : State) (rr : Rp2) (v : Word) : (s.setRp2 rr v).fault = s.fault := by cases rr <;> rfl
@[simp] theorem setRp2_refused (s : State) (rr : Rp2) (v : Word) : (s.setRp2 rr v).refused = s.refused := by cases rr <;> rfl
@[simp] theorem setRp2_ime (s : State) (rr : Rp2) (v : Word) : (s.setRp2 rr v).ime = s.ime := by cases rr <;> rfl
@[simp] theorem setRp2_eiDelay (s : State) (rr : Rp2) (v : Word) : (s.setRp2 rr v).eiDelay = s.eiDelay := by cases rr <;> rfl
@[simp] theorem setRp2_irqFlags (s : State) (rr : Rp2) (v : Word) : (s.setRp2 rr v).irqFlags = s.irqFlags := by cases rr <;> rfl
@[simp] theorem setRp2_irqEnable (s : State) (rr : Rp2) (v : Word) : (s.setRp2 rr v).irqEnable = s.irqEnable := by cases rr <;> rfl
@[simp] theorem setRp2_timer (s : State) (rr : Rp2) (v : Word) : (s.setRp2 rr v).timer = s.timer := by cases rr <;> rfl
@[simp] theorem setRp2_ram (s : State) (rr : Rp2) (v : Word) : (s.setRp2 rr v).ram = s.ram := by cases rr <;> rfl
@[simp] theorem setRp2_joypSel (s : State) (rr : Rp2) (v : Word) : (s.setRp2 rr v).joypSel = s.joypSel := by cases rr <;> rfl
@[simp] theorem setRp2_bootActive (s : State) (rr : Rp2) (v : Word) : (s.setRp2 rr v).bootActive = s.bootActive := by cases rr <;> rfl
@[simp] theorem setRp2_cart (s : State) (rr : Rp2) (v : Word) : (s.setRp2 rr v).cart = s.cart := by cases rr <;> rfl
@[simp] theorem setRp2_bank (s : State) (rr : Rp2) (v : Word) : (s.setRp2 rr v).bank = s.bank := by cases rr <;> rfl
@[simp] theorem setRp2_lastCycles (s : State) (rr : Rp2) (v : Word) : (s.setRp2 rr v).lastCycles = s.lastCycles := by cases rr <;> rfl
@[simp] theorem setRp2_outputs (s : State) (rr : Rp2) (v : Word) : (s.setRp2 rr v).outputs = s.outputs := by cases rr <;> rfl
@[simp] theorem setRp2_cfg (s : State) (rr : Rp2) (v : Word) : (s.setRp2 rr v).cfg = s.cfg := by cases rr <;> rfl
@[simp] theorem setRp2_draws (s : State) (rr : Rp2) (v : Word) : (s.setRp2 rr v).draws = s.draws := by cases rr <;> rfl

@[simp] theorem setPc_regs (s : State) (v : Word) : (s.setPc v).regs = s.regs := rfl
@[simp] theorem setPc_pc (s : State) (v : Word) : (s.setPc v).pc = v := rfl
@[simp] theorem setPc_mode (s : State) (v : Word) : (s.setPc v).mode = s.mode := rfl
@[simp] theorem setPc_haltBug (s : State) (v : Word) : (s.setPc v).haltBug = s.haltBug := rfl
@[simp] theorem setPc_fault (s : State) (v : Word) : (s.setPc v).fault = s.fault := rfl
@[simp] theorem setPc_refused (s : State) (v : Word) : (s.setPc v).refused = s.refused := rfl
@[simp] theorem setPc_ime (s : State) (v : Word) : (s.setPc v).ime = s.ime := rfl
@[simp] theorem setPc_eiDelay (s : State) (v : Word) : (s.setPc v).eiDelay = s.eiDelay := rfl
@[simp] theorem setPc_irqFlags (s : State) (v : Word) : (s.setPc v).irqFlags = s.irqFlags := rfl
@[simp] theorem setPc_irqEnable (s : State) (v : Word) : (s.setPc v).irqEnable = s.irqEnable := rfl
@[simp] theorem setPc_timer (s : State) (v : Word) : (s.setPc v).timer = s.timer := rfl
@[simp] theorem setPc_ram (s : State) (v : Word) : (s.setPc v).ram = s.ram := rfl
@[simp] theorem setPc_joypSel (s : State) (v : Word) : (s.setPc v).joypSel = s.joypSel := rfl
@[simp] theorem setPc_bootActive (s : State) (v : Word) : (s.setPc v).bootActive = s.bootActive := rfl
@[simp] theorem setPc_cart (s : State) (v : Word) : (s.setPc v).cart = s.cart := rfl
@[simp] theorem setPc_bank (s : State) (v : Word) : (s.setPc v).bank = s.bank := rfl
@[simp] theorem setPc_lastCycles (s : State) (v : Word) : (s.setPc v).lastCycles = s.lastCycles := rfl
@[simp] theorem setPc_outputs (s : State) (v : Word) : (s.setPc v).outputs = s.outputs := rfl
@[simp] theorem setPc_cfg (s : State) (v : Word) : (s.setPc v).cfg = s.cfg := rfl
@[simp] theorem setPc_draws (s : State) (v : Word) : (s.setPc v).draws = s.draws := rfl

@[simp] theorem fetched_regs (s : State) (length cycles : Nat) : (s.fetched length cycles).regs = s.regs := rfl
@[simp] theorem fetched_pc (s : State) (length cycles : Nat) : (s.fetched length cycles).pc = s.afterInstr length := rfl
@[simp] theorem fetched_mode (s : State) (length cycles : Nat) : (s.fetched length cycles).mode = s.mode := rfl
@[simp] theorem fetched_haltBug (s : State) (length cycles : Nat) : (s.fetched length cycles).haltBug = false := rfl
@[simp] theorem fetched_fault (s : State) (length cycles : Nat) : (s.fetched length cycles).fault = s.fault := rfl
@[simp] theorem fetched_refused (s : State) (length cycles : Nat) : (s.fetched length cycles).refused = s.refused := rfl
@[simp] theorem fetched_ime (s : State) (length cycles : Nat) : (s.fetched length cycles).ime = s.ime := rfl
@[simp] theorem fetched_eiDelay (s : State) (length cycles : Nat) : (s.fetched length cycles).eiDelay = s.eiDelay := rfl
@[simp] theorem fetched_irqFlags (s : State) (length cycles : Nat) : (s.fetched length cycles).irqFlags = s.irqFlags := rfl
@[simp] theorem fetched_irqEnable (s : State) (length cycles : Nat) : (s.fetched length cycles).irqEnable = s.irqEnable := rfl
@[simp] theorem fetched_timer (s : State) (length cycles : Nat) : (s.fetched length cycles).timer = s.timer := rfl
@[simp] theorem fetched_ram (s : State) (length cycles : Nat) : (s.fetched length cycles).ram = s.ram := rfl
@[simp] theorem fetched_joypSel (s : State) (length cycles : Nat) : (s.fetched length cycles).joypSel = s.joypSel := rfl
@[simp] theorem fetched_bootActive (s : State) (length cycles : Nat) : (s.fetched length cycles).bootActive = s.bootActive := rfl
@[simp] theorem fetched_cart (s : State) (length cycles : Nat) : (s.fetched length cycles).cart = s.cart := rfl
@[simp] theorem fetched_bank (s : State) (length cycles : Nat) : (s.fetched length cycles).bank = s.bank := rfl
@[simp] theorem fetched_lastCycles (s : State) (length cycles : Nat) : (s.fetched length cycles).lastCycles = cycles := rfl
@[simp] theorem fetched_outputs (s : State) (length cycles : Nat) : (s.fetched length cycles).outputs = s.outputs := rfl
@[simp] theorem fetched_cfg (s : State) (length cycles : Nat) : (s.fetched length cycles).cfg = s.cfg := rfl
@[simp] theorem fetched_draws (s : State) (length cycles : Nat) : (s.fetched length cycles).draws = s.draws := rfl

/-! ## The updates of the bus -/

@[simp] theorem setIoCell_regs (s : State) (offset : Nat) (v : Byte) : (setIoCell offset v s).regs = s.regs := rfl
@[simp] theorem setIoCell_pc (s : State) (offset : Nat) (v : Byte) : (setIoCell offset v s).pc = s.pc := rfl
@[simp] theorem setIoCell_mode (s : State) (offset : Nat) (v : Byte) : (setIoCell offset v s).mode = s.mode := rfl
@[simp] theorem setIoCell_haltBug (s : State) (offset : Nat) (v : Byte) : (setIoCell offset v s).haltBug = s.haltBug := rfl
@[simp] theorem setIoCell_fault (s : State) (offset : Nat) (v : Byte) : (setIoCell offset v s).fault = s.fault := rfl
@[simp] theorem setIoCell_refused (s : State) (offset : Nat) (v : Byte) : (setIoCell offset v s).refused = s.refused := rfl
@[simp] theorem setIoCell_ime (s : State) (offset : Nat) (v : Byte) : (setIoCell offset v s).ime = s.ime := rfl
@[simp] theorem setIoCell_eiDelay (s : State) (offset : Nat) (v : Byte) : (setIoCell offset v s).eiDelay = s.eiDelay := rfl
@[simp] theorem setIoCell_irqFlags (s : State) (offset : Nat) (v : Byte) : (setIoCell offset v s).irqFlags = s.irqFlags := rfl
@[simp] theorem setIoCell_irqEnable (s : State) (offset : Nat) (v : Byte) : (setIoCell offset v s).irqEnable = s.irqEnable := rfl
@[simp] theorem setIoCell_timer (s : State) (offset : Nat) (v : Byte) : (setIoCell offset v s).timer = s.timer := rfl
@[simp] theorem setIoCell_joypSel (s : State) (offset : Nat) (v : Byte) : (setIoCell offset v s).joypSel = s.joypSel := rfl
@[simp] theorem setIoCell_bootActive (s : State) (offset : Nat) (v : Byte) : (setIoCell offset v s).bootActive = s.bootActive := rfl
@[simp] theorem setIoCell_cart (s : State) (offset : Nat) (v : Byte) : (setIoCell offset v s).cart = s.cart := rfl
@[simp] theorem setIoCell_bank (s : State) (offset : Nat) (v : Byte) : (setIoCell offset v s).bank = s.bank := rfl
@[simp] theorem setIoCell_lastCycles (s : State) (offset : Nat) (v : Byte) : (setIoCell offset v s).lastCycles = s.lastCycles := rfl
@[simp] theorem setIoCell_outputs (s : State) (offset : Nat) (v : Byte) : (setIoCell offset v s).outputs = s.outputs := rfl
@[simp] theorem setIoCell_cfg (s : State) (offset : Nat) (v : Byte) : (setIoCell offset v s).cfg = s.cfg := rfl
@[simp] theorem setIoCell_draws (s : State) (offset : Nat) (v : Byte) : (setIoCell offset v s).draws = s.draws := rfl

@[simp] theorem setOam_regs (s : State) (offset : Nat) (v : Byte) : (setOam offset v s).regs = s.regs := rfl
@[simp] theorem setOam_pc (s : State) (offset : Nat) (v : Byte) : (setOam offset v s).pc = s.pc := rfl
@[simp] theorem setOam_mode (s : State) (offset : Nat) (v : Byte) : (setOam offset v s).mode = s.mode := rfl
@[simp] theorem setOam_haltBug (s : State) (offset : Nat) (v : Byte) : (setOam offset v s).haltBug = s.haltBug := rfl
@[simp] theorem setOam_fault (s : State) (offset : Nat) (v : Byte) : (setOam offset v s).fault = s.fault := rfl
@[simp] theorem setOam_refused (s : State) (offset : Nat) (v : Byte) : (setOam offset v s).refused = s.refused := rfl
@[simp] theorem setOam_ime (s : State) (offset : Nat) (v : Byte) : (setOam offset v s).ime = s.ime := rfl
@[simp] theorem setOam_eiDelay (s : State) (offset : Nat) (v : Byte) : (setOam offset v s).eiDelay = s.eiDelay := rfl
@[simp] theorem setOam_irqFlags (s : State) (offset : Nat) (v : Byte) : (setOam offset v s).irqFlags = s.irqFlags := rfl
@[simp] theorem setOam_irqEnable (s : State) (offset : Nat) (v : Byte) : (setOam offset v s).irqEnable = s.irqEnable := rfl
@[simp] theorem setOam_timer (s : State) (offset : Nat) (v : Byte) : (setOam offset v s).timer = s.timer := rfl
@[simp] theorem setOam_joypSel (s : State) (offset : Nat) (v : Byte) : (setOam offset v s).joypSel = s.joypSel := rfl
@[simp] theorem setOam_bootActive (s : State) (offset : Nat) (v : Byte) : (setOam offset v s).bootActive = s.bootActive := rfl
@[simp] theorem setOam_cart (s : State) (offset : Nat) (v : Byte) : (setOam offset v s).cart = s.cart := rfl
@[simp] theorem setOam_bank (s : State) (offset : Nat) (v : Byte) : (setOam offset v s).bank = s.bank := rfl
@[simp] theorem setOam_lastCycles (s : State) (offset : Nat) (v : Byte) : (setOam offset v s).lastCycles = s.lastCycles := rfl
@[simp] theorem setOam_outputs (s : State) (offset : Nat) (v : Byte) : (setOam offset v s).outputs = s.outputs := rfl
@[simp] theorem setOam_cfg (s : State) (offset : Nat) (v : Byte) : (setOam offset v s).cfg = s.cfg := rfl
@[simp] theorem setOam_draws (s : State) (offset : Nat) (v : Byte) : (setOam offset v s).draws = s.draws := rfl

@[simp] theorem requestInterrupt_regs (s : State) (i : Nat) : (s.requestInterrupt i).regs = s.regs := rfl
@[simp] theorem requestInterrupt_pc (s : State) (i : Nat) : (s.requestInterrupt i).pc = s.pc := rfl
@[simp] theorem requestInterrupt_mode (s : State) (i : Nat) : (s.requestInterrupt i).mode = s.mode := rfl
@[simp] theorem requestInterrupt_haltBug (s : State) (i : Nat) : (s.requestInterrupt i).haltBug = s.haltBug := rfl
@[simp] theorem requestInterrupt_fault (s : State) (i : Nat) : (s.requestInterrupt i).fault = s.fault := rfl
@[simp] theorem requestInterrupt_refused (s : State) (i : Nat) : (s.requestInterrupt i).refused = s.refused := rfl
@[simp] theorem requestInterrupt_ime (s : State) (i : Nat) : (s.requestInterrupt i).ime = s.ime := rfl
@[simp] theorem requestInterrupt_eiDelay (s : State) (i : Nat) : (s.requestInterrupt i).eiDelay = s.eiDelay := rfl
@[simp] theorem requestInterrupt_irqFlags (s : State) (i : Nat) : (s.requestInterrupt i).irqFlags = s.irqFlags ||| (1#5 <<< i) := rfl
@[simp] theorem requestInterrupt_irqEnable (s : State) (i : Nat) : (s.requestInterrupt i).irqEnable = s.irqEnable := rfl
@[simp] theorem requestInterrupt_timer (s : State) (i : Nat) : (s.requestInterrupt i).timer = s.timer := rfl
@[simp] theorem requestInterrupt_ram (s : State) (i : Nat) : (s.requestInterrupt i).ram = s.ram := rfl
@[simp] theorem requestInterrupt_joypSel (s : State) (i : Nat) : (s.requestInterrupt i).joypSel = s.joypSel := rfl
@[simp] theorem requestInterrupt_bootActive (s : State) (i : Nat) : (s.requestInterrupt i).bootActive = s.bootActive := rfl
@[simp] theorem requestInterrupt_cart (s : State) (i : Nat) : (s.requestInterrupt i).cart = s.cart := rfl
@[simp] theorem requestInterrupt_bank (s : State) (i : Nat) : (s.requestInterrupt i).bank = s.bank := rfl
@[simp] theorem requestInterrupt_lastCycles (s : State) (i : Nat) : (s.requestInterrupt i).lastCycles = s.lastCycles := rfl
@[simp] theorem requestInterrupt_outputs (s : State) (i : Nat) : (s.requestInterrupt i).outputs = s.outputs := rfl
@[simp] theorem requestInterrupt_cfg (s : State) (i : Nat) : (s.requestInterrupt i).cfg = s.cfg := rfl
@[simp] theorem requestInterrupt_draws (s : State) (i : Nat) : (s.requestInterrupt i).draws = s.draws := rfl

@[simp] theorem bootCheck_regs (s : State) : (bootCheck s).regs = s.regs := rfl
@[simp] theorem bootCheck_pc (s : State) : (bootCheck s).pc = s.pc := rfl
@[simp] theorem bootCheck_mode (s : State) : (bootCheck s).mode = s.mode := rfl
@[simp] theorem bootCheck_haltBug (s : State) : (bootCheck s).haltBug = s.haltBug := rfl
@[simp] theorem bootCheck_fault (s : State) : (bootCheck s).fault = s.fault := rfl
@[simp] theorem bootCheck_refused (s : State) : (bootCheck s).refused = s.refused := rfl
@[simp] theorem bootCheck_ime (s : State) : (bootCheck s).ime = s.ime := rfl
@[simp] theorem bootCheck_eiDelay (s : State) : (bootCheck s).eiDelay = s.eiDelay := rfl
@[simp] theorem bootCheck_irqFlags (s : State) : (bootCheck s).irqFlags = s.irqFlags := rfl
@[simp] theorem bootCheck_irqEnable (s : State) : (bootCheck s).irqEnable = s.irqEnable := rfl
@[simp] theorem bootCheck_timer (s : State) : (bootCheck s).timer = s.timer := rfl
@[simp] theorem bootCheck_ram (s : State) : (bootCheck s).ram = s.ram := rfl
@[simp] theorem bootCheck_joypSel (s : State) : (bootCheck s).joypSel = s.joypSel := rfl
@[simp] theorem bootCheck_bootActive (s : State) : (bootCheck s).bootActive = (s.bootActive && ioCell s 0x50 == 0) := rfl
@[simp] theorem bootCheck_cart (s : State) : (bootCheck s).cart = s.cart := rfl
@[simp] theorem bootCheck_bank (s : State) : (bootCheck s).bank = s.bank := rfl
@[simp] theorem bootCheck_lastCycles (s : State) : (bootCheck s).lastCycles = s.lastCycles := rfl
@[simp] theorem bootCheck_outputs (s : State) : (bootCheck s).outputs = s.outputs := rfl
@[simp] theorem bootCheck_cfg (s : State) : (bootCheck s).cfg = s.cfg := rfl
@[simp] theorem bootCheck_draws (s : State) : (bootCheck s).draws = s.draws := rfl

@[simp] theorem idle_regs (s : State) : (idle s).regs = s.regs := rfl
@[simp] theorem idle_pc (s : State) : (idle s).pc = s.pc := rfl
@[simp] theorem idle_mode (s : State) : (idle s).mode = s.mode := rfl
@[simp] theorem idle_haltBug (s : State) : (idle s).haltBug = s.haltBug := rfl
@[simp] theorem idle_fault (s : State) : (idle s).fault = s.fault := rfl
@[simp] theorem idle_refused (s : State) : (idle s).refused = s.refused := rfl
@[simp] theorem idle_ime (s : State) : (idle s).ime = s.ime := rfl
@[simp] theorem idle_eiDelay (s : State) : (idle s).eiDelay = s.eiDelay := rfl
@[simp] theorem idle_irqFlags (s : State) : (idle s).irqFlags = s.irqFlags := rfl
@[simp] theorem idle_irqEnable (s : State) : (idle s).irqEnable = s.irqEnable := rfl
@[simp] theorem idle_timer (s : State) : (idle s).timer = s.timer := rfl
@[simp] theorem idle_ram (s : State) : (idle s).ram = s.ram := rfl
@[simp] theorem idle_joypSel (s : State) : (idle s).joypSel = s.joypSel := rfl
@[simp] theorem idle_bootActive (s : State) : (idle s).bootActive = s.bootActive := rfl
@[simp] theorem idle_cart (s : State) : (idle s).cart = s.cart := rfl
@[simp] theorem idle_bank (s : State) : (idle s).bank = s.bank := rfl
@[simp] theorem idle_lastCycles (s : State) : (idle s).lastCycles = 4 := rfl
@[simp] theorem idle_outputs (s : State) : (idle s).outputs = s.outputs := rfl
@[simp] theorem idle_cfg (s : State) : (idle s).cfg = s.cfg := rfl
@[simp] theorem idle_draws (s : State) : (idle s).draws = s.draws := rfl

/-! ## The register file -/

@[simp] theorem regs_get_set_same (g : Regs) (r : Reg8) (v : Byte) : (g.set r v).get r = v := by cases r <;> rfl

theorem regs_get_set_other (g : Regs) (r q : Reg8) (v : Byte) (h : q ≠ r) : (g.set r v).get q = g.get q := by
  cases r <;> cases q <;> first | rfl | exact absurd rfl h

@[simp] theorem regs_set_f (g : Regs) (r : Reg8) (v : Byte) : (g.set r v).f = g.f := by cases r <;> rfl

@[simp] theorem regs_set_sp (g : Regs) (r : Reg8) (v : Byte) : (g.set r v).sp = g.sp := by cases r <;> rfl

@[simp] theorem setReg_regs (s : State) (r : Reg8) (v : Byte) : (s.setReg r v).regs = s.regs.set r v := rfl

@[simp] theorem setFlags_f (s : State) (f : Flags) : (s.setFlags f).regs.f = f := rfl

@[simp] theorem setFlags_sp (s : State) (f : Flags) : (s.setFlags f).regs.sp = s.regs.sp := rfl

@[simp] theorem setSp_sp (s : State) (v : Word) : (s.setSp v).regs.sp = v := rfl

@[simp] theorem setSp_f (s : State) (v : Word) : (s.setSp v).regs.f = s.regs.f := rfl

@[simp] theorem reg_setReg_same (s : State) (r : Reg8) (v : Byte) : (s.setReg r v).reg r = v := by cases r <;> rfl

theorem reg_setReg_other (s : State) (r q : Reg8) (v : Byte) (h : q ≠ r) : (s.setReg r v).reg q = s.reg q :=
  regs_get_set_other s.regs r q v h

@[simp] theorem reg_setFlags (s : State) (q : Reg8) (f : Flags) : (s.setFlags f).reg q = s.reg q := by cases q <;> rfl

@[simp] theorem reg_setSp (s : State) (q : Reg8) (v : Word) : (s.setSp v).reg q = s.reg q := by cases q <;> rfl

@[simp] theorem reg_setPc (s : State) (q : Reg8) (v : Word) : (s.setPc v).reg q = s.reg q := rfl

@[simp] theorem reg_fetched (s : State) (q : Reg8) (length cycles : Nat) : (s.fetched length cycles).reg q = s.reg q := rfl

@[simp] theorem hl_fetched (s : State) (length cycles : Nat) : (s.fetched length cycles).hl = s.hl := rfl

@[simp] theorem bc_fetched (s : State) (length cycles : Nat) : (s.fetched length cycles).bc = s.bc := rfl

@[simp] theorem de_fetched (s : State) (length cycles : Nat) : (s.fetched length cycles).de = s.de := rfl

@[simp] theorem pending_fetched (s : State) (length cycles : Nat) : (s.fetched length cycles).pending = s.pending := rfl

@[simp] theorem hl_setFlags (s : State) (f : Flags) : (s.setFlags f).hl = s.hl := rfl

/-! ## The halves of a word -/

@[simp] theorem wordOf_hi_lo (v : Word) : wordOf (hiByte v) (loByte v) = v := by
  apply BitVec.eq_of_getLsbD_eq
  intro i hi
  simp only [wordOf, hiByte, loByte, BitVec.getLsbD_append, BitVec.getLsbD_extractLsb']
  by_cases h : i < 8
  · simp [h]
  · have h2 : i - 8 < 8 := by omega
    simp [h, h2, show 8 + (i - 8) = i by omega]

@[simp] theorem hiByte_wordOf (hi lo : Byte) : hiByte (wordOf hi lo) = hi := by
  apply BitVec.eq_of_getLsbD_eq
  intro i hi'
  simp only [wordOf, hiByte, BitVec.getLsbD_extractLsb', BitVec.getLsbD_append]
  simp [hi', show ¬ 8 + i < 8 by omega]

@[simp] theorem loByte_wordOf (hi lo : Byte) : loByte (wordOf hi lo) = lo := by
  apply BitVec.eq_of_getLsbD_eq
  intro i hi'
  simp only [wordOf, loByte, BitVec.getLsbD_extractLsb', BitVec.getLsbD_append]
  simp [hi']

@[simp] theorem hl_setHl (s : State) (v : Word) : (s.setHl v).hl = v := wordOf_hi_lo v

@[simp] theorem bc_setBc (s : State) (v : Word) : (s.setBc v).bc = v := wordOf_hi_lo v

@[simp] theorem de_setDe (s : State) (v : Word) : (s.setDe v).de = v := wordOf_hi_lo v

@[simp] theorem rp_setRp_same (s : State) (rr : Rp) (v : Word) : (s.setRp rr v).rp rr = v := by
  cases rr
  · exact bc_setBc s v
  · exact de_setDe s v
  · exact hl_setHl s v
  · rfl

/-- F reads back what a wholesale write keeps: bits 3:0 are dropped (R14, R15). -/
theorem flags_toByte_ofByte (v : Byte) : (Flags.ofByte v).toByte = v &&& 0xF0 := by
  revert v
  decide

@[simp] theorem flags_ofByte_toByte (f : Flags) : Flags.ofByte f.toByte = f := by
  obtain ⟨z, n, h, c⟩ := f
  cases z <;> cases n <;> cases h <;> cases c <;> rfl

end Sys2Proof.Machine
end

