-- ==== Sys2Proof/Laws/Bus.lean ====
section
/-! SUPPORT. The laws of the bus: the regions, when an access is given a meaning, what a write changes, which reads it may
change, and that it keeps the canonical form. -/

namespace Sys2Proof.Machine

/-! ## Sequencing accesses -/

@[simp] theorem except_bind_ok {ε α β : Type} (a : α) (f : α → Except ε β) : (Except.ok a).bind f = f a := rfl

@[simp] theorem except_bind_error {ε α β : Type} (e : ε) (f : α → Except ε β) :
    (Except.error e : Except ε α).bind f = .error e := rfl

@[simp] theorem except_map_ok {ε α β : Type} (a : α) (f : α → β) : (Except.ok a : Except ε α).map f = .ok (f a) := rfl

@[simp] theorem except_map_error {ε α β : Type} (e : ε) (f : α → β) :
    (Except.error e : Except ε α).map f = .error e := rfl

theorem except_bind_eq_ok {ε α β : Type} {r : Except ε α} {f : α → Except ε β} {b : β} :
    r.bind f = .ok b ↔ ∃ a, r = .ok a ∧ f a = .ok b := by
  cases r <;> simp

theorem except_map_eq_ok {ε α β : Type} {r : Except ε α} {f : α → β} {b : β} :
    r.map f = .ok b ↔ ∃ a, r = .ok a ∧ f a = b := by
  cases r <;> simp

theorem except_bind_eq_error {ε α β : Type} {r : Except ε α} {f : α → Except ε β} {e : ε} :
    r.bind f = .error e ↔ r = .error e ∨ ∃ a, r = .ok a ∧ f a = .error e := by
  cases r <;> simp

theorem except_map_eq_error {ε α β : Type} {r : Except ε α} {f : α → β} {e : ε} :
    r.map f = .error e ↔ r = .error e := by
  cases r <;> simp

@[simp] theorem answer_ok (s : State) : answer (.ok s) = .next s := rfl

@[simp] theorem answer_error (r : Refusal) : answer (.error r) = .refused r := rfl

theorem answer_eq_next {r : Except Refusal State} {t : State} : answer r = .next t ↔ r = .ok t := by
  cases r <;> simp [answer]

theorem answer_eq_refused {r : Except Refusal State} {e : Refusal} : answer r = .refused e ↔ r = .error e := by
  cases r <;> simp [answer]

theorem answer_ne_fault {r : Except Refusal State} {f : Fault} : answer r ≠ .fault f := by
  cases r <;> simp [answer]

/-! ## The regions -/

/-- The region of every address, with the range it stands for and the offset in it (R34). -/
theorem regionOf_spec (a : Word) :
    match regionOf a with
    | .romFixed off => a.toNat ≤ 0x3FFF ∧ off = a.toNat
    | .romBanked off => 0x4000 ≤ a.toNat ∧ a.toNat ≤ 0x7FFF ∧ off + 0x4000 = a.toNat
    | .vram off => 0x8000 ≤ a.toNat ∧ a.toNat ≤ 0x9FFF ∧ off + 0x8000 = a.toNat
    | .extRam off => 0xA000 ≤ a.toNat ∧ a.toNat ≤ 0xBFFF ∧ off + 0xA000 = a.toNat
    | .wram off => 0xC000 ≤ a.toNat ∧ a.toNat ≤ 0xDFFF ∧ off + 0xC000 = a.toNat
    | .echo off => 0xE000 ≤ a.toNat ∧ a.toNat ≤ 0xFDFF ∧ off + 0xE000 = a.toNat
    | .oam off => 0xFE00 ≤ a.toNat ∧ a.toNat ≤ 0xFE9F ∧ off + 0xFE00 = a.toNat
    | .unusable => 0xFEA0 ≤ a.toNat ∧ a.toNat ≤ 0xFEFF
    | .io off => 0xFF00 ≤ a.toNat ∧ a.toNat ≤ 0xFF7F ∧ off + 0xFF00 = a.toNat
    | .hram off => 0xFF80 ≤ a.toNat ∧ a.toNat ≤ 0xFFFE ∧ off + 0xFF80 = a.toNat
    | .irqEnable => a.toNat = 0xFFFF := by
  have h := a.isLt
  unfold regionOf
  simp only
  split_ifs <;> dsimp only <;> first | exact ⟨‹_›, rfl⟩ | omega

theorem eq_iff_toNat {a b : Word} : a = b ↔ a.toNat = b.toNat := by
  rw [← BitVec.toNat_inj]

@[simp] theorem toNat_ff46 : (0xFF46 : Word).toNat = 0xFF46 := rfl

@[simp] theorem toNat_ff50 : (0xFF50 : Word).toNat = 0xFF50 := rfl

/-! ## Reads -/

/-- A read depends on its own region's storage, and on nothing else. -/
theorem memRead_congr {s t : State} (x : Word)
    (hboot : t.bootActive = s.bootActive ∨ 0xFF < x.toNat) (hcfg : t.cfg = s.cfg) (hcart : t.cart = s.cart)
    (hdraws : t.draws = s.draws)
    (hbank : ∀ off, regionOf x = .romBanked off → t.bank = s.bank)
    (hvram : ∀ off, regionOf x = .vram off → ramByte .vram t.ram.vram off = ramByte .vram s.ram.vram off)
    (hext : ∀ off, regionOf x = .extRam off → extRamRead t off = extRamRead s off)
    (hwram : ∀ off, regionOf x = .wram off ∨ regionOf x = .echo off →
      ramByte .wram t.ram.wram off = ramByte .wram s.ram.wram off)
    (hoam : ∀ off, regionOf x = .oam off → ramByte .oam t.ram.oam off = ramByte .oam s.ram.oam off)
    (hio : ∀ off, regionOf x = .io off → ioRead t off = ioRead s off)
    (hhram : ∀ off, regionOf x = .hram off → ramByte .hram t.ram.hram off = ramByte .hram s.ram.hram off)
    (hie : regionOf x = .irqEnable → t.irqEnable = s.irqEnable) :
    memRead t x = memRead s x := by
  have hb : bootByte t x = bootByte s x := by
    unfold bootByte
    rw [hcfg]
    rcases hboot with h | h
    · rw [h]
    · have : ¬ x.toNat ≤ 0xFF := by omega
      cases t.bootActive <;> cases s.bootActive <;> cases s.cfg.bootRom <;> simp [this]
  have hr : regionRead t x = regionRead s x := by
    unfold regionRead
    cases h : regionOf x with
    | romFixed off => simp [romByte, hcart]
    | romBanked off => simp [romByte, hcart, hbank off h]
    | vram off => simp [hvram off h]
    | extRam off => simp [hext off h]
    | wram off => simp [hwram off (.inl h)]
    | echo off => simp [hwram off (.inr h)]
    | oam off => simp [hoam off h]
    | unusable => simp [hdraws]
    | io off => simp [hio off h]
    | hram off => simp [hhram off h]
    | irqEnable => simp [hie h]
  simp [memRead, hb, hr]

/-- What the bus reads from is untouched: every address reads as before. -/
theorem sameReads_of_fields {s t : State} (hboot : t.bootActive = s.bootActive) (hcfg : t.cfg = s.cfg)
    (hcart : t.cart = s.cart) (hdraws : t.draws = s.draws) (hbank : t.bank = s.bank) (hram : t.ram = s.ram)
    (hjoyp : t.joypSel = s.joypSel) (htimer : t.timer = s.timer) (hif : t.irqFlags = s.irqFlags)
    (hie : t.irqEnable = s.irqEnable) : SameReads s t := by
  intro x
  refine memRead_congr x (.inl hboot) hcfg hcart hdraws (fun _ _ => hbank) ?_ ?_ ?_ ?_ ?_ ?_ (fun _ => hie)
  · intros; rw [hram]
  · intros; rw [extRamRead, extRamRead, rtcSelected, rtcSelected, extRamClosed, extRamClosed, extRamIndex, extRamIndex, hram,
      hcart, hbank]
  · intros; rw [hram]
  · intros; rw [hram]
  · intros; unfold ioRead; simp only [hdraws, hjoyp, htimer, hif, ioCell, hram]
  · intros; rw [hram]

/-- A register-only change leaves every read as it was. -/
theorem RegistersOnly.sameReads {s t : State} (h : RegistersOnly s t) : SameReads s t := by
  unfold RegistersOnly at h
  rw [h]
  exact sameReads_of_fields rfl rfl rfl rfl rfl rfl rfl rfl rfl rfl

@[simp] theorem memRead_fetched (s : State) (length cycles : Nat) (x : Word) :
    memRead (s.fetched length cycles) x = memRead s x := rfl

@[simp] theorem memRead_setSp (s : State) (v x : Word) : memRead (s.setSp v) x = memRead s x := rfl

@[simp] theorem memRead_setFlags (s : State) (f : Flags) (x : Word) : memRead (s.setFlags f) x = memRead s x := rfl

@[simp] theorem memRead_setPc (s : State) (v x : Word) : memRead (s.setPc v) x = memRead s x := rfl

@[simp] theorem memRead_setReg (s : State) (r : Reg8) (v : Byte) (x : Word) : memRead (s.setReg r v) x = memRead s x := rfl

theorem extRamRead_error {s : State} {off : Nat} {r : Refusal} (h : extRamRead s off = .error r) :
    r = .rtcRegister ∧ rtcSelected s = true := by
  unfold extRamRead at h
  split_ifs at h with h1 h2
  cases h
  exact ⟨rfl, h2⟩

theorem extRamRead_ok {s : State} (off : Nat) (h : rtcSelected s = false) : ∃ v, extRamRead s off = .ok v := by
  unfold extRamRead
  rw [h]
  split_ifs
  all_goals first | exact ⟨_, rfl⟩ | contradiction

/-- A read is refused only for the clock register (R63). -/
theorem memRead_error {s : State} {a : Word} {r : Refusal} (h : memRead s a = .error r) :
    r = .rtcRegister ∧ s.accessible a = false := by
  unfold memRead at h
  split at h
  · cases h
  next hb =>
    have hs := regionOf_spec a
    unfold regionRead at h
    cases e : regionOf a <;> rw [e] at h hs <;> simp only [reduceCtorEq] at h
    have := extRamRead_error h
    exact ⟨this.1, by simp [State.accessible, this.2, hs.1, hs.2.1]⟩

/-- An accessible address reads some byte (R35, R63). -/
theorem memRead_ok {s : State} {a : Word} (h : s.accessible a = true) : ∃ v, memRead s a = .ok v := by
  cases hr : memRead s a with
  | ok v => exact ⟨v, rfl⟩
  | error r =>
    have := (memRead_error hr).2
    rw [h] at this
    cases this

theorem not_rtc_of_accessible {s : State} {a : Word} (h : s.accessible a = true) (h1 : 0xA000 ≤ a.toNat)
    (h2 : a.toNat ≤ 0xBFFF) : rtcSelected s = false := by
  simp only [State.accessible, Bool.not_eq_true', Bool.and_eq_false_iff, decide_eq_false_iff_not] at h
  rcases h with (h | h) | h
  · exact h
  · omega
  · omega

theorem bootByte_high {s : State} {a : Word} (h : 0xFF < a.toNat) : bootByte s a = none := by
  unfold bootByte
  have : ¬ a.toNat ≤ 0xFF := by omega
  cases s.bootActive <;> cases s.cfg.bootRom <;> simp [this]

/-! ## The DMA copy -/

/-- The DMA copy writes cells of the sprite table below its count, and nothing else (R47). -/
theorem dmaCopy_spec {source : Word} {n : Nat} {s t : State} (h : dmaCopy source n s = .ok t) :
    t = { s with ram := { s.ram with oam := t.ram.oam } } ∧
    (∀ k, n ≤ k → ramByte .oam t.ram.oam k = ramByte .oam s.ram.oam k) ∧
    (n ≤ 0xA0 → Mem.wf ramUnlisted 0xA0 s.ram.oam = true → Mem.wf ramUnlisted 0xA0 t.ram.oam = true) := by
  induction n generalizing t with
  | zero =>
    simp only [dmaCopy, Except.ok.injEq] at h
    subst h
    exact ⟨rfl, fun _ _ => rfl, fun _ h => h⟩
  | succ i ih =>
    simp only [dmaCopy, except_bind_eq_ok, except_map_eq_ok] at h
    obtain ⟨u, hu, v, _, rfl⟩ := h
    obtain ⟨h1, h2, h3⟩ := ih hu
    refine ⟨?_, ?_, ?_⟩
    · rw [h1]; rfl
    · intro k hk
      rw [← h2 k (by omega)]
      simp only [setOam, ramStore_eq]
      exact ramByte_insert_other _ _ _ _ _ (by omega)
    · intro hn hwf
      simp only [setOam, ramStore_eq]
      exact wf_cellInsert _ _ (h3 (by omega) hwf) (by omega)

theorem accessible_of_fields {s t : State} (hcart : t.cart = s.cart) (hbank : t.bank = s.bank) (a : Word) :
    t.accessible a = s.accessible a := by
  simp [State.accessible, rtcSelected, hcart, hbank]

/-- The addresses of a DMA source page lie together in the external RAM window or outside it (R47). -/
theorem dma_source_accessible {s : State} {v : Byte} {i : Nat} (hi : i < 160) (h : s.accessible (wordOf v 0x00) = true) :
    s.accessible (wordOf v 0x00 + BitVec.ofNat 16 i) = true := by
  have hv := v.isLt
  have h0 : (wordOf v 0x00).toNat = v.toNat * 256 := by
    simp only [wordOf, BitVec.toNat_append, BitVec.ofNat_eq_ofNat, BitVec.toNat_ofNat, Nat.shiftLeft_eq]
    simp
  have h1 : (wordOf v 0x00 + BitVec.ofNat 16 i).toNat = v.toNat * 256 + i := by
    rw [BitVec.toNat_add, h0, BitVec.toNat_ofNat]
    omega
  simp only [State.accessible, Bool.not_eq_true', Bool.and_eq_false_iff, decide_eq_false_iff_not, Nat.not_le, h0, h1]
    at h ⊢
  rcases h with (h | h) | h
  · exact .inl (.inl h)
  · have h2 : v.toNat < 160 := Nat.lt_of_mul_lt_mul_right (a := 256) h
    clear h
    exact .inl (.inr (by omega))
  · exact .inr (Nat.lt_add_right i h)

theorem dmaCopy_ok {s : State} {v : Byte} (h : s.accessible (wordOf v 0x00) = true) {n : Nat} (hn : n ≤ 160) :
    ∃ t, dmaCopy (wordOf v 0x00) n s = .ok t := by
  induction n with
  | zero => exact ⟨s, rfl⟩
  | succ i ih =>
    obtain ⟨u, hu⟩ := ih (by omega)
    have hs := (dmaCopy_spec hu).1
    have ha : u.accessible (wordOf v 0x00 + BitVec.ofNat 16 i) = true := by
      rw [accessible_of_fields (s := s) (by rw [hs]) (by rw [hs])]
      exact dma_source_accessible (by omega) h
    obtain ⟨b, hb⟩ := memRead_ok ha
    exact ⟨setOam i b u, by rw [dmaCopy, hu, except_bind_ok, hb, except_map_ok]⟩

theorem dmaCopy_error {source : Word} {n : Nat} {s : State} {r : Refusal} (h : dmaCopy source n s = .error r) :
    r = .rtcRegister ∧ rtcSelected s = true := by
  induction n with
  | zero => simp [dmaCopy] at h
  | succ i ih =>
    simp only [dmaCopy, except_bind_eq_error, except_map_eq_error] at h
    rcases h with h | ⟨u, hu, h⟩
    · exact ih h
    · have h2 := memRead_error h
      have hs := (dmaCopy_spec hu).1
      rw [accessible_of_fields (s := s) (by rw [hs]) (by rw [hs])] at h2
      refine ⟨h2.1, ?_⟩
      have h3 := h2.2
      simp only [State.accessible, Bool.not_eq_false', Bool.and_eq_true] at h3
      exact h3.1.1

/-! ## Writes -/

/-- What a bus write changes: the fields named, and no other. -/
def BusWrite (s t : State) : Prop :=
  t = { s with
    irqFlags := t.irqFlags, irqEnable := t.irqEnable, timer := t.timer, ram := t.ram, joypSel := t.joypSel
    bootActive := t.bootActive, bank := t.bank, outputs := t.outputs }

theorem BusWrite.refl (s : State) : BusWrite s s := rfl

theorem BusWrite.trans {s t u : State} (h1 : BusWrite s t) (h2 : BusWrite t u) : BusWrite s u := by
  unfold BusWrite at *
  rw [h2, h1]

/-- The cases of an I/O write (R42 to R49). -/
theorem ioWrite_cases {off : Nat} {v : Byte} {s t : State} (h : ioWrite off v s = .ok t) :
    (off = 0x00 ∧ t = { s with joypSel := v.extractLsb' 4 2 }) ∨
    (off = 0x04 ∧ t = { s with timer := { s.timer with div := 0x00, divSub := 0 } }) ∨
    (off = 0x05 ∧ t = { s with timer := { s.timer with tima := v } }) ∨
    (off = 0x06 ∧ t = { s with timer := { s.timer with tma := v } }) ∨
    (off = 0x07 ∧ t = { s with timer := { s.timer with
      tac := v.setWidth 3
      timaSub := if v.setWidth 2 = s.timer.tac.setWidth 2 then s.timer.timaSub else 0 } }) ∨
    (off = 0x0F ∧ t = { s with irqFlags := v.setWidth 5 }) ∨
    (off = 0x46 ∧ dmaCopy (wordOf v 0x00) 160 (setIoCell 0x46 v s) = .ok t) ∨
    (off = 0x50 ∧ t = { setIoCell 0x50 v s with bootActive := s.bootActive && v == 0 }) ∨
    (off ≠ 0x00 ∧ off ≠ 0x04 ∧ off ≠ 0x05 ∧ off ≠ 0x06 ∧ off ≠ 0x07 ∧ off ≠ 0x0F ∧ off ≠ 0x46 ∧ off ≠ 0x50 ∧
      ∃ w outs, t = { setIoCell off w s with outputs := outs } ∧ (off ≠ 0x44 → w = v)) := by
  unfold ioWrite at h
  split at h
  case h_9 => exact .inr (.inr (.inr (.inr (.inr (.inr (.inl ⟨rfl, h⟩))))))
  case h_14 h00 h01 h04 h05 h06 h07 h0F h44 h46 h47 h48 h49 h50 =>
    cases h
    exact .inr (.inr (.inr (.inr (.inr (.inr (.inr (.inr ⟨h00, h04, h05, h06, h07, h0F, h46, h50, v, s.outputs, rfl,
      fun _ => rfl⟩)))))))
  all_goals cases h
  · exact .inl ⟨rfl, rfl⟩
  · exact .inr (.inr (.inr (.inr (.inr (.inr (.inr (.inr ⟨by decide, by decide, by decide, by decide, by decide, by decide,
      by decide, by decide, v, _, rfl, fun _ => rfl⟩)))))))
  · exact .inr (.inl ⟨rfl, rfl⟩)
  · exact .inr (.inr (.inl ⟨rfl, rfl⟩))
  · exact .inr (.inr (.inr (.inl ⟨rfl, rfl⟩)))
  · exact .inr (.inr (.inr (.inr (.inl ⟨rfl, rfl⟩))))
  · exact .inr (.inr (.inr (.inr (.inr (.inl ⟨rfl, rfl⟩)))))
  · exact .inr (.inr (.inr (.inr (.inr (.inr (.inr (.inr ⟨by decide, by decide, by decide, by decide, by decide, by decide,
      by decide, by decide, 0x00, s.outputs, rfl, fun h => absurd rfl h⟩)))))))
  · exact .inr (.inr (.inr (.inr (.inr (.inr (.inr (.inr ⟨by decide, by decide, by decide, by decide, by decide, by decide,
      by decide, by decide, v, _, rfl, fun _ => rfl⟩)))))))
  · exact .inr (.inr (.inr (.inr (.inr (.inr (.inr (.inr ⟨by decide, by decide, by decide, by decide, by decide, by decide,
      by decide, by decide, v, _, rfl, fun _ => rfl⟩)))))))
  · exact .inr (.inr (.inr (.inr (.inr (.inr (.inr (.inr ⟨by decide, by decide, by decide, by decide, by decide, by decide,
      by decide, by decide, v, _, rfl, fun _ => rfl⟩)))))))
  · exact .inr (.inr (.inr (.inr (.inr (.inr (.inr (.inl ⟨rfl, rfl⟩)))))))

theorem ioWrite_busWrite {off : Nat} {v : Byte} {s t : State} (h : ioWrite off v s = .ok t) : BusWrite s t := by
  rcases ioWrite_cases h with ⟨_, rfl⟩ | ⟨_, rfl⟩ | ⟨_, rfl⟩ | ⟨_, rfl⟩ | ⟨_, rfl⟩ | ⟨_, rfl⟩ | ⟨_, hd⟩ | ⟨_, rfl⟩ |
    ⟨_, _, _, _, _, _, _, _, w, outs, rfl, _⟩
  case inr.inr.inr.inr.inr.inr.inl =>
    have := (dmaCopy_spec hd).1
    unfold BusWrite
    rw [this]
    rfl
  all_goals rfl

/-- The cases of an external RAM write (R57, R62). -/
theorem extRamWrite_cases {off : Nat} {v : Byte} {s t : State} (h : extRamWrite off v s = .ok t) :
    t = s ∨
    (s.cart.variant = .v2 ∧
      t = { s with ram := { s.ram with mbc2 := cellInsert s.ram.mbc2 (off % 0x200) (v &&& 0x0F) } }) ∨
    (s.cart.variant ≠ .v2 ∧ extRamClosed s = false ∧
      t = { s with ram := { s.ram with ext := cellInsert s.ram.ext (extRamIndex s off) v } }) := by
  unfold extRamWrite at h
  split_ifs at h with h1 h2 h3 h4 <;> simp only [Except.ok.injEq, ramStore_eq] at h
  · exact .inr (.inl ⟨h1, h.symm⟩)
  · exact .inl h.symm
  · exact .inl h.symm
  · exact .inr (.inr ⟨h1, by simpa using h4, h.symm⟩)


/-- A write changes nothing but what the bus reaches (R36). -/
theorem memWrite_busWrite {a : Word} {v : Byte} {s t : State} (h : memWrite a v s = .ok t) : BusWrite s t := by
  unfold memWrite at h
  cases e : regionOf a <;> rw [e] at h <;> dsimp only at h
  case extRam off => rcases extRamWrite_cases h with rfl | ⟨_, rfl⟩ | ⟨_, _, rfl⟩ <;> rfl
  case io off => exact ioWrite_busWrite h
  all_goals (cases h; rfl)

/-- A write is refused only for the clock register, at the address written or under a DMA copy (R63). -/
theorem memWrite_error {a : Word} {v : Byte} {s : State} {r : Refusal} (h : memWrite a v s = .error r) :
    r = .rtcRegister ∧ rtcSelected s = true := by
  unfold memWrite at h
  cases e : regionOf a <;> rw [e] at h <;> dsimp only at h <;> try cases h
  case extRam off =>
    unfold extRamWrite at h
    split_ifs at h with h1 h2
    cases h
    exact ⟨rfl, h2⟩
  case io off =>
    unfold ioWrite at h
    split at h
    case h_9 => exact dmaCopy_error (s := setIoCell 0x46 v s) h
    all_goals cases h

/-- A writable byte is written (R36, R47, R63). -/
theorem memWrite_ok {a : Word} {v : Byte} {s : State} (h : s.writable a v = true) : ∃ t, memWrite a v s = .ok t := by
  simp only [State.writable, Bool.and_eq_true, Bool.or_eq_true, decide_eq_true_eq] at h
  obtain ⟨ha, hd⟩ := h
  have hs := regionOf_spec a
  unfold memWrite
  cases e : regionOf a <;> rw [e] at hs <;> dsimp only at hs ⊢ <;> try exact ⟨_, rfl⟩
  case extRam off =>
    have hrtc := not_rtc_of_accessible ha hs.1 hs.2.1
    unfold extRamWrite
    rw [hrtc]
    split_ifs <;> first | exact ⟨_, rfl⟩ | contradiction
  case io off =>
    unfold ioWrite
    split
    case h_9 =>
      rcases hd with hd | hd
      · exact absurd (eq_iff_toNat.mpr hs.2.2.symm) hd
      · exact dmaCopy_ok (s := setIoCell 0x46 v s) ((accessible_of_fields (s := s) rfl rfl _).trans hd) (by omega)
    all_goals exact ⟨_, rfl⟩

/-! ## Which reads a write may change -/

theorem ioRead_congr {s t : State} (k : Nat) (hdraws : t.draws = s.draws) (hjoyp : k = 0x00 → t.joypSel = s.joypSel)
    (htimer : k = 0x04 ∨ k = 0x05 ∨ k = 0x06 ∨ k = 0x07 → ioRead t k = ioRead s k)
    (hif : k = 0x0F → t.irqFlags = s.irqFlags) (hcell : ioCell t k = ioCell s k) : ioRead t k = ioRead s k := by
  by_cases h : k = 0x04 ∨ k = 0x05 ∨ k = 0x06 ∨ k = 0x07
  · exact htimer h
  unfold ioRead
  split
  · rw [hdraws, hjoyp rfl]
  · simp at h
  · simp at h
  · simp at h
  · simp at h
  · rw [hif rfl]
  · exact hcell

theorem ioCell_setIoCell_other {s : State} {off k : Nat} {w : Byte} (h : k ≠ off) :
    ioCell (setIoCell off w s) k = ioCell s k := by
  simp only [ioCell, setIoCell, ramStore_eq]
  exact ramByte_insert_other _ _ _ _ _ h

@[simp] theorem ioCell_setIoCell_same (s : State) (off : Nat) (w : Byte) : ioCell (setIoCell off w s) off = w := by
  simp [ioCell, setIoCell]

theorem extRamRead_congr {s t : State} (off : Nat) (hcart : t.cart = s.cart) (hbank : t.bank = s.bank)
    (hext : ramByte .ext t.ram.ext (extRamIndex s off) = ramByte .ext s.ram.ext (extRamIndex s off))
    (hmbc2 : s.cart.variant = .v2 → ramByte .mbc2 t.ram.mbc2 (off % 0x200) = ramByte .mbc2 s.ram.mbc2 (off % 0x200)) :
    extRamRead t off = extRamRead s off := by
  have hx : extRamIndex t off = extRamIndex s off := by rw [extRamIndex, extRamIndex, hcart, hbank]
  rw [extRamRead, extRamRead, rtcSelected, rtcSelected, extRamClosed, extRamClosed, hcart, hbank, hx, hext]
  by_cases h : s.cart.variant = .v2
  · rw [hmbc2 h]
  · rw [if_neg h, if_neg h]

/-- A byte write leaves every read as it was but those `touched` names (R34, R36, R38, R47, R48, R58, R62). -/
theorem memWrite_reads {a : Word} {v : Byte} {s t : State} (h : memWrite a v s = .ok t) : SameReadsBut a s t := by
  intro x hx
  simp only [touched, mirrorOf, Bool.or_eq_false_iff, Bool.and_eq_false_iff, decide_eq_false_iff_not, eq_iff_toNat,
    toNat_ff46, toNat_ff50] at hx
  obtain ⟨⟨⟨⟨⟨hne, hmir⟩, hrom⟩, hdma⟩, hbootp⟩, hv2⟩ := hx
  have hxs := regionOf_spec x
  have has := regionOf_spec a
  unfold memWrite at h
  cases e : regionOf a <;> rw [e] at h has <;> dsimp only at h has
  case romFixed | romBanked =>
    cases h
    refine memRead_congr x (.inl rfl) rfl rfl rfl ?_ (fun _ _ => rfl) ?_ (fun _ _ => rfl) (fun _ _ => rfl) (fun _ _ => rfl)
      (fun _ _ => rfl) (fun _ => rfl) <;> intro off hr <;> rw [hr] at hxs <;> exfalso <;> dsimp only at hxs <;> omega
  case vram =>
    cases h
    refine memRead_congr x (.inl rfl) rfl rfl rfl (fun _ _ => rfl) ?_ (fun _ _ => rfl) (fun _ _ => rfl) (fun _ _ => rfl)
      (fun _ _ => rfl) (fun _ _ => rfl) (fun _ => rfl)
    intro off hr
    rw [hr] at hxs
    dsimp only at hxs
    rw [ramStore_eq]
    exact ramByte_insert_other _ _ _ _ _ (by omega)
  case extRam =>
    rcases extRamWrite_cases h with rfl | ⟨hv, rfl⟩ | ⟨hv, _, rfl⟩
    · rfl
    all_goals
      refine memRead_congr x (.inl rfl) rfl rfl rfl (fun _ _ => rfl) (fun _ _ => rfl) ?_ (fun _ _ => rfl) (fun _ _ => rfl)
        (fun _ _ => rfl) (fun _ _ => rfl) (fun _ => rfl)
      intro off hr
      rw [hr] at hxs
      dsimp only at hxs
    · refine extRamRead_congr _ rfl rfl rfl (fun _ => ramByte_insert_other _ _ _ _ _ ?_)
      simp only [hv, not_true_eq_false, false_or] at hv2
      omega
    · refine extRamRead_congr _ rfl rfl (ramByte_insert_other _ _ _ _ _ ?_) (fun h => absurd h hv)
      simp only [extRamIndex]
      omega
  case wram | echo =>
    cases h
    refine memRead_congr x (.inl rfl) rfl rfl rfl (fun _ _ => rfl) (fun _ _ => rfl) (fun _ _ => rfl) ?_ (fun _ _ => rfl)
      (fun _ _ => rfl) (fun _ _ => rfl) (fun _ => rfl)
    intro off hr
    rw [ramStore_eq]
    refine ramByte_insert_other _ _ _ _ _ ?_
    rcases hr with hr | hr <;> rw [hr] at hxs <;> dsimp only at hxs <;> omega
  case oam =>
    cases h
    refine memRead_congr x (.inl rfl) rfl rfl rfl (fun _ _ => rfl) (fun _ _ => rfl) (fun _ _ => rfl) (fun _ _ => rfl) ?_
      (fun _ _ => rfl) (fun _ _ => rfl) (fun _ => rfl)
    intro off hr
    rw [hr] at hxs
    dsimp only at hxs
    rw [setOam, ramStore_eq]
    exact ramByte_insert_other _ _ _ _ _ (by omega)
  case unusable => cases h; rfl
  case io off =>
    have hio : ∀ k, regionOf x = .io k → k ≠ off := by
      intro k hr
      rw [hr] at hxs
      dsimp only at hxs
      omega
    have hoam : ∀ k, regionOf x = .oam k → off ≠ 0x46 := by
      intro k hr
      rw [hr] at hxs
      dsimp only at hxs
      omega
    rcases ioWrite_cases h with ⟨rfl, rfl⟩ | ⟨rfl, rfl⟩ | ⟨rfl, rfl⟩ | ⟨rfl, rfl⟩ | ⟨rfl, rfl⟩ | ⟨rfl, rfl⟩ | ⟨rfl, hd⟩ |
      ⟨rfl, rfl⟩ | ⟨_, _, _, _, _, _, _, _, w, outs, rfl, _⟩
    case inr.inr.inr.inr.inr.inr.inl =>
      have hs := (dmaCopy_spec hd).1
      rw [hs]
      refine memRead_congr x (.inl rfl) rfl rfl rfl (fun _ _ => rfl) (fun _ _ => rfl) (fun _ _ => rfl) (fun _ _ => rfl)
        (fun k hr => absurd rfl (hoam k hr)) ?_ (fun _ _ => rfl) (fun _ => rfl)
      intro k hr
      exact ioRead_congr k rfl (fun _ => rfl) (fun hk => by rcases hk with rfl | rfl | rfl | rfl <;> rfl) (fun _ => rfl)
        (ioCell_setIoCell_other (s := s) (hio k hr))
    case inr.inr.inr.inr.inr.inr.inr.inl =>
      refine memRead_congr x (.inr ?_) rfl rfl rfl (fun _ _ => rfl) (fun _ _ => rfl) (fun _ _ => rfl) (fun _ _ => rfl)
        (fun _ _ => rfl) ?_ (fun _ _ => rfl) (fun _ => rfl)
      · omega
      · intro k hr
        exact ioRead_congr k rfl (fun _ => rfl) (fun hk => by rcases hk with rfl | rfl | rfl | rfl <;> rfl) (fun _ => rfl)
          (ioCell_setIoCell_other (s := s) (hio k hr))
    case inr.inr.inr.inr.inr.inr.inr.inr =>
      refine memRead_congr x (.inl rfl) rfl rfl rfl (fun _ _ => rfl) (fun _ _ => rfl) (fun _ _ => rfl) (fun _ _ => rfl)
        (fun _ _ => rfl) ?_ (fun _ _ => rfl) (fun _ => rfl)
      intro k hr
      exact ioRead_congr k rfl (fun _ => rfl) (fun hk => by rcases hk with rfl | rfl | rfl | rfl <;> rfl) (fun _ => rfl)
        (ioCell_setIoCell_other (s := s) (hio k hr))
    all_goals
      refine memRead_congr x (.inl rfl) rfl rfl rfl (fun _ _ => rfl) (fun _ _ => rfl) (fun _ _ => rfl) (fun _ _ => rfl)
        (fun _ _ => rfl) ?_ (fun _ _ => rfl) (fun _ => rfl)
      intro k hr
      have hk := hio k hr
      unfold ioRead
      split <;> first | rfl | exact absurd rfl hk
  case hram =>
    cases h
    refine memRead_congr x (.inl rfl) rfl rfl rfl (fun _ _ => rfl) (fun _ _ => rfl) (fun _ _ => rfl) (fun _ _ => rfl)
      (fun _ _ => rfl) (fun _ _ => rfl) ?_ (fun _ => rfl)
    intro off hr
    rw [hr] at hxs
    dsimp only at hxs
    rw [ramStore_eq]
    exact ramByte_insert_other _ _ _ _ _ (by omega)
  case irqEnable =>
    cases h
    refine memRead_congr x (.inl rfl) rfl rfl rfl (fun _ _ => rfl) (fun _ _ => rfl) (fun _ _ => rfl) (fun _ _ => rfl)
      (fun _ _ => rfl) (fun _ _ => rfl) (fun _ _ => rfl) ?_
    intro hr
    rw [hr] at hxs
    dsimp only at hxs
    omega

/-- A byte written to plain RAM is what the next read of the address returns (R39). -/
theorem memWrite_plainRam {a : Word} (v : Byte) (s : State) (h : plainRam a = true) :
    ∃ t, memWrite a v s = .ok t ∧ memRead t a = .ok v ∧
      t = { s with ram := { s.ram with vram := t.ram.vram, wram := t.ram.wram, oam := t.ram.oam, hram := t.ram.hram } } := by
  simp only [plainRam, Bool.or_eq_true, Bool.and_eq_true, decide_eq_true_eq] at h
  have hs := regionOf_spec a
  have hb : ∀ t, memRead t a = regionRead t a := by
    intro t
    rw [memRead, bootByte_high (by omega)]
  unfold memWrite
  simp only [hb, regionRead]
  cases e : regionOf a <;> rw [e] at hs <;> dsimp only at hs ⊢
  case vram => exact ⟨_, rfl, by simp, rfl⟩
  case wram => exact ⟨_, rfl, by simp, rfl⟩
  case echo => exact ⟨_, rfl, by simp, rfl⟩
  case oam => exact ⟨_, rfl, by simp [setOam], rfl⟩
  case hram => exact ⟨_, rfl, by simp, rfl⟩
  all_goals omega

end Sys2Proof.Machine
end

