-- ==== Sys2Proof/Laws/Invariant.lean ====
section
/-! SUPPORT. That a bus write keeps each part of the invariant, and what a bus write leaves alone. -/

namespace Sys2Proof.Machine

/-! ## The parts of the invariant that a bus write can reach -/

/-- The part of the invariant that speaks of memory, the cartridge, the timer and the overlay. -/
structure BusInv (s : State) : Prop where
  memory : Memory.wf s = true
  divSub : s.timer.divSub < 256
  timaSub : s.timer.timaSub < timerPeriod s.timer.tac
  bank : bankLegal s.cart.variant s.bank = true
  romBanks : 0 < s.cart.romBanks
  overlay : s.bootActive = true → s.cfg.bootRom.isSome = true ∧ cellRead s.ram.io 0x50 = some 0x00

theorem State.Inv.busInv {s : State} (h : s.Inv) : BusInv s :=
  ⟨h.memory, h.divSub, h.timaSub, h.bank, h.romBanks, h.overlay⟩

theorem BusInv.inv {s : State} (h : BusInv s) (he : s.eiDelay = 0 ∨ (s.eiDelay = 1 ∧ s.ime = false)) : s.Inv :=
  ⟨h.memory, h.divSub, h.timaSub, he, h.bank, h.romBanks, h.overlay⟩

/-- The invariant's bus part depends on these fields only. -/
theorem BusInv.congr {s t : State} (h : BusInv s) (hram : t.ram = s.ram) (hcart : t.cart = s.cart) (hcfg : t.cfg = s.cfg)
    (htimer : t.timer = s.timer) (hbank : t.bank = s.bank) (hboot : t.bootActive = s.bootActive) : BusInv t := by
  obtain ⟨h1, h2, h3, h4, h5, h6⟩ := h
  refine ⟨?_, ?_, ?_, ?_, ?_, ?_⟩
  · simpa only [Memory.wf, hram, hcart, hcfg] using h1
  · rwa [htimer]
  · rwa [htimer]
  · rwa [hcart, hbank]
  · rwa [hcart]
  · rwa [hboot, hcfg, hram]

theorem timerPeriod_pos (tac : BitVec 3) : 0 < timerPeriod tac := by
  unfold timerPeriod
  split <;> decide

theorem timerPeriod_congr {t u : BitVec 3} (h : t.setWidth 2 = u.setWidth 2) : timerPeriod t = timerPeriod u := by
  simp only [timerPeriod, h]

/-! ## The bank registers -/

theorem bankLegal_ramGate {variant : Variant} {b : Bank} (v : Byte) (hv : variant ≠ .plain)
    (h : bankLegal variant b = true) : bankLegal variant (ramGate v b) = true := by
  unfold ramGate
  cases variant <;> simp_all only [bankLegal, ne_eq, not_true_eq_false] <;> split_ifs <;> exact h

theorem coerceBank_pos (v : BitVec 9) : 1 ≤ (coerceBank v).toNat := by
  unfold coerceBank
  split
  · decide
  next h =>
    have : v.toNat ≠ 0 := fun hv => h (BitVec.eq_of_toNat_eq (by simpa using hv))
    omega

theorem coerceBank_le {v : BitVec 9} {n : Nat} (h : v.toNat ≤ n) (hn : 1 ≤ n) : (coerceBank v).toNat ≤ n := by
  unfold coerceBank
  split
  · exact hn
  · exact h

theorem byte_and_le (v m : Byte) : (v &&& m).toNat ≤ m.toNat := by
  rw [BitVec.toNat_and]
  exact Nat.and_le_right

/-- A write to 0x0000-0x7FFF leaves the bank registers legal for the variant (R60 to R64). -/
theorem bankLegal_bankWrite {variant : Variant} {b : Bank} (a : Nat) (v : Byte) (h : bankLegal variant b = true) :
    bankLegal variant (bankWrite variant a v b) = true := by
  cases variant with
  | plain => exact h
  | v1 =>
    simp only [bankWrite, bankWriteV1]
    simp only [bankLegal, Bool.and_eq_true, Bool.or_eq_true, decide_eq_true_eq, beq_iff_eq] at h
    obtain ⟨⟨⟨h1, h2⟩, h3⟩, h4⟩ := h
    split_ifs with c1 c2 c3 c4 c5
    · exact bankLegal_ramGate v (by decide) (by simp only [bankLegal, Bool.and_eq_true, Bool.or_eq_true, decide_eq_true_eq, beq_iff_eq]; exact ⟨⟨⟨h1, h2⟩, h3⟩, h4⟩)
    · have hm : ((v &&& 0x1F).setWidth 9 : BitVec 9).toNat ≤ 31 := by
        have := byte_and_le v 0x1F
        simp only [BitVec.toNat_setWidth]
        exact le_trans (Nat.mod_le _ _) this
      simp only [bankLegal, Bool.and_eq_true, Bool.or_eq_true, decide_eq_true_eq, beq_iff_eq]
      exact ⟨⟨⟨coerceBank_pos _, coerceBank_le hm (by decide)⟩, h3⟩, h4⟩
    · have hm := byte_and_le v 0x03
      simp only [bankLegal, h1, h2, c4, decide_true, Bool.true_or, Bool.and_true, Bool.true_and, decide_eq_true_eq]
      exact hm
    · simp only [bankLegal, Bool.and_eq_true, Bool.or_eq_true, decide_eq_true_eq, beq_iff_eq]
      exact ⟨⟨⟨h1, h2⟩, h3⟩, h4⟩
    · simp [bankLegal, h1, h2, h3]
    · simp [bankLegal, h1, h2]
  | v2 =>
    simp only [bankWrite, bankWriteV2]
    simp only [bankLegal, Bool.and_eq_true, decide_eq_true_eq, beq_iff_eq, Bool.not_eq_true'] at h
    obtain ⟨⟨⟨⟨h1, h2⟩, h3⟩, h4⟩, h5⟩ := h
    split_ifs with c1 c2 c3
    · exact bankLegal_ramGate v (by decide) (by simp [bankLegal, h1, h2, h3, h4, h5])
    · simp [bankLegal, h1, h2, h3, h4, h5]
    · have hm : ((v &&& 0x0F).setWidth 9 : BitVec 9).toNat ≤ 15 := by
        have := byte_and_le v 0x0F
        simp only [BitVec.toNat_setWidth]
        exact le_trans (Nat.mod_le _ _) this
      simp only [bankLegal, Bool.and_eq_true, decide_eq_true_eq, beq_iff_eq, Bool.not_eq_true']
      exact ⟨⟨⟨⟨coerceBank_pos _, coerceBank_le hm (by decide)⟩, h3⟩, h4⟩, h5⟩
    · simp [bankLegal, h1, h2, h3, h4, h5]
  | v3 =>
    simp only [bankWrite, bankWriteV3]
    simp only [bankLegal, Bool.and_eq_true, decide_eq_true_eq, beq_iff_eq, Bool.not_eq_true'] at h
    obtain ⟨⟨⟨h1, h2⟩, h3⟩, h4⟩ := h
    split_ifs with c1 c2 c3
    · exact bankLegal_ramGate v (by decide) (by simp [bankLegal, h1, h2, h3, h4])
    · have hm : (v.setWidth 9 : BitVec 9).toNat ≤ 255 := by
        have := v.isLt
        simp only [BitVec.toNat_setWidth]
        omega
      simp [bankLegal, h3, h4, coerceBank_pos, coerceBank_le hm]
    · simp [bankLegal, h1, h2, h3, h4]
    · simp [bankLegal, h1, h2, h3, h4]
  | v5 =>
    simp only [bankWrite, bankWriteV5]
    simp only [bankLegal, Bool.and_eq_true, decide_eq_true_eq, beq_iff_eq, Bool.not_eq_true'] at h
    obtain ⟨⟨h1, h2⟩, h3⟩ := h
    split_ifs with c1 c2 c3 c4
    · exact bankLegal_ramGate v (by decide) (by simp [bankLegal, h1, h2, h3])
    · simp [bankLegal, h1, h2, h3]
    · simp [bankLegal, h1, h2, h3]
    · have hm := byte_and_le v 0x0F
      simp only [bankLegal, h2, h3, beq_self_eq_true, Bool.not_false, Bool.and_true, decide_eq_true_eq]
      exact hm
    · simp [bankLegal, h1, h2, h3]

/-! ## Memory.wf, array by array -/

theorem memory_wf_iff {s : State} : Memory.wf s = true ↔
    Mem.wf ramUnlisted 0x2000 s.ram.vram = true ∧ Mem.wf ramUnlisted 0x2000 s.ram.wram = true ∧
    Mem.wf ramUnlisted 0xA0 s.ram.oam = true ∧ Mem.wf ramUnlisted 0x7F s.ram.hram = true ∧
    Mem.wf ramUnlisted 0x80 s.ram.io = true ∧ Mem.wf ramUnlisted (s.cart.ramBanks * 0x2000) s.ram.ext = true ∧
    Mem.wf ramUnlisted 0x200 s.ram.mbc2 = true ∧ s.ram.mbc2.all (fun cell => decide (cell.2.toNat < 16)) = true ∧
    Mem.wf imageUnlisted s.cart.romLength s.cart.rom = true ∧
    (match s.cfg.bootRom with
      | some image => Mem.wf imageUnlisted 0x100 image
      | none => true) = true := by
  simp only [Memory.wf, Bool.and_eq_true, and_assoc]
  all_goals exact Iff.rfl

theorem extRamIndex_lt {s : State} {off : Nat} (hoff : off < 0x2000) (h : extRamClosed s = false) :
    extRamIndex s off < s.cart.ramBanks * 0x2000 := by
  simp only [extRamClosed, Bool.or_eq_false_iff, beq_eq_false_iff_ne] at h
  have hpos : 0 < s.cart.ramBanks := Nat.pos_of_ne_zero h.2
  have hlt := Nat.mod_lt (ramBankSel s.cart.variant s.bank) hpos
  simp only [extRamIndex]
  calc ramBankSel s.cart.variant s.bank % s.cart.ramBanks * 0x2000 + off
      < ramBankSel s.cart.variant s.bank % s.cart.ramBanks * 0x2000 + 0x2000 := by omega
    _ = (ramBankSel s.cart.variant s.bank % s.cart.ramBanks + 1) * 0x2000 := by ring
    _ ≤ s.cart.ramBanks * 0x2000 := Nat.mul_le_mul_right _ hlt

theorem all_cellInsert {m : Mem} {i : Nat} {v : Byte} (h : m.all (fun cell => decide (cell.2.toNat < 16)) = true)
    (hv : v.toNat < 16) : (cellInsert m i v).all (fun cell => decide (cell.2.toNat < 16)) = true := by
  rw [List.all_eq_true] at h ⊢
  intro c hc
  rcases mem_cellInsert hc with rfl | hc
  · simpa using hv
  · exact h c hc

theorem busInv_setIoCell {s : State} {off : Nat} (v : Byte) (hoff : off < 0x80) (h50 : off ≠ 0x50) (h : BusInv s) :
    BusInv (setIoCell off v s) := by
  obtain ⟨h1, h2, h3, h4, h5, h6⟩ := h
  refine ⟨?_, h2, h3, h4, h5, ?_⟩
  · rw [memory_wf_iff] at h1 ⊢
    obtain ⟨m1, m2, m3, m4, m5, m6, m7, m8, m9, m10⟩ := h1
    refine ⟨m1, m2, m3, m4, ?_, m6, m7, m8, m9, m10⟩
    simp only [setIoCell, ramStore_eq]
    exact wf_cellInsert _ _ m5 hoff
  · intro hb
    have := h6 hb
    refine ⟨this.1, ?_⟩
    simp only [setIoCell, ramStore_eq]
    rw [cellRead_insert_other _ _ _ _ (Ne.symm h50)]
    exact this.2

/-- An I/O write keeps the bus part of the invariant (R42 to R49). -/
theorem busInv_ioWrite {off : Nat} {v : Byte} {s t : State} (hoff : off < 0x80) (h : ioWrite off v s = .ok t)
    (hi : BusInv s) : BusInv t := by
  rcases ioWrite_cases h with ⟨rfl, rfl⟩ | ⟨rfl, rfl⟩ | ⟨rfl, rfl⟩ | ⟨rfl, rfl⟩ | ⟨rfl, rfl⟩ | ⟨rfl, rfl⟩ | ⟨rfl, hd⟩ |
    ⟨rfl, rfl⟩ | ⟨_, _, _, _, _, _, _, h50, w, outs, rfl, _⟩
  · exact hi.congr rfl rfl rfl rfl rfl rfl
  · exact ⟨hi.memory, by simp, hi.timaSub, hi.bank, hi.romBanks, hi.overlay⟩
  · exact ⟨hi.memory, hi.divSub, hi.timaSub, hi.bank, hi.romBanks, hi.overlay⟩
  · exact ⟨hi.memory, hi.divSub, hi.timaSub, hi.bank, hi.romBanks, hi.overlay⟩
  · refine ⟨hi.memory, hi.divSub, ?_, hi.bank, hi.romBanks, hi.overlay⟩
    dsimp only
    split
    next hw =>
      rw [timerPeriod_congr (u := s.timer.tac)]
      · exact hi.timaSub
      · rw [← hw]
        apply BitVec.eq_of_getLsbD_eq
        intro i hi2
        simp [hi2]
    · exact timerPeriod_pos _
  · exact hi.congr rfl rfl rfl rfl rfl rfl
  · have hs := dmaCopy_spec hd
    have hw := busInv_setIoCell v hoff (by decide) hi
    rw [hs.1]
    obtain ⟨h1, h2, h3, h4, h5, h6⟩ := hw
    refine ⟨?_, h2, h3, h4, h5, h6⟩
    rw [memory_wf_iff] at h1 ⊢
    obtain ⟨m1, m2, m3, m4, m5, m6, m7, m8, m9, m10⟩ := h1
    exact ⟨m1, m2, hs.2.2 (by decide) m3, m4, m5, m6, m7, m8, m9, m10⟩
  · obtain ⟨h1, h2, h3, h4, h5, h6⟩ := hi
    refine ⟨?_, h2, h3, h4, h5, ?_⟩
    · rw [memory_wf_iff] at h1 ⊢
      obtain ⟨m1, m2, m3, m4, m5, m6, m7, m8, m9, m10⟩ := h1
      refine ⟨m1, m2, m3, m4, ?_, m6, m7, m8, m9, m10⟩
      simp only [setIoCell, ramStore_eq]
      exact wf_cellInsert _ _ m5 hoff
    · dsimp only
      intro hb
      rw [Bool.and_eq_true, beq_iff_eq] at hb
      refine ⟨(h6 hb.1).1, ?_⟩
      simp only [setIoCell, ramStore_eq]
      rw [cellRead_insert_same, hb.2]
  · exact (busInv_setIoCell w hoff h50 hi).congr rfl rfl rfl rfl rfl rfl

/-- A bus write keeps the bus part of the invariant (R36, R28 to R31). -/
theorem busInv_memWrite {a : Word} {v : Byte} {s t : State} (h : memWrite a v s = .ok t) (hi : BusInv s) : BusInv t := by
  have hs := regionOf_spec a
  have hm := memory_wf_iff.mp hi.memory
  obtain ⟨m1, m2, m3, m4, m5, m6, m7, m8, m9, m10⟩ := hm
  unfold memWrite at h
  cases e : regionOf a <;> rw [e] at h hs <;> dsimp only at h hs
  case romFixed | romBanked =>
    cases h
    exact ⟨hi.memory, hi.divSub, hi.timaSub, bankLegal_bankWrite _ _ hi.bank, hi.romBanks, hi.overlay⟩
  case vram off =>
    cases h
    refine ⟨?_, hi.divSub, hi.timaSub, hi.bank, hi.romBanks, hi.overlay⟩
    rw [memory_wf_iff]
    refine ⟨?_, m2, m3, m4, m5, m6, m7, m8, m9, m10⟩
    simp only [ramStore_eq]
    exact wf_cellInsert _ _ m1 (by omega)
  case extRam off =>
    rcases extRamWrite_cases h with rfl | ⟨_, rfl⟩ | ⟨_, hc, rfl⟩
    · exact hi
    · refine ⟨?_, hi.divSub, hi.timaSub, hi.bank, hi.romBanks, hi.overlay⟩
      rw [memory_wf_iff]
      have hv := byte_and_le v 0x0F
      exact ⟨m1, m2, m3, m4, m5, m6, wf_cellInsert _ _ m7 (Nat.mod_lt _ (by decide)),
        all_cellInsert m8 (Nat.lt_succ_of_le hv), m9, m10⟩
    · refine ⟨?_, hi.divSub, hi.timaSub, hi.bank, hi.romBanks, hi.overlay⟩
      rw [memory_wf_iff]
      exact ⟨m1, m2, m3, m4, m5, wf_cellInsert _ _ m6 (extRamIndex_lt (by omega) hc), m7, m8, m9, m10⟩
  case wram off | echo off =>
    cases h
    refine ⟨?_, hi.divSub, hi.timaSub, hi.bank, hi.romBanks, hi.overlay⟩
    rw [memory_wf_iff]
    refine ⟨m1, ?_, m3, m4, m5, m6, m7, m8, m9, m10⟩
    simp only [ramStore_eq]
    exact wf_cellInsert _ _ m2 (by omega)
  case oam off =>
    cases h
    refine ⟨?_, hi.divSub, hi.timaSub, hi.bank, hi.romBanks, hi.overlay⟩
    rw [memory_wf_iff]
    refine ⟨m1, m2, ?_, m4, m5, m6, m7, m8, m9, m10⟩
    simp only [setOam, ramStore_eq]
    exact wf_cellInsert _ _ m3 (by omega)
  case unusable => cases h; exact hi
  case io off => exact busInv_ioWrite (by omega) h hi
  case hram off =>
    cases h
    refine ⟨?_, hi.divSub, hi.timaSub, hi.bank, hi.romBanks, hi.overlay⟩
    rw [memory_wf_iff]
    refine ⟨m1, m2, m3, ?_, m5, m6, m7, m8, m9, m10⟩
    simp only [ramStore_eq]
    exact wf_cellInsert _ _ m4 (by omega)
  case irqEnable => cases h; exact hi.congr rfl rfl rfl rfl rfl rfl

/-! ## What a bus write leaves alone -/

/-- Only a write to 0x0000-0x7FFF reaches the bank registers (R58). -/
theorem memWrite_bank {a : Word} {v : Byte} {s t : State} (h : memWrite a v s = .ok t) (ha : 0x7FFF < a.toNat) :
    t.bank = s.bank := by
  have hs := regionOf_spec a
  unfold memWrite at h
  cases e : regionOf a <;> rw [e] at h hs <;> dsimp only at h hs <;> try (exfalso; omega)
  case extRam off => rcases extRamWrite_cases h with rfl | ⟨_, rfl⟩ | ⟨_, _, rfl⟩ <;> rfl
  case io off =>
    rcases ioWrite_cases h with ⟨_, rfl⟩ | ⟨_, rfl⟩ | ⟨_, rfl⟩ | ⟨_, rfl⟩ | ⟨_, rfl⟩ | ⟨_, rfl⟩ | ⟨_, hd⟩ | ⟨_, rfl⟩ |
      ⟨_, _, _, _, _, _, _, _, w, outs, rfl, _⟩
    case inr.inr.inr.inr.inr.inr.inl => rw [(dmaCopy_spec hd).1]; rfl
    all_goals rfl
  all_goals (cases h; rfl)

/-- No write sets the boot overlay back (R48). -/
theorem memWrite_bootActive {a : Word} {v : Byte} {s t : State} (h : memWrite a v s = .ok t)
    (hb : s.bootActive = false) : t.bootActive = false := by
  unfold memWrite at h
  cases e : regionOf a <;> rw [e] at h <;> dsimp only at h
  case extRam off => rcases extRamWrite_cases h with rfl | ⟨_, rfl⟩ | ⟨_, _, rfl⟩ <;> exact hb
  case io off =>
    rcases ioWrite_cases h with ⟨_, rfl⟩ | ⟨_, rfl⟩ | ⟨_, rfl⟩ | ⟨_, rfl⟩ | ⟨_, rfl⟩ | ⟨_, rfl⟩ | ⟨_, hd⟩ | ⟨_, rfl⟩ |
      ⟨_, _, _, _, _, _, _, _, w, outs, rfl, _⟩
    case inr.inr.inr.inr.inr.inr.inl => rw [(dmaCopy_spec hd).1]; exact hb
    case inr.inr.inr.inr.inr.inr.inr.inl => simp [hb]
    all_goals exact hb
  all_goals (cases h; exact hb)

end Sys2Proof.Machine
end

