-- ==== Sys2Proof/Laws/Ops.lean ====
section
/-! SUPPORT. What each shared operation can do, once: the stack, the operand of the CB page, taking an interrupt, the EI delay and
the timer.  Later proofs cite these and unfold nothing. -/

namespace Sys2Proof.Machine

/-! ## A write does not see the registers -/

/-- The register file, PC and the other processor fields play no part in a bus write. -/
theorem memWrite_core {a : Word} {v : Byte} {s t : State} (g : Regs) (pc : Word) (hb : Bool) (cyc : Nat) :
    memWrite a v s = .ok t →
    memWrite a v { s with regs := g, pc := pc, haltBug := hb, lastCycles := cyc } =
      .ok { t with regs := g, pc := pc, haltBug := hb, lastCycles := cyc } := by
  have hdma : ∀ (source : Word) (n : Nat) (u w : State), dmaCopy source n u = .ok w →
      dmaCopy source n { u with regs := g, pc := pc, haltBug := hb, lastCycles := cyc } =
        .ok { w with regs := g, pc := pc, haltBug := hb, lastCycles := cyc } := by
    intro source n
    induction n with
    | zero => intro u w h; cases h; rfl
    | succ i ih =>
      intro u w h
      simp only [dmaCopy, except_bind_eq_ok, except_map_eq_ok] at h ⊢
      obtain ⟨x, hx, b, hb, rfl⟩ := h
      exact ⟨_, ih u x hx, b, hb, rfl⟩
  intro h
  unfold memWrite at h ⊢
  cases e : regionOf a <;> rw [e] at h <;> dsimp only at h ⊢
  case extRam off =>
    unfold extRamWrite at h ⊢
    split_ifs at h with c1 c2 c3 c4
    · cases h
      exact (if_pos c1).trans (congrArg Except.ok (if_pos c2))
    · cases h
      exact (if_pos c1).trans (congrArg Except.ok (if_neg c2))
    · cases h
      exact (if_neg c1).trans ((if_neg c3).trans (if_pos c4))
    · cases h
      exact (if_neg c1).trans ((if_neg c3).trans (if_neg c4))
  case io off =>
    unfold ioWrite at h ⊢
    split at h
    case h_9 => exact hdma _ _ (setIoCell 0x46 v s) t h
    all_goals (cases h; rfl)
  all_goals (cases h; rfl)

/-- A write after the fetch is the write before it, with the fetch done after. -/
theorem memWrite_fetched {a : Word} {v : Byte} {s t : State} (length cycles : Nat) (h : memWrite a v s = .ok t) :
    memWrite a v (s.fetched length cycles) =
      .ok { t with pc := s.nextAddress length, haltBug := false, lastCycles := cycles } := by
  have hr := memWrite_busWrite h
  have := memWrite_core s.regs (s.nextAddress length) false cycles h
  rw [hr] at this ⊢
  exact this

/-- A write whose two addresses lie next to each other is as writable after the first as before it. -/
theorem writable_after {a b : Word} {v w : Byte} {s t : State} (h : memWrite a v s = .ok t)
    (hab : b = a + 1 ∨ b = a - 1) (hw : s.writable b w = true) : t.writable b w = true := by
  have hb := memWrite_busWrite h
  have hcart : t.cart = s.cart := by rw [hb]
  by_cases ha : 0x7FFF < a.toNat
  · have hbank := memWrite_bank h ha
    simpa only [State.writable, accessible_of_fields hcart hbank] using hw
  · have hl := a.isLt
    have hbn : b.toNat ≤ 0x8000 ∨ b.toNat = 0xFFFF := by
      rcases hab with rfl | rfl
      · rw [BitVec.toNat_add]
        have : (1 : Word).toNat = 1 := rfl
        omega
      · rw [BitVec.toNat_sub]
        have : (1 : Word).toNat = 1 := rfl
        omega
    have h1 : t.accessible b = true := by
      simp only [State.accessible, Bool.not_eq_true', Bool.and_eq_false_iff, decide_eq_false_iff_not]
      rcases hbn with h | h
      · exact .inl (.inr (by omega))
      · exact .inr (by omega)
    have h2 : b ≠ 0xFF46 := by
      intro hc
      rw [eq_iff_toNat, toNat_ff46] at hc
      omega
    simp only [State.writable, Bool.and_eq_true, Bool.or_eq_true, decide_eq_true_eq]
    exact ⟨h1, .inl h2⟩

/-! ## The stack -/

theorem word_sub_one_sub_one (a : Word) : a - 1 - 1 = a - 2 := by bv_omega

/-- `Push16` on the state after a fetch: the two writes happen on the bus, SP is two lower, and nothing else changes (R90). -/
theorem push16_eq {v : Word} {s u w : State} (h1 : memWrite (s.regs.sp - 1) (hiByte v) s = .ok u)
    (h2 : memWrite (s.regs.sp - 2) (loByte v) u = .ok w) :
    push16 v s = .ok { w with regs := { s.regs with sp := s.regs.sp - 2 } } := by
  have e1 := memWrite_core { s.regs with sp := s.regs.sp - 1 } s.pc s.haltBug s.lastCycles h1
  have b1 := memWrite_busWrite h1
  have e2 := memWrite_core { s.regs with sp := s.regs.sp - 2 } u.pc u.haltBug u.lastCycles h2
  have b2 := memWrite_busWrite h2
  unfold push16
  have e1' : memWrite (s.regs.sp - 1) (hiByte v) (s.setSp (s.regs.sp - 1)) =
      .ok { u with regs := { s.regs with sp := s.regs.sp - 1 } } := by
    rw [b1] at e1 ⊢
    exact e1
  rw [e1', except_bind_ok]
  dsimp only
  rw [word_sub_one_sub_one]
  have e2' : memWrite (s.regs.sp - 2) (loByte v)
      (State.setSp (s.regs.sp - 2) { u with regs := { s.regs with sp := s.regs.sp - 1 } }) =
      .ok { w with regs := { s.regs with sp := s.regs.sp - 2 } } := by
    rw [b2] at e2 ⊢
    exact e2
  exact e2'

/-- A pushable value is pushed (R90, R91). -/
theorem push16_ok {v : Word} {s : State} (h : s.pushable v = true) :
    ∃ u w, memWrite (s.regs.sp - 1) (hiByte v) s = .ok u ∧ memWrite (s.regs.sp - 2) (loByte v) u = .ok w ∧
      push16 v s = .ok { w with regs := { s.regs with sp := s.regs.sp - 2 } } := by
  simp only [State.pushable, Bool.and_eq_true] at h
  obtain ⟨u, hu⟩ := memWrite_ok h.1
  obtain ⟨w, hw⟩ := memWrite_ok (writable_after hu (.inr (word_sub_one_sub_one s.regs.sp).symm) h.2)
  exact ⟨u, w, hu, hw, push16_eq hu hw⟩

/-- `Pop16`: the two bytes at SP, and SP two higher (R90). -/
theorem pop16_eq {s : State} {lo hi : Byte} (h1 : memRead s s.regs.sp = .ok lo) (h2 : memRead s (s.regs.sp + 1) = .ok hi) :
    pop16 s = .ok (wordOf hi lo, s.setSp (s.regs.sp + 2)) := by
  unfold pop16
  rw [h1, except_bind_ok]
  simp only [setSp_sp, memRead_setSp, h2, except_map_ok]
  rw [show s.regs.sp + 1 + 1 = s.regs.sp + 2 by bv_omega]
  rfl

/-- Two poppable bytes are popped (R90, R91). -/
theorem pop16_ok {s : State} (h : s.poppable = true) :
    ∃ lo hi, memRead s s.regs.sp = .ok lo ∧ memRead s (s.regs.sp + 1) = .ok hi ∧
      pop16 s = .ok (wordOf hi lo, s.setSp (s.regs.sp + 2)) := by
  simp only [State.poppable, Bool.and_eq_true] at h
  obtain ⟨lo, h1⟩ := memRead_ok h.1
  obtain ⟨hi, h2⟩ := memRead_ok h.2
  exact ⟨lo, hi, h1, h2, pop16_eq h1 h2⟩

/-! ## Interrupts -/

/-- The source served is the lowest bit that is pending (R187). -/
theorem lowestSource_eq {p : BitVec 5} {i : Nat} (h : p.getLsbD i = true) (hlow : ∀ j < i, p.getLsbD j = false) :
    lowestSource p = i := by
  have hi : i < 5 := by
    by_contra hc
    rw [BitVec.getLsbD_of_ge _ _ (by omega)] at h
    cases h
  unfold lowestSource
  rcases (show i = 0 ∨ i = 1 ∨ i = 2 ∨ i = 3 ∨ i = 4 by omega) with rfl | rfl | rfl | rfl | rfl
  · simp only [h, if_true]
  · simp only [h, hlow 0 (by decide), Bool.false_eq_true, if_false, if_true]
  · simp only [h, hlow 0 (by decide), hlow 1 (by decide), Bool.false_eq_true, if_false, if_true]
  · simp only [h, hlow 0 (by decide), hlow 1 (by decide), hlow 2 (by decide), Bool.false_eq_true, if_false, if_true]
  · simp only [hlow 0 (by decide), hlow 1 (by decide), hlow 2 (by decide), hlow 3 (by decide), Bool.false_eq_true, if_false]

/-- Something is pending exactly when some source is (R186). -/
theorem pending_source {s : State} (h : s.pending ≠ 0) : s.pending.getLsbD (lowestSource s.pending) = true := by
  revert h
  generalize s.pending = p
  revert p
  decide

/-- The EI delay changes `ime` and itself, and nothing else (R191). -/
theorem eiTick_spec (s : State) : eiTick s = { s with ime := s.ime || s.eiDelay == 1, eiDelay := s.eiDelay - 1 } := by
  unfold eiTick
  split
  next h => simp only [h, Nat.zero_sub, show ((0 : Nat) == 1) = false from rfl, Bool.or_false]; rw [← h]
  next h => simp only [h, Nat.sub_self, beq_self_eq_true, Bool.or_true]
  next n h =>
    simp only [h, show (n + 2 == 1) = false by simp, Bool.or_false]
    rfl

/-! ## The timer -/

/-- `timaTicks` reaches TIMA and IF only, and IF only to set bit 2 (R196). -/
theorem timaTicks_spec (n : Nat) (s : State) :
    timaTicks n s = { s with
      timer := { s.timer with tima := (timaTicks n s).timer.tima }
      irqFlags := (timaTicks n s).irqFlags } ∧
    ((timaTicks n s).irqFlags = s.irqFlags ∨ (timaTicks n s).irqFlags = s.irqFlags ||| (1#5 <<< 2)) := by
  induction n with
  | zero => exact ⟨rfl, .inl rfl⟩
  | succ k ih =>
    obtain ⟨h1, h2⟩ := ih
    have hs : timaTicks (k + 1) s = timaTick (timaTicks k s) := rfl
    by_cases hc : (timaTicks k s).timer.tima = 0xFF
    · have ht : timaTick (timaTicks k s) =
          ({ timaTicks k s with timer := { (timaTicks k s).timer with tima := (timaTicks k s).timer.tma } } :
            State).requestInterrupt 2 := by
        rw [timaTick, if_pos hc]
      refine ⟨?_, .inr ?_⟩
      · rw [hs, ht, h1]
        rfl
      · rw [hs, ht]
        simp only [requestInterrupt_irqFlags]
        rcases h2 with h2 | h2 <;> rw [h2]
        rw [BitVec.or_assoc, BitVec.or_self]
    · have ht : timaTick (timaTicks k s) =
          { timaTicks k s with timer := { (timaTicks k s).timer with tima := (timaTicks k s).timer.tima + 1 } } := by
        rw [timaTick, if_neg hc]
      refine ⟨?_, ?_⟩
      · rw [hs, ht, h1]
      · rw [hs, ht]
        exact h2

/-- `TimerUpdate(n)` reaches DIV, TIMA, the sub-counters and IF's timer bit, and nothing else (R196). -/
theorem timerUpdate_spec (n : Nat) (s : State) :
    timerUpdate n s = { s with
      timer := { s.timer with
        div := (timerUpdate n s).timer.div, divSub := (timerUpdate n s).timer.divSub
        tima := (timerUpdate n s).timer.tima, timaSub := (timerUpdate n s).timer.timaSub }
      irqFlags := (timerUpdate n s).irqFlags } := by
  unfold timerUpdate timaUpdate
  split
  · dsimp only
    rw [(timaTicks_spec _ _).1]
    rfl
  · rfl

/-- The sub-counters stay below their periods (R27). -/
theorem timerUpdate_bounds (n : Nat) (s : State) (h : s.timer.timaSub < timerPeriod s.timer.tac) :
    (timerUpdate n s).timer.divSub < 256 ∧
    (timerUpdate n s).timer.timaSub < timerPeriod (timerUpdate n s).timer.tac := by
  unfold timerUpdate timaUpdate
  split
  · dsimp only
    rw [(timaTicks_spec _ _).1]
    exact ⟨Nat.mod_lt _ (by decide), Nat.mod_lt _ (timerPeriod_pos _)⟩
  · exact ⟨Nat.mod_lt _ (by decide), h⟩

theorem busInv_timerUpdate (n : Nat) {s : State} (h : BusInv s) : BusInv (timerUpdate n s) := by
  have hb := timerUpdate_bounds n s h.timaSub
  have hs := timerUpdate_spec n s
  rw [hs] at hb ⊢
  exact ⟨h.memory, hb.1, hb.2, h.bank, h.romBanks, h.overlay⟩

/-- The end of a step reaches the timer, IF's timer bit and the step count, and nothing else (R180). -/
theorem endStep_spec (s : State) :
    endStep s = { s with
      timer := (timerUpdate s.lastCycles s).timer, irqFlags := (timerUpdate s.lastCycles s).irqFlags, draws := s.draws + 1 } := by
  unfold endStep
  rw [timerUpdate_spec]

theorem busInv_endStep {s : State} (h : BusInv s) : BusInv (endStep s) := by
  unfold endStep
  exact (busInv_timerUpdate s.lastCycles h).congr rfl rfl rfl rfl rfl rfl

theorem busInv_bootCheck {s : State} (h : BusInv s) : BusInv (bootCheck s) := by
  refine ⟨h.memory, h.divSub, h.timaSub, h.bank, h.romBanks, ?_⟩
  intro hb
  simp only [bootCheck_bootActive, Bool.and_eq_true] at hb
  exact h.overlay hb.1

end Sys2Proof.Machine
end

