-- ==== Sys2Proof/Laws/Access.lean ====
section
/-! SUPPORT. Where an access lands: the regions by range, the I/O registers, the DMA copy, and what a byte written on the bus
makes true. -/

namespace Sys2Proof.Machine

/-- 0x0000-0x3FFF (R34). -/
theorem regionOf_fixed {a : Word} (h2 : a.toNat ≤ 0x3FFF) : regionOf a = .romFixed (a.toNat) := by
  unfold regionOf; dsimp only; split_ifs; rfl

/-- 0x4000-0x7FFF (R34). -/
theorem regionOf_banked {a : Word} (h1 : 0x4000 ≤ a.toNat) (h2 : a.toNat ≤ 0x7FFF) :
    regionOf a = .romBanked (a.toNat - 0x4000) := by
  unfold regionOf; dsimp only; split_ifs <;> first | omega | rfl

/-- 0xA000-0xBFFF (R34). -/
theorem regionOf_ext {a : Word} (h1 : 0xA000 ≤ a.toNat) (h2 : a.toNat ≤ 0xBFFF) :
    regionOf a = .extRam (a.toNat - 0xA000) := by
  unfold regionOf; dsimp only; split_ifs <;> first | omega | rfl

/-- 0xC000-0xDFFF (R34). -/
theorem regionOf_wram {a : Word} (h1 : 0xC000 ≤ a.toNat) (h2 : a.toNat ≤ 0xDFFF) :
    regionOf a = .wram (a.toNat - 0xC000) := by
  unfold regionOf; dsimp only; split_ifs <;> first | omega | rfl

/-- 0xE000-0xFDFF (R34). -/
theorem regionOf_echo {a : Word} (h1 : 0xE000 ≤ a.toNat) (h2 : a.toNat ≤ 0xFDFF) :
    regionOf a = .echo (a.toNat - 0xE000) := by
  unfold regionOf; dsimp only; split_ifs <;> first | omega | rfl

/-- 0xFF00-0xFF7F (R34). -/
theorem regionOf_io {a : Word} (h1 : 0xFF00 ≤ a.toNat) (h2 : a.toNat ≤ 0xFF7F) :
    regionOf a = .io (a.toNat - 0xFF00) := by
  unfold regionOf; dsimp only; split_ifs <;> first | omega | rfl

/-- A read of 0xFF00 + off (R35, R42). -/
theorem memRead_io (s : State) {a : Word} (off : Nat) (h : off < 0x80) (e : a.toNat = 0xFF00 + off) :
    memRead s a = .ok (ioRead s off) := by
  rw [memRead, bootByte_high (by omega), regionRead, regionOf_io (by omega) (by omega), e, Nat.add_sub_cancel_left]

/-- A write of 0xFF00 + off (R36, R42). -/
theorem memWrite_io (v : Byte) (s : State) {a : Word} (off : Nat) (h : off < 0x80) (e : a.toNat = 0xFF00 + off) :
    memWrite a v s = ioWrite off v s := by
  rw [memWrite, regionOf_io (by omega) (by omega), e, Nat.add_sub_cancel_left]

/-- A write of 0x0000-0x7FFF is the variant's register write (R58). -/
theorem memWrite_rom (v : Byte) (s : State) {a : Word} (h : a.toNat ≤ 0x7FFF) :
    memWrite a v s = .ok { s with bank := bankWrite s.cart.variant a.toNat v s.bank } := by
  rw [memWrite]
  by_cases h2 : a.toNat ≤ 0x3FFF
  · rw [regionOf_fixed h2]
  · rw [regionOf_banked (by omega) h]

/-- A read of 0xA000-0xBFFF (R55). -/
theorem memRead_ext (s : State) {a : Word} (h1 : 0xA000 ≤ a.toNat) (h2 : a.toNat ≤ 0xBFFF) :
    memRead s a = extRamRead s (a.toNat - 0xA000) := by
  rw [memRead, bootByte_high (by omega), regionRead, regionOf_ext h1 h2]

/-- A write of 0xA000-0xBFFF (R58). -/
theorem memWrite_ext (v : Byte) (s : State) {a : Word} (h1 : 0xA000 ≤ a.toNat) (h2 : a.toNat ≤ 0xBFFF) :
    memWrite a v s = extRamWrite (a.toNat - 0xA000) v s := by
  rw [memWrite, regionOf_ext h1 h2]

/-- The cell of external RAM behind an address (R57). -/
theorem extCell_eq (s : State) (a : Word) : extCell s a = extRamIndex s (a.toNat - 0xA000) := by
  unfold extCell extRamIndex ramBankSel
  cases s.cart.variant <;> rfl

/-- A read of the sprite table (R41). -/
theorem memRead_oam {s : State} {i : Nat} (hi : i < 160) :
    memRead s (BitVec.ofNat 16 (0xFE00 + i)) = .ok (ramByte .oam s.ram.oam i) := by
  have h : (BitVec.ofNat 16 (0xFE00 + i)).toNat = 0xFE00 + i := by rw [BitVec.toNat_ofNat]; omega
  rw [memRead, bootByte_high (by omega), regionRead]
  have hs := regionOf_spec (BitVec.ofNat 16 (0xFE00 + i))
  rw [h] at hs
  cases e : regionOf (BitVec.ofNat 16 (0xFE00 + i)) <;> rw [e] at hs <;> dsimp only at hs ⊢
  case oam off => rw [show off = i by omega]
  all_goals omega

/-- A write of 0xFF46 is the register's write and then the copy (R47). -/
theorem ioWrite_dma (v : Byte) (s : State) : ioWrite 0x46 v s = dmaCopy (wordOf v 0x00) 160 (setIoCell 0x46 v s) := by
  simp only [ioWrite]

/-- The addresses a DMA copy reads from (R47). -/
theorem dma_src_toNat {v : Byte} {i : Nat} (hi : i < 160) : (wordOf v 0x00 + BitVec.ofNat 16 i).toNat = v.toNat * 256 + i := by
  have hv := v.isLt
  have h0 : (wordOf v 0x00).toNat = v.toNat * 256 := by
    simp only [wordOf, BitVec.toNat_append, BitVec.ofNat_eq_ofNat, BitVec.toNat_ofNat, Nat.shiftLeft_eq]
    simp
  rw [BitVec.toNat_add, h0, BitVec.toNat_ofNat]
  omega

/-- Every byte a DMA copy writes is the one the bus read before the copy began (R47). -/
theorem dmaCopy_copies {v : Byte} {n : Nat} {s t : State} (hn : n ≤ 160) (h : dmaCopy (wordOf v 0x00) n s = .ok t) :
    ∀ k, k < n → memRead s (wordOf v 0x00 + BitVec.ofNat 16 k) = .ok (ramByte .oam t.ram.oam k) := by
  induction n generalizing t with
  | zero => intro k hk; omega
  | succ i ih =>
    simp only [dmaCopy, except_bind_eq_ok, except_map_eq_ok] at h
    obtain ⟨u, hu, b, hb, rfl⟩ := h
    obtain ⟨h1, h2, _⟩ := dmaCopy_spec hu
    intro k hk
    by_cases hki : k = i
    · subst hki
      simp only [setOam, ramStore_eq, ramByte_insert_same]
      rw [← hb]
      refine (memRead_congr _ (.inl (by rw [h1])) (by rw [h1]) (by rw [h1]) (by rw [h1]) (fun _ _ => by rw [h1])
        (fun _ _ => by rw [h1]) (fun _ _ => by rw [h1]; rfl) (fun _ _ => by rw [h1]) (fun off ho => ?_)
        (fun _ _ => by rw [h1]; rfl) (fun _ _ => by rw [h1]) (fun _ => by rw [h1])).symm
      have hs := regionOf_spec (wordOf v 0x00 + BitVec.ofNat 16 k)
      rw [ho, dma_src_toNat (by omega)] at hs
      dsimp only at hs
      exact h2 off (by omega)
    · simp only [setOam, ramStore_eq]
      rw [ramByte_insert_other _ _ _ _ _ (by omega)]
      exact ih (by omega) hu k (by omega)

/-- The three ranges of plain RAM. -/
theorem plainRam_range {a : Word} (h : plainRam a = true) :
    (0x8000 ≤ a.toNat ∧ a.toNat ≤ 0x9FFF) ∨ (0xC000 ≤ a.toNat ∧ a.toNat ≤ 0xFE9F) ∨ (0xFF80 ≤ a.toNat ∧ a.toNat ≤ 0xFFFE) := by
  simpa [plainRam, or_assoc] using h

/-- A write to plain RAM is always given a meaning (R39). -/
theorem plain_writable {s : State} {a : Word} {v : Byte} (h : plainRam a = true) : s.writable a v = true := by
  have := plainRam_range h
  have h1 : ¬ a = 65350#16 := by rw [show 65350#16 = (0xFF46 : Word) from rfl]; rw [eq_iff_toNat, toNat_ff46]; omega
  simp [State.writable, State.accessible, h1]; omega

/-- A write to plain RAM leaves the address next to it alone (R38, R39). -/
theorem touched_near {variant : Variant} {a b : Word} (hb : plainRam b = true)
    (hab : a.toNat + 1 = b.toNat ∨ b.toNat + 1 = a.toNat ∨ (a.toNat = 0xFFFF ∧ b.toNat = 0) ∨
      (b.toNat = 0xFFFF ∧ a.toNat = 0)) :
    touched variant b a = false := by
  have := plainRam_range hb
  have hne : a ≠ b := by rw [Ne, eq_iff_toNat]; omega
  have h1 : ¬ b = 65350#16 := by rw [show 65350#16 = (0xFF46 : Word) from rfl]; rw [eq_iff_toNat, toNat_ff46]; omega
  have h2 : ¬ b = 65360#16 := by rw [show 65360#16 = (0xFF50 : Word) from rfl]; rw [eq_iff_toNat, toNat_ff50]; omega
  simp [touched, mirrorOf, hne, h1, h2]
  omega

/-- A bus write, whatever the register file and PC become, is a stored byte. -/
theorem storedByte_core {a : Word} {v : Byte} {s u : State} (h : memWrite a v s = .ok u) (g : Regs) (pc : Word) (hb : Bool)
    (cyc : Nat) : StoredByte a v s { u with regs := g, pc := pc, haltBug := hb, lastCycles := cyc } := by
  refine ⟨⟨u, h, rfl⟩, fun x hx => memWrite_reads h x hx, fun hp => ?_⟩
  obtain ⟨t, ht, hr, _⟩ := memWrite_plainRam v s hp
  cases ht.symm.trans h
  exact hr

/-- Two bus writes, whatever the register file and PC become, are two stored bytes. -/
theorem storedTwo_core {a b : Word} {v w : Byte} {s u x : State} (h : memWrite a v s = .ok u) (h2 : memWrite b w u = .ok x)
    (hab : plainRam a = true → plainRam b = true → touched s.cart.variant b a = false)
    (g : Regs) (pc : Word) (hb : Bool) (cyc : Nat) :
    StoredTwo a v b w s { x with regs := g, pc := pc, haltBug := hb, lastCycles := cyc } := by
  have hv : u.cart = s.cart := by rw [memWrite_busWrite h]
  refine ⟨⟨u, x, h, h2, rfl⟩, fun y hy hz => ?_, fun ha hbb => ?_, fun hp => ?_⟩
  · exact (memWrite_reads h2 y (by rw [hv]; exact hz)).trans (memWrite_reads h y hy)
  · obtain ⟨t, ht, hr, _⟩ := memWrite_plainRam v s ha
    cases ht.symm.trans h
    exact (memWrite_reads h2 a (by rw [hv]; exact hab ha hbb)).trans hr
  · obtain ⟨t, ht, hr, _⟩ := memWrite_plainRam w u hp
    cases ht.symm.trans h2
    exact hr

end Sys2Proof.Machine
end

