-- ==== Sys2Proof/Laws/Exec.lean ====
section
/-! SUPPORT. Once for all instructions: everything an instruction can do when it answers a next state, when it stops, and what it
does to the interrupt enables. -/

namespace Sys2Proof.Machine

/-- What instructions are made of: changes of the register file, PC, `halt_bug` and the reported cycles, and byte writes on the
bus. -/
inductive Effect : State → State → Prop where
  | core {s t : State} (h : RegistersOnly s t) : Effect s t
  | write {s t : State} {a : Word} {v : Byte} (h : memWrite a v s = .ok t) : Effect s t
  | trans {s t u : State} (h1 : Effect s t) (h2 : Effect t u) : Effect s u

/-- An effect leaves the images, the parameters, the step count and the stop marks alone (R58, R21). -/
theorem Effect.constants {s t : State} (h : Effect s t) :
    t.cart = s.cart ∧ t.cfg = s.cfg ∧ t.draws = s.draws ∧ t.fault = s.fault ∧ t.refused = s.refused := by
  induction h with
  | core h => rw [h]; exact ⟨rfl, rfl, rfl, rfl, rfl⟩
  | write h => rw [memWrite_busWrite h]; exact ⟨rfl, rfl, rfl, rfl, rfl⟩
  | trans _ _ h1 h2 =>
    exact ⟨h2.1.trans h1.1, h2.2.1.trans h1.2.1, h2.2.2.1.trans h1.2.2.1, h2.2.2.2.1.trans h1.2.2.2.1,
      h2.2.2.2.2.trans h1.2.2.2.2⟩

/-- An effect keeps the bus part of the invariant. -/
theorem Effect.busInv {s t : State} (h : Effect s t) (hi : BusInv s) : BusInv t := by
  induction h with
  | core h => rw [h]; exact hi.congr rfl rfl rfl rfl rfl rfl
  | write h => exact busInv_memWrite h hi
  | trans _ _ h1 h2 => exact h2 (h1 hi)

/-- An effect never sets the boot overlay back (R48). -/
theorem Effect.bootActive {s t : State} (h : Effect s t) (hb : s.bootActive = false) : t.bootActive = false := by
  induction h with
  | core h => rw [h]; exact hb
  | write h => exact memWrite_bootActive h hb
  | trans _ _ h1 h2 => exact h2 (h1 hb)

/-- An effect leaves the power state and the interrupt enables alone (R19, R22, R23). -/
theorem Effect.control {s t : State} (h : Effect s t) : t.mode = s.mode ∧ t.ime = s.ime ∧ t.eiDelay = s.eiDelay := by
  induction h with
  | core h => rw [h]; exact ⟨rfl, rfl, rfl⟩
  | write h => rw [memWrite_busWrite h]; exact ⟨rfl, rfl, rfl⟩
  | trans _ _ h1 h2 => exact ⟨h2.1.trans h1.1, h2.2.1.trans h1.2.1, h2.2.2.trans h1.2.2⟩

theorem Effect.fetched (s : State) (length cycles : Nat) : Effect s (s.fetched length cycles) := .core rfl

/-! ## The shared operations are effects -/

theorem effect_push16 {v : Word} {s t : State} (h : push16 v s = .ok t) : Effect s t := by
  simp only [push16, except_bind_eq_ok] at h
  obtain ⟨u, hu, hw⟩ := h
  exact .trans (.core (t := s.setSp (s.regs.sp - 1)) rfl) (.trans (.write hu) (.trans (.core (t := u.setSp (u.regs.sp - 1)) rfl) (.write hw)))

theorem pop16_state {s t : State} {v : Word} (h : pop16 s = .ok (v, t)) : t = s.setSp (s.regs.sp + 2) := by
  simp only [pop16, except_bind_eq_ok, except_map_eq_ok] at h
  obtain ⟨lo, _, hi, _, h⟩ := h
  cases h
  simp only [setSp_sp]
  rw [show s.regs.sp + 1 + 1 = s.regs.sp + 2 by bv_omega]
  rfl

theorem effect_callTo {target : Word} {s t : State} (h : callTo target s = .ok t) : Effect s t := by
  simp only [callTo, except_map_eq_ok] at h
  obtain ⟨u, hu, rfl⟩ := h
  exact .trans (effect_push16 hu) (.core rfl)

theorem effect_returnPop {s t : State} (h : returnPop s = .ok t) : Effect s t := by
  simp only [returnPop, except_map_eq_ok] at h
  obtain ⟨⟨v, u⟩, hu, rfl⟩ := h
  rw [pop16_state hu]
  exact .core rfl

theorem effect_memWrite16 {a v : Word} {s t : State} (h : memWrite16 a v s = .ok t) : Effect s t := by
  simp only [memWrite16, except_bind_eq_ok] at h
  obtain ⟨u, hu, hw⟩ := h
  exact .trans (.write hu) (.write hw)

theorem effect_readHl {length cycles : Nat} {k : Byte → State → State} {s t : State} (hk : ∀ v u, RegistersOnly u (k v u))
    (h : readHl length cycles k s = .next t) : Effect s t := by
  simp only [readHl, answer_eq_next, except_map_eq_ok] at h
  obtain ⟨v, _, rfl⟩ := h
  exact .trans (.fetched s length cycles) (.core (hk v _))

theorem effect_modifyHl {length cycles : Nat} {value : Byte → Byte} {flags : Byte → Flags} {s t : State}
    (h : modifyHl length cycles value flags s = .next t) : Effect s t := by
  simp only [modifyHl, answer_eq_next, except_bind_eq_ok] at h
  obtain ⟨v, _, hw⟩ := h
  exact .trans (.core (t := (s.fetched length cycles).setFlags (flags v)) rfl) (.write hw)

theorem effect_loadA {length cycles : Nat} {address : State → Word} {s t : State}
    (h : loadA length cycles address s = .next t) : Effect s t := by
  simp only [loadA, answer_eq_next, except_map_eq_ok] at h
  obtain ⟨v, _, rfl⟩ := h
  exact .core rfl

theorem effect_storeByte {length cycles : Nat} {address : State → Word} {value : State → Byte} {s t : State}
    (h : storeByte length cycles address value s = .next t) : Effect s t := by
  simp only [storeByte, answer_eq_next] at h
  exact .trans (.fetched s length cycles) (.write h)

theorem effect_storeAThenHl {next : Word → Word} {s t : State} (h : storeAThenHl next s = .next t) : Effect s t := by
  simp only [storeAThenHl, answer_eq_next, except_map_eq_ok] at h
  obtain ⟨u, hu, rfl⟩ := h
  exact .trans (.fetched s 1 8) (.trans (.write hu) (.core rfl))

theorem effect_loadAThenHl {next : Word → Word} {s t : State} (h : loadAThenHl next s = .next t) : Effect s t := by
  simp only [loadAThenHl, answer_eq_next, except_map_eq_ok] at h
  obtain ⟨v, _, rfl⟩ := h
  exact .core rfl

theorem effect_operandPut {o : Operand8} {v : Byte} {s t : State} (h : operandPut o v s = .ok t) : Effect s t := by
  cases o with
  | reg r => cases h; exact .core rfl
  | indHl => exact .write h

theorem effect_cbRotate {op : RotOp} {o : Operand8} {s t : State} (h : cbRotate op o s = .next t) : Effect s t := by
  simp only [cbRotate, answer_eq_next, except_bind_eq_ok] at h
  obtain ⟨v, _, hw⟩ := h
  exact .trans (.core (by rfl)) (effect_operandPut hw)

theorem effect_cbBit {bit : Nat} {o : Operand8} {s t : State} (h : cbBit bit o s = .next t) : Effect s t := by
  simp only [cbBit, answer_eq_next, except_map_eq_ok] at h
  obtain ⟨v, _, rfl⟩ := h
  exact .core rfl

theorem effect_cbRes {bit : Nat} {o : Operand8} {s t : State} (h : cbRes bit o s = .next t) : Effect s t := by
  simp only [cbRes, answer_eq_next, except_bind_eq_ok] at h
  obtain ⟨v, _, hw⟩ := h
  exact .trans (.fetched s 2 (cbCycles o)) (effect_operandPut hw)

theorem effect_cbSet {bit : Nat} {o : Operand8} {s t : State} (h : cbSet bit o s = .next t) : Effect s t := by
  simp only [cbSet, answer_eq_next, except_bind_eq_ok] at h
  obtain ⟨v, _, hw⟩ := h
  exact .trans (.fetched s 2 (cbCycles o)) (effect_operandPut hw)

theorem effect_performCb {op : CbOp} {s t : State} (h : performCb op s = .next t) : Effect s t := by
  cases op with
  | rotate rot o => exact effect_cbRotate h
  | bit index o => exact effect_cbBit h
  | res index o => exact effect_cbRes h
  | set index o => exact effect_cbSet h

theorem registersOnly_setRp (rr : Rp) (v : Word) (s : State) : RegistersOnly s (s.setRp rr v) := by cases rr <;> rfl

theorem registersOnly_setRp2 (rr : Rp2) (v : Word) (s : State) : RegistersOnly s (s.setRp2 rr v) := by cases rr <;> rfl

/-! ## Every instruction -/

/-- EVERYTHING AN INSTRUCTION CAN DO when it answers a next state: an effect, and for five of them a change of the power state
or of the interrupt enables (R171, R174 to R177). -/
inductive ExecCase (i : Instr) (s t : State) : Prop where
  | plain (h : Effect s t)
  | reti (u : State) (hi : i = .reti) (h : Effect s u) (ht : t = { u with ime := true })
  | haltBug (hi : i = .halt) (h : Effect s { t with haltBug := false }) (hb : t.haltBug = true)
  | halted (hi : i = .halt) (u : State) (h : Effect s u) (ht : t = { u with mode := .halted })
  | stop (n : Byte) (hi : i = .stop n) (u : State) (h : Effect s u)
    (ht : t = { u with timer := { u.timer with div := 0x00, divSub := 0 }, mode := .stopped })
  | di (hi : i = .di) (u : State) (h : Effect s u) (ht : t = { u with ime := false, eiDelay := 0 })
  | ei (hi : i = .ei) (u : State) (h : Effect s u) (h0 : s.ime = false ∧ s.eiDelay = 0) (ht : t = { u with eiDelay := 2 })

theorem exec_case {i : Instr} {s t : State} (h : exec i s = .next t) : ExecCase i s t := by
  cases i <;> simp only [exec] at h
  case halt =>
    simp only [execHalt] at h
    split at h
    · cases h
      exact .haltBug rfl (.core rfl) rfl
    · cases h
      exact .halted rfl _ (.fetched s 1 4) rfl
  case stop n =>
    cases h
    exact .stop n rfl _ (.fetched s 2 4) rfl
  case di =>
    cases h
    exact .di rfl _ (.fetched s 1 4) rfl
  case ei =>
    simp only [execEi] at h
    split at h
    next hc =>
      cases h
      simp only [Bool.and_eq_true, Bool.not_eq_true', beq_iff_eq] at hc
      exact .ei rfl _ (.fetched s 1 4) hc rfl
    · cases h
      exact .plain (.fetched s 1 4)
  case reti =>
    simp only [execReti, answer_eq_next, returnFromInterrupt, except_map_eq_ok] at h
    obtain ⟨u, hu, rfl⟩ := h
    exact .reti u rfl (.trans (.fetched s 1 16) (effect_returnPop hu)) rfl
  all_goals apply ExecCase.plain
  case ldRIndHl dst => exact effect_readHl (fun v u => by rfl) h
  case addAIndHl | adcAIndHl | subIndHl | sbcAIndHl | andIndHl | xorIndHl | orIndHl | cpIndHl =>
    exact effect_readHl (fun v u => by rfl) h
  case incIndHl | decIndHl => exact effect_modifyHl h
  case ldAIndBc | ldAIndDe | ldAIndNn | ldhAIndN | ldAIndC => exact effect_loadA h
  case ldIndBcA | ldIndDeA | ldIndNnA | ldhIndNA | ldIndCA | ldIndHlR | ldIndHlN => exact effect_storeByte h
  case ldIndHlIncA | ldIndHlDecA => exact effect_storeAThenHl h
  case ldAIndHlInc | ldAIndHlDec => exact effect_loadAThenHl h
  case ldRrNn rr nn =>
    cases h
    exact .trans (.fetched s 3 12) (.core (registersOnly_setRp rr nn _))
  case incRr rr =>
    cases h
    exact .trans (.fetched s 1 8) (.core (registersOnly_setRp rr _ _))
  case decRr rr =>
    cases h
    exact .trans (.fetched s 1 8) (.core (registersOnly_setRp rr _ _))
  case ldIndNnSp nn =>
    simp only [execLdIndNnSp, answer_eq_next] at h
    exact .trans (.fetched s 3 20) (effect_memWrite16 h)
  case pushRr rr =>
    simp only [execPushRr, answer_eq_next] at h
    exact .trans (.fetched s 1 16) (effect_push16 h)
  case popRr rr =>
    simp only [execPopRr, answer_eq_next, except_map_eq_ok] at h
    obtain ⟨⟨v, u⟩, hu, rfl⟩ := h
    rw [pop16_state hu]
    exact .trans (.fetched s 1 12) (.trans (.core (t := (s.fetched 1 12).setSp _) rfl) (.core (registersOnly_setRp2 rr v _)))
  case jpCcNn cc nn =>
    simp only [execJpCcNn] at h
    split at h <;> (cases h; exact .core rfl)
  case jrCcE cc e =>
    simp only [execJrCcE] at h
    split at h <;> (cases h; exact .core rfl)
  case callNn nn =>
    simp only [execCallNn, answer_eq_next] at h
    exact .trans (.fetched s 3 24) (effect_callTo h)
  case callCcNn cc nn =>
    simp only [execCallCcNn] at h
    split at h
    · rw [answer_eq_next] at h
      exact .trans (.fetched s 3 24) (effect_callTo h)
    · cases h
      exact .core rfl
  case rstT target =>
    simp only [execRstT, answer_eq_next] at h
    exact .trans (.fetched s 1 16) (effect_callTo h)
  case ret =>
    simp only [execRet, answer_eq_next] at h
    exact .trans (.fetched s 1 16) (effect_returnPop h)
  case retCc cc =>
    simp only [execRetCc] at h
    split at h
    · rw [answer_eq_next] at h
      exact .trans (.fetched s 1 20) (effect_returnPop h)
    · cases h
      exact .core rfl
  case prefixCb op2 => exact effect_performCb h
  case rlcR | rlcIndHl | rrcR | rrcIndHl | rlR | rlIndHl | rrR | rrIndHl => exact effect_cbRotate h
  case slaR | slaIndHl | sraR | sraIndHl | swapR | swapIndHl | srlR | srlIndHl => exact effect_cbRotate h
  case bitBR | bitBIndHl => exact effect_cbBit h
  case resBR | resBIndHl => exact effect_cbRes h
  case setBR | setBIndHl => exact effect_cbSet h
  case illegalD3 | illegalDB | illegalDD | illegalE3 | illegalE4 | illegalEB => cases h
  case illegalEC | illegalED | illegalF4 | illegalFC | illegalFD => cases h
  all_goals (cases h; exact .core rfl)

/-- An instruction leaves the images, the parameters, the step count and the stop marks alone (R58, R21). -/
theorem exec_constants {i : Instr} {s t : State} (h : exec i s = .next t) :
    t.cart = s.cart ∧ t.cfg = s.cfg ∧ t.draws = s.draws ∧ t.fault = s.fault ∧ t.refused = s.refused := by
  cases exec_case h with
  | plain h => exact h.constants
  | reti u _ h ht => rw [ht]; exact h.constants
  | haltBug _ h _ => exact h.constants
  | halted _ u h ht => rw [ht]; exact h.constants
  | stop n _ u h ht => rw [ht]; exact h.constants
  | di _ u h ht => rw [ht]; exact h.constants
  | ei _ u h _ ht => rw [ht]; exact h.constants

/-- An instruction keeps the bus part of the invariant. -/
theorem exec_busInv {i : Instr} {s t : State} (h : exec i s = .next t) (hi : BusInv s) : BusInv t := by
  cases exec_case h with
  | plain h => exact h.busInv hi
  | reti u _ h ht => rw [ht]; exact (h.busInv hi).congr rfl rfl rfl rfl rfl rfl
  | haltBug _ h _ => exact (h.busInv hi).congr rfl rfl rfl rfl rfl rfl
  | halted _ u h ht => rw [ht]; exact (h.busInv hi).congr rfl rfl rfl rfl rfl rfl
  | stop n _ u h ht =>
    have := h.busInv hi
    rw [ht]
    exact ⟨this.memory, by simp, this.timaSub, this.bank, this.romBanks, this.overlay⟩
  | di _ u h ht => rw [ht]; exact (h.busInv hi).congr rfl rfl rfl rfl rfl rfl
  | ei _ u h _ ht => rw [ht]; exact (h.busInv hi).congr rfl rfl rfl rfl rfl rfl

/-- An instruction never sets the boot overlay back (R48). -/
theorem exec_bootActive {i : Instr} {s t : State} (h : exec i s = .next t) (hb : s.bootActive = false) :
    t.bootActive = false := by
  cases exec_case h with
  | plain h => exact h.bootActive hb
  | reti u _ h ht => rw [ht]; exact h.bootActive hb
  | haltBug _ h _ => exact h.bootActive hb
  | halted _ u h ht => rw [ht]; exact h.bootActive hb
  | stop n _ u h ht => rw [ht]; exact h.bootActive hb
  | di _ u h ht => rw [ht]; exact h.bootActive hb
  | ei _ u h _ ht => rw [ht]; exact h.bootActive hb

/-! ## When an instruction stops -/

/-- With no clock register selected every access is given a meaning (R63). -/
theorem writable_of_not_rtc {s : State} (h : rtcSelected s = false) (a : Word) (v : Byte) : s.writable a v = true := by
  simp [State.writable, State.accessible, h]

/-- What a refusal is: the clock register's, with one selected (R63, R182). -/
def RtcRefusal (s : State) (r : Refusal) : Prop := r = .rtcRegister ∧ rtcSelected s = true

theorem rtcRefusal_of_read {s : State} {a : Word} {r : Refusal} (h : memRead s a = .error r) : RtcRefusal s r := by
  have h1 := memRead_error h
  refine ⟨h1.1, ?_⟩
  have h2 := h1.2
  simp only [State.accessible, Bool.not_eq_false', Bool.and_eq_true] at h2
  exact h2.1.1

theorem rtcRefusal_of_write {a : Word} {v : Byte} {s : State} {r : Refusal} (h : memWrite a v s = .error r) :
    RtcRefusal s r := memWrite_error h

/-- An operation made of accesses that is defined when they all are, and refused only as an access is, is refused only with a
clock register selected. -/
theorem rtcRefusal_of_total {α : Type} {s : State} {x : Except Refusal α} {r : Refusal} (hr : r = .rtcRegister)
    (hok : rtcSelected s = false → ∃ a, x = .ok a) (h : x = .error r) : RtcRefusal s r := by
  refine ⟨hr, ?_⟩
  cases hs : rtcSelected s with
  | true => rfl
  | false =>
    obtain ⟨a, ha⟩ := hok hs
    rw [h] at ha
    cases ha

theorem push16_error {v : Word} {s : State} {r : Refusal} (h : push16 v s = .error r) : RtcRefusal s r := by
  refine rtcRefusal_of_total ?_ (fun hs => ?_) h
  · simp only [push16, except_bind_eq_error] at h
    rcases h with h | ⟨u, _, h⟩
    · exact (memWrite_error h).1
    · exact (memWrite_error h).1
  · obtain ⟨u, w, _, _, hp⟩ := push16_ok (v := v) (s := s) (by
      simp [State.pushable, writable_of_not_rtc hs])
    exact ⟨_, hp⟩

theorem pop16_error {s : State} {r : Refusal} (h : pop16 s = .error r) : RtcRefusal s r := by
  simp only [pop16, except_bind_eq_error, except_map_eq_error] at h
  rcases h with h | ⟨u, _, h⟩
  · exact rtcRefusal_of_read h
  · exact rtcRefusal_of_read (s := s.setSp (s.regs.sp + 1)) h

theorem callTo_error {target : Word} {s : State} {r : Refusal} (h : callTo target s = .error r) : RtcRefusal s r := by
  rw [callTo, except_map_eq_error] at h
  exact push16_error h

theorem returnPop_error {s : State} {r : Refusal} (h : returnPop s = .error r) : RtcRefusal s r := by
  rw [returnPop, except_map_eq_error] at h
  exact pop16_error h

theorem memWrite16_error {a v : Word} {s : State} {r : Refusal} (h : memWrite16 a v s = .error r) : RtcRefusal s r := by
  refine rtcRefusal_of_total ?_ (fun hs => ?_) h
  · simp only [memWrite16, except_bind_eq_error] at h
    rcases h with h | ⟨u, _, h⟩
    · exact (memWrite_error h).1
    · exact (memWrite_error h).1
  · obtain ⟨u, hu⟩ := memWrite_ok (writable_of_not_rtc hs a (loByte v))
    obtain ⟨w, hw⟩ := memWrite_ok (writable_after hu (.inl rfl) (writable_of_not_rtc hs (a + 1) (hiByte v)))
    exact ⟨w, by rw [memWrite16, hu, except_bind_ok, hw]⟩

theorem operandGet_error {o : Operand8} {s : State} {r : Refusal} (h : operandGet s o = .error r) : RtcRefusal s r := by
  cases o with
  | reg q => cases h
  | indHl => exact rtcRefusal_of_read h

theorem operandPut_error {o : Operand8} {v : Byte} {s : State} {r : Refusal} (h : operandPut o v s = .error r) :
    RtcRefusal s r := by
  cases o with
  | reg q => cases h
  | indHl => exact rtcRefusal_of_write h

theorem readHl_refused {length cycles : Nat} {k : Byte → State → State} {s : State} {r : Refusal}
    (h : readHl length cycles k s = .refused r) : RtcRefusal s r := by
  simp only [readHl, answer_eq_refused, except_map_eq_error] at h
  exact rtcRefusal_of_read (s := s.fetched length cycles) h

theorem modifyHl_refused {length cycles : Nat} {value : Byte → Byte} {flags : Byte → Flags} {s : State} {r : Refusal}
    (h : modifyHl length cycles value flags s = .refused r) : RtcRefusal s r := by
  simp only [modifyHl, answer_eq_refused, except_bind_eq_error] at h
  rcases h with h | ⟨u, _, h⟩
  · exact rtcRefusal_of_read (s := s.fetched length cycles) h
  · exact rtcRefusal_of_write (s := (s.fetched length cycles).setFlags (flags u)) h

theorem performCb_refused {op : CbOp} {s : State} {r : Refusal} (h : performCb op s = .refused r) : RtcRefusal s r := by
  cases op with
  | bit index o =>
    simp only [performCb, cbBit, answer_eq_refused, except_map_eq_error] at h
    exact operandGet_error (s := s.fetched 2 (bitCycles o)) h
  | rotate rot o =>
    simp only [performCb, cbRotate, answer_eq_refused, except_bind_eq_error] at h
    rcases h with h | ⟨u, _, h⟩
    · exact operandGet_error (s := s.fetched 2 (cbCycles o)) h
    · exact operandPut_error (s := (s.fetched 2 (cbCycles o)).setFlags _) h
  | res index o =>
    simp only [performCb, cbRes, answer_eq_refused, except_bind_eq_error] at h
    rcases h with h | ⟨u, _, h⟩
    · exact operandGet_error (s := s.fetched 2 (cbCycles o)) h
    · exact operandPut_error (s := s.fetched 2 (cbCycles o)) h
  | set index o =>
    simp only [performCb, cbSet, answer_eq_refused, except_bind_eq_error] at h
    rcases h with h | ⟨u, _, h⟩
    · exact operandGet_error (s := s.fetched 2 (cbCycles o)) h
    · exact operandPut_error (s := s.fetched 2 (cbCycles o)) h

/-- An instruction is refused only for the clock register (R182). -/
theorem exec_refused {i : Instr} {s : State} {r : Refusal} (h : exec i s = .refused r) : RtcRefusal s r := by
  cases i <;> simp only [exec] at h
  case ldRIndHl | addAIndHl | adcAIndHl | subIndHl | sbcAIndHl | andIndHl | xorIndHl | orIndHl | cpIndHl =>
    exact readHl_refused h
  case incIndHl | decIndHl => exact modifyHl_refused h
  case ldAIndBc | ldAIndDe | ldAIndNn | ldhAIndN | ldAIndC =>
    simp only [execLdAIndBc, execLdAIndDe, execLdAIndNn, execLdhAIndN, execLdAIndC, loadA, answer_eq_refused,
      except_map_eq_error] at h
    exact rtcRefusal_of_read (s := s.fetched _ _) h
  case ldIndBcA | ldIndDeA | ldIndNnA | ldhIndNA | ldIndCA | ldIndHlR | ldIndHlN =>
    simp only [execLdIndBcA, execLdIndDeA, execLdIndNnA, execLdhIndNA, execLdIndCA, execLdIndHlR, execLdIndHlN, storeByte,
      answer_eq_refused] at h
    exact rtcRefusal_of_write (s := s.fetched _ _) h
  case ldIndHlIncA | ldIndHlDecA =>
    simp only [execLdIndHlIncA, execLdIndHlDecA, storeAThenHl, answer_eq_refused, except_map_eq_error] at h
    exact rtcRefusal_of_write (s := s.fetched 1 8) h
  case ldAIndHlInc | ldAIndHlDec =>
    simp only [execLdAIndHlInc, execLdAIndHlDec, loadAThenHl, answer_eq_refused, except_map_eq_error] at h
    exact rtcRefusal_of_read (s := s.fetched 1 8) h
  case ldIndNnSp nn =>
    simp only [execLdIndNnSp, answer_eq_refused] at h
    exact memWrite16_error (s := s.fetched 3 20) h
  case pushRr rr =>
    simp only [execPushRr, answer_eq_refused] at h
    exact push16_error (s := s.fetched 1 16) h
  case popRr rr =>
    simp only [execPopRr, answer_eq_refused, except_map_eq_error] at h
    exact pop16_error (s := s.fetched 1 12) h
  case jpCcNn cc nn =>
    simp only [execJpCcNn] at h
    split at h <;> cases h
  case jrCcE cc e =>
    simp only [execJrCcE] at h
    split at h <;> cases h
  case callNn | rstT =>
    simp only [execCallNn, execRstT, answer_eq_refused] at h
    exact callTo_error (s := s.fetched _ _) h
  case callCcNn cc nn =>
    simp only [execCallCcNn] at h
    split at h
    · rw [answer_eq_refused] at h
      exact callTo_error (s := s.fetched _ _) h
    · cases h
  case ret =>
    simp only [execRet, answer_eq_refused] at h
    exact returnPop_error (s := s.fetched _ _) h
  case retCc cc =>
    simp only [execRetCc] at h
    split at h
    · rw [answer_eq_refused] at h
      exact returnPop_error (s := s.fetched _ _) h
    · cases h
  case reti =>
    simp only [execReti, answer_eq_refused, returnFromInterrupt, except_map_eq_error] at h
    exact returnPop_error (s := s.fetched _ _) h
  case halt =>
    simp only [execHalt] at h
    split at h <;> cases h
  case ei =>
    simp only [execEi] at h
    split at h <;> cases h
  case prefixCb op2 => exact performCb_refused h
  case rlcR r => exact performCb_refused (op := .rotate .rlc (.reg r)) h
  case rlcIndHl => exact performCb_refused (op := .rotate .rlc .indHl) h
  case rrcR r => exact performCb_refused (op := .rotate .rrc (.reg r)) h
  case rrcIndHl => exact performCb_refused (op := .rotate .rrc .indHl) h
  case rlR r => exact performCb_refused (op := .rotate .rl (.reg r)) h
  case rlIndHl => exact performCb_refused (op := .rotate .rl .indHl) h
  case rrR r => exact performCb_refused (op := .rotate .rr (.reg r)) h
  case rrIndHl => exact performCb_refused (op := .rotate .rr .indHl) h
  case slaR r => exact performCb_refused (op := .rotate .sla (.reg r)) h
  case slaIndHl => exact performCb_refused (op := .rotate .sla .indHl) h
  case sraR r => exact performCb_refused (op := .rotate .sra (.reg r)) h
  case sraIndHl => exact performCb_refused (op := .rotate .sra .indHl) h
  case swapR r => exact performCb_refused (op := .rotate .swap (.reg r)) h
  case swapIndHl => exact performCb_refused (op := .rotate .swap .indHl) h
  case srlR r => exact performCb_refused (op := .rotate .srl (.reg r)) h
  case srlIndHl => exact performCb_refused (op := .rotate .srl .indHl) h
  case bitBR b r => exact performCb_refused (op := .bit b (.reg r)) h
  case bitBIndHl b => exact performCb_refused (op := .bit b .indHl) h
  case resBR b r => exact performCb_refused (op := .res b (.reg r)) h
  case resBIndHl b => exact performCb_refused (op := .res b .indHl) h
  case setBR b r => exact performCb_refused (op := .set b (.reg r)) h
  case setBIndHl b => exact performCb_refused (op := .set b .indHl) h
  all_goals cases h

end Sys2Proof.Machine
end

