-- ==== Sys2Proof/Laws/Instr.lean ====
section
/-! SUPPORT. The shared operations of the instructions, on the state after the fetch, and the arithmetic helpers as numbers. -/

namespace Sys2Proof.Machine

theorem regs_f_setReg (s : State) (r : Reg8) (v : Byte) : (s.setReg r v).regs.f = s.regs.f := by cases r <;> rfl

theorem regs_sp_setReg (s : State) (r : Reg8) (v : Byte) : (s.setReg r v).regs.sp = s.regs.sp := by cases r <;> rfl

/-- A register write is a load of it. -/
theorem loaded_setReg (r : Reg8) (v : Byte) (s t : State) (h : t.regs = s.regs) : Loaded r v s (t.setReg r v) := by
  refine ⟨reg_setReg_same .., fun q hq => ?_, ?_, ?_⟩
  · rw [reg_setReg_other _ _ _ _ hq]; simp only [State.reg, h]
  · rw [regs_f_setReg, h]
  · rw [regs_sp_setReg, h]

/-- A write that is refused is refused whatever the register file and PC are. -/
theorem memWrite_core_error {a : Word} {v : Byte} {s : State} {e : Refusal} (g : Regs) (pc : Word) (hb : Bool) (cyc : Nat)
    (h : memWrite a v s = .error e) :
    memWrite a v { s with regs := g, pc := pc, haltBug := hb, lastCycles := cyc } = .error e := by
  cases hx : memWrite a v { s with regs := g, pc := pc, haltBug := hb, lastCycles := cyc } with
  | error r => rw [(memWrite_error hx).1, (memWrite_error h).1]
  | ok t =>
    have := memWrite_core s.regs s.pc s.haltBug s.lastCycles hx
    rw [show memWrite a v s = _ from this] at h
    cases h

/-- The address 0xFF00 + n (R78). -/
theorem highPage_eq (n : Byte) : highPage n = BitVec.ofNat 16 (0xFF00 + n.toNat) := by
  unfold highPage; bv_omega

/-- Where PC stands after a fetch (R79, R80). -/
theorem nextAddress_fetched (s : State) (l c : Nat) : (s.fetched l c).pc = s.nextAddress l := rfl

/-- A load of A from a readable address. -/
theorem loadA_ok {l c : Nat} {f : State → Word} {s : State} {v : Byte} (h : memRead s (f (s.fetched l c)) = .ok v) :
    loadA l c f s = .next ((s.fetched l c).setReg .a v) := by
  simp [loadA, h]

/-- An instruction that reads a readable byte at HL. -/
theorem readHl_ok {l c : Nat} {k : Byte → State → State} {s : State} {v : Byte} (h : memRead s s.hl = .ok v) :
    readHl l c k s = .next (k v (s.fetched l c)) := by
  simp [readHl, h]

/-- A store of one byte. -/
theorem storeByte_ok {l c : Nat} {f : State → Word} {g : State → Byte} {s u : State}
    (h : memWrite (f (s.fetched l c)) (g (s.fetched l c)) s = .ok u) :
    storeByte l c f g s = .next { u with regs := s.regs, pc := s.nextAddress l, haltBug := false, lastCycles := c } := by
  have := memWrite_fetched l c h
  have hb := memWrite_busWrite h
  simp only [storeByte, this, answer_ok]
  rw [hb]

/-- An instruction that reads the byte at HL and writes one back (R72). -/
theorem modifyHl_ok {l c : Nat} {value : Byte → Byte} {flags : Byte → Flags} {s : State} {m v : Byte}
    (hm : memRead s s.hl = .ok m) (hv : value m = v) (hw : s.writable s.hl v = true) :
    ∃ t, modifyHl l c value flags s = .next t ∧ StoredByte s.hl v s t ∧ t.regs = { s.regs with f := flags m } ∧
      Advanced l c s t := by
  obtain ⟨u, hu⟩ := memWrite_ok hw
  have e := memWrite_core { s.regs with f := flags m } (s.nextAddress l) false c hu
  refine ⟨_, ?_, storedByte_core hu _ _ _ _, rfl, rfl, rfl, rfl⟩
  unfold modifyHl
  show answer ((memRead s s.hl).bind fun v => memWrite s.hl (value v) ((s.fetched l c).setFlags (flags v))) = _
  rw [hm, except_bind_ok, hv]
  exact congrArg answer e

/-- The two addresses of a push lie next to each other. -/
theorem sub_near (w : Word) :
    (w - 1).toNat + 1 = (w - 2).toNat ∨ (w - 2).toNat + 1 = (w - 1).toNat ∨
      ((w - 1).toNat = 0xFFFF ∧ (w - 2).toNat = 0) ∨ ((w - 2).toNat = 0xFFFF ∧ (w - 1).toNat = 0) := by
  bv_omega

/-- A push after a fetch (R90). -/
theorem push_fetched (l c : Nat) {s : State} {v : Word} (h : s.pushable v = true) :
    ∃ x : State, push16 v (s.fetched l c) = .ok { x with
        regs := { s.regs with sp := s.regs.sp - 2 }, pc := s.nextAddress l, haltBug := false, lastCycles := c } ∧
      ∀ (g : Regs) (pc : Word) (hb : Bool) (cyc : Nat),
        StoredTwo (s.regs.sp - 1) (hiByte v) (s.regs.sp - 2) (loByte v) s
          { x with regs := g, pc := pc, haltBug := hb, lastCycles := cyc } := by
  obtain ⟨u, w, hu, hw, _⟩ := push16_ok h
  have e1 := memWrite_fetched l c hu
  have e2 := memWrite_core u.regs (s.nextAddress l) false c hw
  refine ⟨w, ?_, fun g pc hb cyc => ?_⟩
  · have := push16_eq (s := s.fetched l c) (v := v) e1 e2
    rw [this]
    rfl
  · exact storedTwo_core hu hw (fun _ h => touched_near h (sub_near _)) _ _ _ _

/-- A pop after a fetch (R90). -/
theorem pop_fetched (l c : Nat) {s : State} {lo hi : Byte} (h1 : memRead s s.regs.sp = .ok lo)
    (h2 : memRead s (s.regs.sp + 1) = .ok hi) :
    pop16 (s.fetched l c) = .ok (wordOf hi lo, (s.fetched l c).setSp (s.regs.sp + 2)) :=
  pop16_eq (s := s.fetched l c) h1 h2

/-- CALL's and RST's operation after a fetch (R167, R172). -/
theorem callTo_fetched (l c : Nat) (target : Word) {s : State} (h : s.pushable (s.nextAddress l) = true) :
    ∃ t, answer (callTo target (s.fetched l c)) = .next t ∧ Jumped target c t ∧
      StoredTwo (s.regs.sp - 1) (hiByte (s.nextAddress l)) (s.regs.sp - 2) (loByte (s.nextAddress l)) s t ∧
      t.regs = { s.regs with sp := s.regs.sp - 2 } := by
  obtain ⟨x, h1, h2⟩ := push_fetched l c h
  refine ⟨_, ?_, ⟨rfl, rfl, rfl⟩, h2 { s.regs with sp := s.regs.sp - 2 } target false c, rfl⟩
  unfold callTo
  rw [nextAddress_fetched, h1]; rfl

/-- `Add8`'s value (R117). -/
theorem add8_toNat (a b : Byte) (c : Bool) : (add8 a b c).value.toNat = (a.toNat + b.toNat + c.toNat) % 256 := by
  simp [add8]

/-- `Add8`'s half-carry (R117). -/
theorem add8_half (a b : Byte) (c : Bool) : (add8 a b c).half = true ↔ a.toNat % 16 + b.toNat % 16 + c.toNat > 15 := by
  simp [add8]

/-- `Add8`'s carry (R117). -/
theorem add8_carry (a b : Byte) (c : Bool) : (add8 a b c).carry = true ↔ a.toNat + b.toNat + c.toNat > 255 := by
  simp [add8]

/-- `Sub8`'s value (R117). -/
theorem sub8_toNat (a b : Byte) (c : Bool) : (sub8 a b c).value.toNat = (a.toNat + 512 - b.toNat - c.toNat) % 256 := by
  simp [sub8]
  have := c.toNat_le
  have := a.isLt; have := b.isLt
  omega

/-- `Sub8`'s half-borrow (R117). -/
theorem sub8_half (a b : Byte) (c : Bool) : (sub8 a b c).half = true ↔ a.toNat % 16 < b.toNat % 16 + c.toNat := by
  simp [sub8]; omega

/-- `Sub8`'s borrow (R117). -/
theorem sub8_carry (a b : Byte) (c : Bool) : (sub8 a b c).carry = true ↔ a.toNat < b.toNat + c.toNat := by
  simp [sub8]; omega

/-- `SpOffset`'s value (R136). -/
theorem spOffset_toNat (st : SpOffsetFlags) (sp : Word) (e : Byte) :
    ((spOffset st sp e).value.toNat : Int) = ((sp.toNat : Int) + e.toInt) % 65536 := by
  have : (spOffset st sp e).value = sp + sext16 e := by cases st <;> rfl
  rw [this, BitVec.toNat_add]
  have he : ((sext16 e).toNat : Int) = e.toInt % 65536 := by
    unfold sext16
    rw [BitVec.signExtend, BitVec.toNat_ofInt]
    have := Int.emod_nonneg e.toInt (b := 65536) (by decide)
    simp [this]
  omega

/-- A bank number with 0 coerced to 1 (R61 to R63). -/
theorem coerce_toNat (v : BitVec 9) : (coerceBank v).toNat = if v.toNat = 0 then 1 else v.toNat := by
  unfold coerceBank
  by_cases h : v = 0
  · rw [if_pos h, h]; rfl
  · rw [if_neg h, if_neg]; intro hc; apply h; apply BitVec.eq_of_toNat_eq; exact hc

/-- A CB-page instruction never faults. -/
theorem performCb_nf (op : CbOp) (s : State) (f : Fault) : performCb op s ≠ .fault f := by
  cases op <;> exact answer_ne_fault

theorem byte_and_0f (v : Byte) : (v &&& 0x0F).toNat = v.toNat % 16 := by
  rw [BitVec.toNat_and]; exact Nat.and_two_pow_sub_one_eq_mod v.toNat 4

/-- The low five bits of a byte. -/
theorem byte_and_1f (v : Byte) : (v &&& 0x1F).toNat = v.toNat % 32 := by
  rw [BitVec.toNat_and]; exact Nat.and_two_pow_sub_one_eq_mod v.toNat 5

/-- The low two bits of a byte. -/
theorem byte_and_03 (v : Byte) : (v &&& 0x03).toNat = v.toNat % 4 := by
  rw [BitVec.toNat_and]; exact Nat.and_two_pow_sub_one_eq_mod v.toNat 2

/-- Variant-5's bank number with its low 8 bits replaced (R64). -/
theorem romBank_low (r : BitVec 9) (v : Byte) : ((r &&& 0x100) ||| v.setWidth 9).toNat = r.toNat / 256 * 256 + v.toNat := by
  have hv := v.isLt
  have hr := r.isLt
  have hand : r.toNat &&& (BitVec.toNat (256 : BitVec 9)) = r.toNat / 256 * 256 := by
    have h2 : r.toNat / 256 = 0 ∨ r.toNat / 256 = 1 := by omega
    show r.toNat &&& 2 ^ 8 = _
    rw [Nat.and_two_pow, Nat.testBit_eq_decide_div_mod_eq]
    rcases h2 with h | h <;> simp [h]
  rw [BitVec.toNat_or, BitVec.toNat_and, BitVec.toNat_setWidth, Nat.mod_eq_of_lt (by omega), hand, Nat.mul_comm]
  exact (Nat.two_pow_add_eq_or_of_lt (i := 8) hv (r.toNat / 256)).symm

/-- Variant-5's bank number with its bit 8 replaced (R64). -/
theorem romBank_high (r : BitVec 9) (v : Byte) :
    ((r &&& 0x0FF) ||| ((v &&& 0x01).setWidth 9 <<< 8)).toNat = v.toNat % 2 * 256 + r.toNat % 256 := by
  have hb : (v &&& 0x01).toNat = v.toNat % 2 := by
    rw [BitVec.toNat_and]; exact Nat.and_two_pow_sub_one_eq_mod v.toNat 1
  have hr : (r &&& 0x0FF).toNat = r.toNat % 256 := by
    rw [BitVec.toNat_and]; exact Nat.and_two_pow_sub_one_eq_mod r.toNat 8
  have hl : ((v &&& 0x01).setWidth 9 <<< 8).toNat = 2 ^ 8 * (v.toNat % 2) := by
    rw [BitVec.toNat_shiftLeft, BitVec.toNat_setWidth, hb, Nat.shiftLeft_eq]
    omega
  rw [BitVec.toNat_or, Nat.or_comm]
  refine (congrArg₂ (· ||| ·) hl hr).trans ?_
  rw [Nat.mul_comm _ 256]
  exact (Nat.two_pow_add_eq_or_of_lt (i := 8) (Nat.mod_lt _ (by decide)) (v.toNat % 2)).symm

/-- `RamGate(v)` (R59). -/
theorem ramGate_eq (v : Byte) (b : Bank) : ramGate v b = { b with ramEnable := gateAfter v b.ramEnable } := by
  unfold ramGate gateAfter
  have e := byte_and_0f v
  have h1 : (v &&& 0x0F = 0x0A) ↔ v.toNat % 16 = 10 := by rw [← BitVec.toNat_inj, e]; rfl
  have h2 : (v &&& 0x0F = 0x00) ↔ v.toNat % 16 = 0 := by rw [← BitVec.toNat_inj, e]; rfl
  simp only [h1, h2]
  split
  · rfl
  · split <;> rfl

end Sys2Proof.Machine
end

