-- ==== Sys2Proof/Laws/PerInstr.lean ====
section
/-! SUPPORT. The family EncodeLength, instruction by instruction: the first byte of an encoding fixes its length (30_encoding R75,
R82). -/

namespace Sys2Proof.Laws.EncodeLength

/-- The encoding of the instruction has an opcode byte, and as many bytes as that byte says. -/
def Statement (i : Instr) : Prop := ∃ op rest, encode i = op :: rest ∧ (encode i).length = instrLength op

theorem nop : Statement .nop :=
  ⟨_, _, rfl, rfl⟩

theorem ldRrNn (rr : Rp) (nn : Word) : Statement (.ldRrNn rr nn) := by
  cases rr <;> exact ⟨_, _, rfl, rfl⟩

theorem ldIndBcA : Statement .ldIndBcA :=
  ⟨_, _, rfl, rfl⟩

theorem incRr (rr : Rp) : Statement (.incRr rr) := by
  cases rr <;> exact ⟨_, _, rfl, rfl⟩

theorem incR (r : Reg8) : Statement (.incR r) := by
  cases r <;> exact ⟨_, _, rfl, rfl⟩

theorem decR (r : Reg8) : Statement (.decR r) := by
  cases r <;> exact ⟨_, _, rfl, rfl⟩

theorem ldRN (r : Reg8) (n : Byte) : Statement (.ldRN r n) := by
  cases r <;> exact ⟨_, _, rfl, rfl⟩

theorem rlca : Statement .rlca :=
  ⟨_, _, rfl, rfl⟩

theorem ldIndNnSp (nn : Word) : Statement (.ldIndNnSp nn) :=
  ⟨_, _, rfl, rfl⟩

theorem addHlRr (rr : Rp) : Statement (.addHlRr rr) := by
  cases rr <;> exact ⟨_, _, rfl, rfl⟩

theorem ldAIndBc : Statement .ldAIndBc :=
  ⟨_, _, rfl, rfl⟩

theorem decRr (rr : Rp) : Statement (.decRr rr) := by
  cases rr <;> exact ⟨_, _, rfl, rfl⟩

theorem rrca : Statement .rrca :=
  ⟨_, _, rfl, rfl⟩

theorem stop (n : Byte) : Statement (.stop n) :=
  ⟨_, _, rfl, rfl⟩

theorem ldIndDeA : Statement .ldIndDeA :=
  ⟨_, _, rfl, rfl⟩

theorem rla : Statement .rla :=
  ⟨_, _, rfl, rfl⟩

theorem jrE (e : Byte) : Statement (.jrE e) :=
  ⟨_, _, rfl, rfl⟩

theorem ldAIndDe : Statement .ldAIndDe :=
  ⟨_, _, rfl, rfl⟩

theorem rra : Statement .rra :=
  ⟨_, _, rfl, rfl⟩

theorem jrCcE (cc : Cond) (e : Byte) : Statement (.jrCcE cc e) := by
  cases cc <;> exact ⟨_, _, rfl, rfl⟩

theorem ldIndHlIncA : Statement .ldIndHlIncA :=
  ⟨_, _, rfl, rfl⟩

theorem daa : Statement .daa :=
  ⟨_, _, rfl, rfl⟩

theorem ldAIndHlInc : Statement .ldAIndHlInc :=
  ⟨_, _, rfl, rfl⟩

theorem cpl : Statement .cpl :=
  ⟨_, _, rfl, rfl⟩

theorem ldIndHlDecA : Statement .ldIndHlDecA :=
  ⟨_, _, rfl, rfl⟩

theorem incIndHl : Statement .incIndHl :=
  ⟨_, _, rfl, rfl⟩

theorem decIndHl : Statement .decIndHl :=
  ⟨_, _, rfl, rfl⟩

theorem ldIndHlN (n : Byte) : Statement (.ldIndHlN n) :=
  ⟨_, _, rfl, rfl⟩

theorem scf : Statement .scf :=
  ⟨_, _, rfl, rfl⟩

theorem ldAIndHlDec : Statement .ldAIndHlDec :=
  ⟨_, _, rfl, rfl⟩

theorem ccf : Statement .ccf :=
  ⟨_, _, rfl, rfl⟩

theorem ldRR (dst src : Reg8) : Statement (.ldRR dst src) := by
  cases dst <;> cases src <;> exact ⟨_, _, rfl, rfl⟩

theorem ldRIndHl (dst : Reg8) : Statement (.ldRIndHl dst) := by
  cases dst <;> exact ⟨_, _, rfl, rfl⟩

theorem ldIndHlR (src : Reg8) : Statement (.ldIndHlR src) := by
  cases src <;> exact ⟨_, _, rfl, rfl⟩

theorem halt : Statement .halt :=
  ⟨_, _, rfl, rfl⟩

theorem addAR (src : Reg8) : Statement (.addAR src) := by
  cases src <;> exact ⟨_, _, rfl, rfl⟩

theorem addAIndHl : Statement .addAIndHl :=
  ⟨_, _, rfl, rfl⟩

theorem adcAR (src : Reg8) : Statement (.adcAR src) := by
  cases src <;> exact ⟨_, _, rfl, rfl⟩

theorem adcAIndHl : Statement .adcAIndHl :=
  ⟨_, _, rfl, rfl⟩

theorem subR (src : Reg8) : Statement (.subR src) := by
  cases src <;> exact ⟨_, _, rfl, rfl⟩

theorem subIndHl : Statement .subIndHl :=
  ⟨_, _, rfl, rfl⟩

theorem sbcAR (src : Reg8) : Statement (.sbcAR src) := by
  cases src <;> exact ⟨_, _, rfl, rfl⟩

theorem sbcAIndHl : Statement .sbcAIndHl :=
  ⟨_, _, rfl, rfl⟩

theorem andR (src : Reg8) : Statement (.andR src) := by
  cases src <;> exact ⟨_, _, rfl, rfl⟩

theorem andIndHl : Statement .andIndHl :=
  ⟨_, _, rfl, rfl⟩

theorem xorR (src : Reg8) : Statement (.xorR src) := by
  cases src <;> exact ⟨_, _, rfl, rfl⟩

theorem xorIndHl : Statement .xorIndHl :=
  ⟨_, _, rfl, rfl⟩

theorem orR (src : Reg8) : Statement (.orR src) := by
  cases src <;> exact ⟨_, _, rfl, rfl⟩

theorem orIndHl : Statement .orIndHl :=
  ⟨_, _, rfl, rfl⟩

theorem cpR (src : Reg8) : Statement (.cpR src) := by
  cases src <;> exact ⟨_, _, rfl, rfl⟩

theorem cpIndHl : Statement .cpIndHl :=
  ⟨_, _, rfl, rfl⟩

theorem retCc (cc : Cond) : Statement (.retCc cc) := by
  cases cc <;> exact ⟨_, _, rfl, rfl⟩

theorem popRr (rr : Rp2) : Statement (.popRr rr) := by
  cases rr <;> exact ⟨_, _, rfl, rfl⟩

theorem jpCcNn (cc : Cond) (nn : Word) : Statement (.jpCcNn cc nn) := by
  cases cc <;> exact ⟨_, _, rfl, rfl⟩

theorem jpNn (nn : Word) : Statement (.jpNn nn) :=
  ⟨_, _, rfl, rfl⟩

theorem callCcNn (cc : Cond) (nn : Word) : Statement (.callCcNn cc nn) := by
  cases cc <;> exact ⟨_, _, rfl, rfl⟩

theorem pushRr (rr : Rp2) : Statement (.pushRr rr) := by
  cases rr <;> exact ⟨_, _, rfl, rfl⟩

theorem addAN (n : Byte) : Statement (.addAN n) :=
  ⟨_, _, rfl, rfl⟩

theorem rstT (target : Byte) : Statement (.rstT target) := by
  refine ⟨_, _, rfl, ?_⟩
  revert target
  decide

theorem ret : Statement .ret :=
  ⟨_, _, rfl, rfl⟩

theorem prefixCb (op2 : Byte) : Statement (.prefixCb op2) :=
  ⟨_, _, rfl, rfl⟩

theorem callNn (nn : Word) : Statement (.callNn nn) :=
  ⟨_, _, rfl, rfl⟩

theorem adcAN (n : Byte) : Statement (.adcAN n) :=
  ⟨_, _, rfl, rfl⟩

theorem illegalD3 : Statement .illegalD3 :=
  ⟨_, _, rfl, rfl⟩

theorem subN (n : Byte) : Statement (.subN n) :=
  ⟨_, _, rfl, rfl⟩

theorem reti : Statement .reti :=
  ⟨_, _, rfl, rfl⟩

theorem illegalDB : Statement .illegalDB :=
  ⟨_, _, rfl, rfl⟩

theorem illegalDD : Statement .illegalDD :=
  ⟨_, _, rfl, rfl⟩

theorem sbcAN (n : Byte) : Statement (.sbcAN n) :=
  ⟨_, _, rfl, rfl⟩

theorem ldhIndNA (n : Byte) : Statement (.ldhIndNA n) :=
  ⟨_, _, rfl, rfl⟩

theorem ldIndCA : Statement .ldIndCA :=
  ⟨_, _, rfl, rfl⟩

theorem illegalE3 : Statement .illegalE3 :=
  ⟨_, _, rfl, rfl⟩

theorem illegalE4 : Statement .illegalE4 :=
  ⟨_, _, rfl, rfl⟩

theorem andN (n : Byte) : Statement (.andN n) :=
  ⟨_, _, rfl, rfl⟩

theorem addSpE (e : Byte) : Statement (.addSpE e) :=
  ⟨_, _, rfl, rfl⟩

theorem jpHl : Statement .jpHl :=
  ⟨_, _, rfl, rfl⟩

theorem ldIndNnA (nn : Word) : Statement (.ldIndNnA nn) :=
  ⟨_, _, rfl, rfl⟩

theorem illegalEB : Statement .illegalEB :=
  ⟨_, _, rfl, rfl⟩

theorem illegalEC : Statement .illegalEC :=
  ⟨_, _, rfl, rfl⟩

theorem illegalED : Statement .illegalED :=
  ⟨_, _, rfl, rfl⟩

theorem xorN (n : Byte) : Statement (.xorN n) :=
  ⟨_, _, rfl, rfl⟩

theorem ldhAIndN (n : Byte) : Statement (.ldhAIndN n) :=
  ⟨_, _, rfl, rfl⟩

theorem ldAIndC : Statement .ldAIndC :=
  ⟨_, _, rfl, rfl⟩

theorem di : Statement .di :=
  ⟨_, _, rfl, rfl⟩

theorem illegalF4 : Statement .illegalF4 :=
  ⟨_, _, rfl, rfl⟩

theorem orN (n : Byte) : Statement (.orN n) :=
  ⟨_, _, rfl, rfl⟩

theorem ldHlSpE (e : Byte) : Statement (.ldHlSpE e) :=
  ⟨_, _, rfl, rfl⟩

theorem ldSpHl : Statement .ldSpHl :=
  ⟨_, _, rfl, rfl⟩

theorem ldAIndNn (nn : Word) : Statement (.ldAIndNn nn) :=
  ⟨_, _, rfl, rfl⟩

theorem ei : Statement .ei :=
  ⟨_, _, rfl, rfl⟩

theorem illegalFC : Statement .illegalFC :=
  ⟨_, _, rfl, rfl⟩

theorem illegalFD : Statement .illegalFD :=
  ⟨_, _, rfl, rfl⟩

theorem cpN (n : Byte) : Statement (.cpN n) :=
  ⟨_, _, rfl, rfl⟩

theorem rlcR (r : Reg8) : Statement (.rlcR r) :=
  ⟨_, _, rfl, rfl⟩

theorem rlcIndHl : Statement .rlcIndHl :=
  ⟨_, _, rfl, rfl⟩

theorem rrcR (r : Reg8) : Statement (.rrcR r) :=
  ⟨_, _, rfl, rfl⟩

theorem rrcIndHl : Statement .rrcIndHl :=
  ⟨_, _, rfl, rfl⟩

theorem rlR (r : Reg8) : Statement (.rlR r) :=
  ⟨_, _, rfl, rfl⟩

theorem rlIndHl : Statement .rlIndHl :=
  ⟨_, _, rfl, rfl⟩

theorem rrR (r : Reg8) : Statement (.rrR r) :=
  ⟨_, _, rfl, rfl⟩

theorem rrIndHl : Statement .rrIndHl :=
  ⟨_, _, rfl, rfl⟩

theorem slaR (r : Reg8) : Statement (.slaR r) :=
  ⟨_, _, rfl, rfl⟩

theorem slaIndHl : Statement .slaIndHl :=
  ⟨_, _, rfl, rfl⟩

theorem sraR (r : Reg8) : Statement (.sraR r) :=
  ⟨_, _, rfl, rfl⟩

theorem sraIndHl : Statement .sraIndHl :=
  ⟨_, _, rfl, rfl⟩

theorem swapR (r : Reg8) : Statement (.swapR r) :=
  ⟨_, _, rfl, rfl⟩

theorem swapIndHl : Statement .swapIndHl :=
  ⟨_, _, rfl, rfl⟩

theorem srlR (r : Reg8) : Statement (.srlR r) :=
  ⟨_, _, rfl, rfl⟩

theorem srlIndHl : Statement .srlIndHl :=
  ⟨_, _, rfl, rfl⟩

theorem bitBR (bit : Nat) (r : Reg8) : Statement (.bitBR bit r) :=
  ⟨_, _, rfl, rfl⟩

theorem bitBIndHl (bit : Nat) : Statement (.bitBIndHl bit) :=
  ⟨_, _, rfl, rfl⟩

theorem resBR (bit : Nat) (r : Reg8) : Statement (.resBR bit r) :=
  ⟨_, _, rfl, rfl⟩

theorem resBIndHl (bit : Nat) : Statement (.resBIndHl bit) :=
  ⟨_, _, rfl, rfl⟩

theorem setBR (bit : Nat) (r : Reg8) : Statement (.setBR bit r) :=
  ⟨_, _, rfl, rfl⟩

theorem setBIndHl (bit : Nat) : Statement (.setBIndHl bit) :=
  ⟨_, _, rfl, rfl⟩

end Sys2Proof.Laws.EncodeLength
end

