-- ==== Sys2Proof/Laws/Step.lean ====
section
/-! SUPPORT. Once for the machine step: what a completed step is, what every step keeps, and when a step stops. -/

namespace Sys2Proof.Machine

/-! ## Fetching -/

theorem memRead_bootCheck_high (s : State) (x : Word) (h : 0xFF < x.toNat) : memRead (bootCheck s) x = memRead s x :=
  memRead_congr x (.inr h) rfl rfl rfl (fun _ _ => rfl) (fun _ _ => rfl) (fun _ _ => rfl) (fun _ _ => rfl) (fun _ _ => rfl)
    (fun _ _ => rfl) (fun _ _ => rfl) (fun _ => rfl)

/-- The bytes at PC, no more of them than the instruction has, are what is decoded (R79 to R82). -/
theorem fetchInstr_eq {s : State} {op byte2 byte3 : Byte} (h1 : memRead s s.pc = .ok op)
    (h2 : 2 ≤ instrLength op → memRead s s.afterOpcode = .ok byte2) (h2' : instrLength op < 2 → byte2 = 0)
    (h3 : 3 ≤ instrLength op → memRead s (s.afterOpcode + 1) = .ok byte3) (h3' : instrLength op < 3 → byte3 = 0) :
    fetchInstr s = .ok (decodeOpcode op byte2 byte3) := by
  unfold fetchInstr
  rw [h1, except_bind_ok]
  dsimp only
  by_cases c2 : 2 ≤ instrLength op
  · rw [if_pos c2, h2 c2, except_bind_ok]
    by_cases c3 : 3 ≤ instrLength op
    · rw [if_pos c3, h3 c3, except_map_ok]
    · rw [if_neg c3, except_map_ok, h3' (by omega)]
  · rw [if_neg c2, except_bind_ok, if_neg (by omega), except_map_ok, h2' (by omega), h3' (by omega)]

theorem fetchInstr_error {s : State} {r : Refusal} (h : fetchInstr s = .error r) : RtcRefusal s r := by
  simp only [fetchInstr, except_bind_eq_error, except_map_eq_error] at h
  rcases h with h | ⟨op, _, h | ⟨b, _, h⟩⟩
  · exact rtcRefusal_of_read h
  · split at h
    · exact rtcRefusal_of_read h
    · cases h
  · split at h
    · exact rtcRefusal_of_read h
    · cases h

/-! ## Taking an interrupt -/

/-- Everything a dispatch can do (R188). -/
theorem dispatch_case {s t : State} (h : dispatch s = .ok t) :
    ∃ u, push16 s.returnAddress { s with
        irqFlags := s.irqFlags &&& ~~~(1#5 <<< lowestSource s.pending), ime := false, eiDelay := 0, haltBug := false } = .ok u ∧
      t = { u with mode := .running, pc := vectorOf (lowestSource s.pending), lastCycles := s.cfg.intDispatchCycles } := by
  simp only [dispatch, except_map_eq_ok] at h
  obtain ⟨u, hu, rfl⟩ := h
  exact ⟨u, hu, rfl⟩

theorem dispatch_error {s : State} {r : Refusal} (h : dispatch s = .error r) : RtcRefusal s r := by
  simp only [dispatch, except_map_eq_error] at h
  exact push16_error (s := { s with
    irqFlags := s.irqFlags &&& ~~~(1#5 <<< lowestSource s.pending), ime := false, eiDelay := 0, haltBug := false }) h

/-! ## The step -/

/-- WHAT A COMPLETED STEP IS: one of four things, from a state that holds no stop (R180, R181). -/
inductive StepCase (s t : State) : Prop where
  | stopped (hm : s.mode = .stopped) (ht : t = endStep (idle (bootCheck s)))
  | dispatched (hm : s.mode ≠ .stopped) (hime : s.ime = true) (hp : s.pending ≠ 0) (u : State)
    (hd : dispatch (bootCheck s) = .ok u) (ht : t = endStep u)
  | halted (hm : s.mode = .halted) (hn : s.ime = false ∨ s.pending = 0) (ht : t = endStep (idle (wake (bootCheck s))))
  | executed (hm : s.mode = .running) (hn : s.ime = false ∨ s.pending = 0) (i : Instr) (u : State)
    (hf : fetchInstr (bootCheck s) = .ok i) (he : exec i (bootCheck s) = .next u) (ht : t = endStep (eiTick u))

theorem pending_bootCheck (s : State) : (bootCheck s).pending = s.pending := rfl

/-- The machine step when nothing has stopped the machine. -/
theorem step_running {s : State} (hf : s.fault = none) (hr : s.refused = false) : step s = processorStep (bootCheck s) := by
  simp [step, machineStep, hf, hr]

/-- A step that runs an instruction (R181). -/
theorem step_executes {s : State} (hf : s.fault = none) (hr : s.refused = false) (hm : s.mode = .running)
    (hn : s.ime = false ∨ s.pending = 0) : step s = executeStep (bootCheck s) := by
  rw [step_running hf hr]
  unfold processorStep
  have h1 : ¬ ((bootCheck s).ime && (bootCheck s).pending != 0) = true := by
    rw [pending_bootCheck, bootCheck_ime]
    rcases hn with hn | hn <;> simp [hn]
  rw [bootCheck_mode, hm, if_neg (by decide), if_neg h1, if_neg (by decide)]

/-- A step that takes an interrupt (R181). -/
theorem step_dispatches {s : State} (hf : s.fault = none) (hr : s.refused = false) (hm : s.mode ≠ .stopped)
    (hime : s.ime = true) (hp : s.pending ≠ 0) : step s = dispatchStep (bootCheck s) := by
  rw [step_running hf hr]
  unfold processorStep
  have h1 : ((bootCheck s).ime && (bootCheck s).pending != 0) = true := by
    rw [pending_bootCheck, bootCheck_ime]
    rw [hime, Bool.true_and, bne_iff_ne]
    exact hp
  rw [bootCheck_mode, if_neg hm, if_pos h1]

theorem step_case {s t : State} (h : step s = .next t) : s.fault = none ∧ s.refused = false ∧ StepCase s t := by
  have hf : s.fault = none := by
    unfold step machineStep at h
    split at h
    · cases h
    · assumption
  have hr : s.refused = false := by
    unfold step machineStep at h
    rw [hf] at h
    dsimp only at h
    split at h
    · cases h
    · simp_all
  refine ⟨hf, hr, ?_⟩
  by_cases hm : s.mode = .stopped
  · rw [step_running hf hr, processorStep, bootCheck_mode, if_pos hm] at h
    cases h
    exact .stopped hm rfl
  by_cases hd : s.ime = true ∧ s.pending ≠ 0
  · rw [step_dispatches hf hr hm hd.1 hd.2, dispatchStep] at h
    cases hu : dispatch (bootCheck s) with
    | error r => rw [hu] at h; cases h
    | ok u =>
      rw [hu] at h
      cases h
      exact .dispatched hm hd.1 hd.2 u hu rfl
  have hn : s.ime = false ∨ s.pending = 0 := by
    by_cases hi : s.ime = true
    · exact .inr (by_contra fun hc => hd ⟨hi, hc⟩)
    · exact .inl (by simpa using hi)
  by_cases hh : s.mode = .halted
  · rw [step_running hf hr, processorStep, bootCheck_mode, if_neg hm, if_neg (by
      rw [pending_bootCheck, bootCheck_ime]
      rcases hn with hn | hn <;> simp [hn]), if_pos hh] at h
    cases h
    exact .halted hh hn rfl
  have hmr : s.mode = .running := by
    cases hc : s.mode <;> simp_all
  rw [step_executes hf hr hmr hn, executeStep] at h
  cases hfi : fetchInstr (bootCheck s) with
  | error r => rw [hfi] at h; cases h
  | ok i =>
    rw [hfi] at h
    dsimp only at h
    cases he : exec i (bootCheck s) with
    | fault f => rw [he] at h; cases h
    | refused r => rw [he] at h; cases h
    | next u =>
      rw [he] at h
      cases h
      exact .executed hmr hn i u hfi he rfl

theorem endStep_core (s : State) :
    (endStep s).cart = s.cart ∧ (endStep s).cfg = s.cfg ∧ (endStep s).fault = s.fault ∧ (endStep s).refused = s.refused ∧
    (endStep s).bootActive = s.bootActive ∧ (endStep s).mode = s.mode ∧ (endStep s).ime = s.ime ∧
    (endStep s).eiDelay = s.eiDelay ∧ (endStep s).regs = s.regs ∧ (endStep s).pc = s.pc := by
  rw [endStep_spec]
  exact ⟨rfl, rfl, rfl, rfl, rfl, rfl, rfl, rfl, rfl, rfl⟩

theorem wake_core (s : State) : wake s = { s with mode := (wake s).mode } := by
  unfold wake
  split <;> rfl

/-- A completed step leaves the images, the parameters and the stop marks alone, and never brings the overlay back (R30, R58,
R48). -/
theorem step_constants {s t : State} (h : step s = .next t) :
    t.cart = s.cart ∧ t.cfg = s.cfg ∧ t.fault = none ∧ t.refused = false ∧ (s.bootActive = false → t.bootActive = false) := by
  obtain ⟨hf, hr, hc⟩ := step_case h
  have hb : s.bootActive = false → (bootCheck s).bootActive = false := by
    intro hb
    simp [hb]
  cases hc with
  | stopped _ ht =>
    rw [ht]
    have := endStep_core (idle (bootCheck s))
    exact ⟨this.1, this.2.1, this.2.2.1.trans hf, this.2.2.2.1.trans hr, fun h => this.2.2.2.2.1.trans (hb h)⟩
  | dispatched _ _ _ u hd ht =>
    obtain ⟨w, hw, hu⟩ := dispatch_case hd
    have he := effect_push16 hw
    have hk := he.constants
    rw [ht]
    have := endStep_core u
    rw [hu] at this ⊢
    exact ⟨this.1.trans hk.1, this.2.1.trans hk.2.1, this.2.2.1.trans (hk.2.2.2.1.trans hf),
      this.2.2.2.1.trans (hk.2.2.2.2.trans hr), fun h => this.2.2.2.2.1.trans (he.bootActive (hb h))⟩
  | halted _ _ ht =>
    rw [ht]
    have := endStep_core (idle (wake (bootCheck s)))
    rw [wake_core] at this ⊢
    exact ⟨this.1, this.2.1, this.2.2.1.trans hf, this.2.2.2.1.trans hr, fun h => this.2.2.2.2.1.trans (hb h)⟩
  | executed _ _ i u _ he ht =>
    have hk := exec_constants he
    rw [ht]
    have := endStep_core (eiTick u)
    rw [eiTick_spec] at this ⊢
    exact ⟨this.1.trans hk.1, this.2.1.trans hk.2.1, this.2.2.1.trans (hk.2.2.2.1.trans hf),
      this.2.2.2.1.trans (hk.2.2.2.2.trans hr), fun h => this.2.2.2.2.1.trans (exec_bootActive (t := u) he (hb h))⟩

/-- A step stops only for an illegal byte or the clock register, or because it had stopped before (R182). -/
theorem step_refused {s : State} {r : Refusal} (h : step s = .refused r) :
    RtcRefusal s r ∨ (r = .alreadyRefused ∧ s.refused = true) := by
  unfold step machineStep at h
  split at h
  · cases h
  split at h
  next hr => cases h; exact .inr ⟨rfl, hr⟩
  unfold processorStep at h
  split at h
  · cases h
  split at h
  · unfold dispatchStep at h
    cases hd : dispatch (bootCheck s) with
    | error r' => rw [hd] at h; cases h; exact .inl (show RtcRefusal s r from dispatch_error (s := bootCheck s) hd)
    | ok u => rw [hd] at h; cases h
  split at h
  · cases h
  unfold executeStep at h
  cases hf : fetchInstr (bootCheck s) with
  | error r' => rw [hf] at h; cases h; exact .inl (show RtcRefusal s r from fetchInstr_error (s := bootCheck s) hf)
  | ok i =>
    rw [hf] at h
    dsimp only at h
    cases he : exec i (bootCheck s) with
    | next u => rw [he] at h; cases h
    | fault f => rw [he] at h; cases h
    | refused r' => rw [he] at h; cases h; exact .inl (show RtcRefusal s r from exec_refused (s := bootCheck s) he)

end Sys2Proof.Machine
end

