-- ==== Sys2Proof/Laws/Timer.lean ====
section
/-! SUPPORT. The timer as numbers: TIMA's increments up to and past one overflow, and what the timer depends on. -/

namespace Sys2Proof.Machine

/-- TIMA increments short of an overflow (R196). -/
theorem timaTicks_value (n : Nat) (s : State) (h : s.timer.tima.toNat + n < 256) :
    (timaTicks n s).timer.tima.toNat = s.timer.tima.toNat + n ∧ (timaTicks n s).irqFlags = s.irqFlags := by
  induction n with
  | zero => exact ⟨rfl, rfl⟩
  | succ k ih =>
    obtain ⟨h1, h2⟩ := ih (by omega)
    show (timaTick (timaTicks k s)).timer.tima.toNat = _ ∧ (timaTick (timaTicks k s)).irqFlags = _
    have : ¬ (timaTicks k s).timer.tima = 0xFF := by
      intro hc; rw [hc] at h1; have : (0xFF:Byte).toNat = 255 := rfl; omega
    rw [timaTick, if_neg this]
    refine ⟨?_, h2⟩
    show ((timaTicks k s).timer.tima + 1).toNat = _
    rw [BitVec.toNat_add, h1]; have : (1:Byte).toNat = 1 := rfl; omega

theorem timaTicks_add (a b : Nat) (s : State) : timaTicks (a + b) s = timaTicks b (timaTicks a s) := by
  induction b with
  | zero => rfl
  | succ k ih => show timaTick (timaTicks (a + k) s) = timaTick _; rw [ih]

theorem timaTicks_if_mono (n : Nat) (s : State) (h : s.irqFlags = s.irqFlags ||| (1#5 <<< 2)) :
    (timaTicks n s).irqFlags = s.irqFlags := by
  rcases (timaTicks_spec n s).2 with e | e <;> rw [e]; exact h.symm

/-- TIMA increments past one overflow: IF's timer bit is set, and TIMA counts on from TMA (R196). -/
theorem timaTicks_over (n : Nat) (s : State) (h : 256 ≤ s.timer.tima.toNat + n) :
    (timaTicks n s).irqFlags = s.irqFlags ||| 0b00100#5 ∧
    (s.timer.tima.toNat + n < 256 + (256 - s.timer.tma.toNat) →
      (timaTicks n s).timer.tima.toNat + 256 = s.timer.tima.toNat + n + s.timer.tma.toNat) := by
  have hl := s.timer.tima.isLt
  obtain ⟨k, rfl⟩ : ∃ k, n = (255 - s.timer.tima.toNat) + 1 + k := ⟨n - (256 - s.timer.tima.toNat), by omega⟩
  rw [timaTicks_add]
  obtain ⟨h1, h2⟩ := timaTicks_value (255 - s.timer.tima.toNat) s (by omega)
  have hsp := (timaTicks_spec (255 - s.timer.tima.toNat) s).1
  generalize hu : timaTicks (255 - s.timer.tima.toNat) s = u at h1 h2 hsp
  have e : timaTicks (255 - s.timer.tima.toNat + 1) s = timaTick u := by rw [← hu]; rfl
  have h255 : u.timer.tima = 0xFF := by
    apply BitVec.eq_of_toNat_eq; rw [h1]; have : (0xFF:Byte).toNat = 255 := rfl; omega
  have ht : timaTick u = ({ u with timer := { u.timer with tima := u.timer.tma } } : State).requestInterrupt 2 := by
    rw [timaTick, if_pos h255]
  have htma : u.timer.tma = s.timer.tma := by rw [hsp]
  have hflags : (timaTick u).irqFlags = s.irqFlags ||| (1#5 <<< 2) := by rw [ht]; show u.irqFlags ||| _ = _; rw [h2]
  rw [e]
  refine ⟨?_, fun hlt => ?_⟩
  · rw [timaTicks_if_mono k]
    · rw [hflags]; rfl
    · rw [hflags, BitVec.or_assoc, BitVec.or_self]
  · have htt : (timaTick u).timer.tima = s.timer.tma := by rw [ht]; exact htma
    have := (timaTicks_value k (timaTick u) (by rw [htt]; omega)).1
    rw [this, htt]; omega

theorem timaTicks_congr (n : Nat) {s t : State} (ht : t.timer = s.timer) (hf : t.irqFlags = s.irqFlags) :
    (timaTicks n t).timer = (timaTicks n s).timer ∧ (timaTicks n t).irqFlags = (timaTicks n s).irqFlags := by
  induction n with
  | zero => exact ⟨ht, hf⟩
  | succ k ih =>
    show (timaTick (timaTicks k t)).timer = (timaTick (timaTicks k s)).timer ∧ _ = (timaTick (timaTicks k s)).irqFlags
    show _ ∧ (timaTick (timaTicks k t)).irqFlags = _
    unfold timaTick
    rw [ih.1]
    split
    · exact ⟨by simp, by simp [ih.2]⟩
    · exact ⟨rfl, ih.2⟩

/-- The timer sees nothing but itself and IF (R196). -/
theorem timerUpdate_congr (n : Nat) {s t : State} (ht : t.timer = s.timer) (hf : t.irqFlags = s.irqFlags) :
    (timerUpdate n t).timer = (timerUpdate n s).timer ∧ (timerUpdate n t).irqFlags = (timerUpdate n s).irqFlags := by
  have hd : (divUpdate n t).timer = (divUpdate n s).timer := by simp only [divUpdate, ht]
  unfold timerUpdate timaUpdate
  rw [hd]
  split
  · exact timaTicks_congr _ (by dsimp only) hf
  · exact ⟨hd, hf⟩

/-- IF is kept, or its timer bit is set (R196). -/
theorem timerUpdate_irqFlags (n : Nat) (s : State) :
    (timerUpdate n s).irqFlags = s.irqFlags ∨ (timerUpdate n s).irqFlags = s.irqFlags ||| 0b00100#5 := by
  unfold timerUpdate timaUpdate
  split
  · exact (timaTicks_spec _ _).2
  · exact .inl rfl

/-- Every address but DIV, TIMA and IF reads as before the timer's update (R45, R196). -/
theorem memRead_timerUpdate (n : Nat) (s : State) {x : Word} (h4 : x ≠ 0xFF04) (h5 : x ≠ 0xFF05) (hF : x ≠ 0xFF0F) :
    memRead (timerUpdate n s) x = memRead s x := by
  rw [timerUpdate_spec]
  refine memRead_congr x (.inl rfl) rfl rfl rfl (fun _ _ => rfl) (fun _ _ => rfl) (fun _ _ => rfl) (fun _ _ => rfl)
    (fun _ _ => rfl) (fun off hr => ?_) (fun _ _ => rfl) (fun _ => rfl)
  have hx := regionOf_spec x
  rw [hr] at hx
  dsimp only at hx
  have hne : ∀ {k : Nat} {w : Word}, w.toNat = 0xFF00 + k → x ≠ w → off ≠ k := by
    intro k w hw hxw hk
    exact hxw (eq_iff_toNat.mpr (by omega))
  have k4 := hne (k := 0x04) rfl h4
  have k5 := hne (k := 0x05) rfl h5
  have kF := hne (k := 0x0F) rfl hF
  unfold ioRead
  split <;> first | rfl | contradiction

/-- DIV and its sub-counter (R196). -/
theorem timerUpdate_div (n : Nat) (s : State) :
    (timerUpdate n s).timer.div = s.timer.div + BitVec.ofNat 8 ((s.timer.divSub + n) / 256) ∧
    (timerUpdate n s).timer.divSub = (s.timer.divSub + n) % 256 := by
  unfold timerUpdate timaUpdate
  split
  · dsimp only
    rw [(timaTicks_spec _ _).1]; exact ⟨rfl, rfl⟩
  · exact ⟨rfl, rfl⟩

end Sys2Proof.Machine
end

