-- ==== Sys2Proof/Tests/Slice0.lean ====
section
/-! SUPPORT. The model's own tests: ill-formed terms, words written out from the encodings, one step per instruction with the
spec's own example, and a witness for every hypothesis of the statements. -/

namespace Sys2Proof.Tests

open Sys2Proof Sys2Proof.Machine

/-! ## Ill-formed terms, each refused by its check (R77, R156, R172, R178) -/

theorem test_bit_index_refused : Instr.wellFormed (.bitBR 8 .b) = false := by decide
theorem test_bit_hl_index_refused : Instr.wellFormed (.bitBIndHl 8) = false := by decide
theorem test_res_index_refused : Instr.wellFormed (.resBR 8 .b) = false := by decide
theorem test_res_hl_index_refused : Instr.wellFormed (.resBIndHl 8) = false := by decide
theorem test_set_index_refused : Instr.wellFormed (.setBR 8 .a) = false := by decide
theorem test_set_hl_index_refused : Instr.wellFormed (.setBIndHl 8) = false := by decide
theorem test_rst_target_refused : Instr.wellFormed (.rstT 0x01) = false ∧ Instr.wellFormed (.rstT 0x40) = false := by decide
theorem test_lead_byte_refused : Instr.wellFormed (.prefixCb 0x00) = false := by decide

/-! ## Decoding: words written out bit by bit from the encodings of R75 to R85 -/

/-- The bytes are exactly one instruction, `i`. -/
def reads (bytes : List Byte) (i : Instr) : Bool :=
  match decode bytes with
  | .ok (j, []) => decide (j = i)
  | _ => false

theorem test_decode_loads8 :
    reads [0b01000001] (.ldRR .b .c) ∧ reads [0b01111101] (.ldRR .a .l) ∧ reads [0b01010110] (.ldRIndHl .d) ∧
    reads [0b01110011] (.ldIndHlR .e) ∧ reads [0b00100110, 0x9C] (.ldRN .h 0x9C) ∧
    reads [0b00110110, 0x99] (.ldIndHlN 0x99) ∧ reads [0b00001010] .ldAIndBc ∧ reads [0b00011010] .ldAIndDe ∧
    reads [0b00000010] .ldIndBcA ∧ reads [0b00010010] .ldIndDeA ∧
    reads [0b11111010, 0x34, 0x12] (.ldAIndNn 0x1234) ∧ reads [0b11101010, 0x34, 0x12] (.ldIndNnA 0x1234) := by decide

theorem test_decode_high_page_and_stepping :
    reads [0b11110000, 0x05] (.ldhAIndN 0x05) ∧ reads [0b11100000, 0x07] (.ldhIndNA 0x07) ∧ reads [0b11110010] .ldAIndC ∧
    reads [0b11100010] .ldIndCA ∧ reads [0b00100010] .ldIndHlIncA ∧ reads [0b00110010] .ldIndHlDecA ∧
    reads [0b00101010] .ldAIndHlInc ∧ reads [0b00111010] .ldAIndHlDec := by decide

theorem test_decode_loads16 :
    reads [0b00000001, 0x34, 0x12] (.ldRrNn .bc 0x1234) ∧ reads [0b00110001, 0xFE, 0xFF] (.ldRrNn .sp 0xFFFE) ∧
    reads [0b00001000, 0x00, 0xC1] (.ldIndNnSp 0xC100) ∧ reads [0b11111001] .ldSpHl ∧
    reads [0b11111000, 0x08] (.ldHlSpE 0x08) ∧
    reads [0b11000101] (.pushRr .bc) ∧ reads [0b11110101] (.pushRr .af) ∧ reads [0b11010001] (.popRr .de) ∧
    reads [0b11100001] (.popRr .hl) := by decide

theorem test_decode_alu8 :
    reads [0b10000000] (.addAR .b) ∧ reads [0b10000110] .addAIndHl ∧ reads [0b11000110, 0x03] (.addAN 0x03) ∧
    reads [0b10001011] (.adcAR .e) ∧ reads [0b10001110] .adcAIndHl ∧ reads [0b11001110, 0x01] (.adcAN 0x01) ∧
    reads [0b10010001] (.subR .c) ∧ reads [0b10010110] .subIndHl ∧ reads [0b11010110, 0x0F] (.subN 0x0F) ∧
    reads [0b10011100] (.sbcAR .h) ∧ reads [0b10011110] .sbcAIndHl ∧ reads [0b11011110, 0x3A] (.sbcAN 0x3A) := by decide

theorem test_decode_logic :
    reads [0b10100101] (.andR .l) ∧ reads [0b10100110] .andIndHl ∧ reads [0b11100110, 0x38] (.andN 0x38) ∧
    reads [0b10101111] (.xorR .a) ∧ reads [0b10101110] .xorIndHl ∧ reads [0b11101110, 0x0F] (.xorN 0x0F) ∧
    reads [0b10110111] (.orR .a) ∧ reads [0b10110110] .orIndHl ∧ reads [0b11110110, 0x03] (.orN 0x03) ∧
    reads [0b10111000] (.cpR .b) ∧ reads [0b10111110] .cpIndHl ∧ reads [0b11111110, 0x3C] (.cpN 0x3C) := by decide

theorem test_decode_incdec_and_accumulator :
    reads [0b00000100] (.incR .b) ∧ reads [0b00111100] (.incR .a) ∧ reads [0b00110100] .incIndHl ∧
    reads [0b00101101] (.decR .l) ∧ reads [0b00110101] .decIndHl ∧ reads [0b00100111] .daa ∧ reads [0b00101111] .cpl ∧
    reads [0b00110111] .scf ∧ reads [0b00111111] .ccf := by decide

theorem test_decode_alu16 :
    reads [0b00001001] (.addHlRr .bc) ∧ reads [0b00111001] (.addHlRr .sp) ∧ reads [0b00010011] (.incRr .de) ∧
    reads [0b00101011] (.decRr .hl) ∧ reads [0b11101000, 0x02] (.addSpE 0x02) := by decide

theorem test_decode_rotates :
    reads [0b00000111] .rlca ∧ reads [0b00001111] .rrca ∧ reads [0b00010111] .rla ∧ reads [0b00011111] .rra ∧
    reads [0b11001011, 0b00000000] (.rlcR .b) ∧ reads [0b11001011, 0b00000110] .rlcIndHl ∧
    reads [0b11001011, 0b00001001] (.rrcR .c) ∧ reads [0b11001011, 0b00001110] .rrcIndHl ∧
    reads [0b11001011, 0b00010101] (.rlR .l) ∧ reads [0b11001011, 0b00010110] .rlIndHl ∧
    reads [0b11001011, 0b00011111] (.rrR .a) ∧ reads [0b11001011, 0b00011110] .rrIndHl := by decide

theorem test_decode_shifts_and_bits :
    reads [0b11001011, 0b00100010] (.slaR .d) ∧ reads [0b11001011, 0b00100110] .slaIndHl ∧
    reads [0b11001011, 0b00101111] (.sraR .a) ∧ reads [0b11001011, 0b00101110] .sraIndHl ∧
    reads [0b11001011, 0b00110111] (.swapR .a) ∧ reads [0b11001011, 0b00110110] .swapIndHl ∧
    reads [0b11001011, 0b00111101] (.srlR .l) ∧ reads [0b11001011, 0b00111110] .srlIndHl ∧
    reads [0b11001011, 0b01111111] (.bitBR 7 .a) ∧ reads [0b11001011, 0b01010110] (.bitBIndHl 2) ∧
    reads [0b11001011, 0b10111000] (.resBR 7 .b) ∧ reads [0b11001011, 0b10011110] (.resBIndHl 3) ∧
    reads [0b11001011, 0b11001011] (.setBR 1 .e) ∧ reads [0b11001011, 0b11011110] (.setBIndHl 3) := by decide

theorem test_decode_control :
    reads [0b11000011, 0x50, 0x01] (.jpNn 0x0150) ∧ reads [0b11001010, 0x00, 0x02] (.jpCcNn .z 0x0200) ∧
    reads [0b11101001] .jpHl ∧ reads [0b00011000, 0x05] (.jrE 0x05) ∧ reads [0b00110000, 0xFA] (.jrCcE .nc 0xFA) ∧
    reads [0b11001101, 0x05, 0x01] (.callNn 0x0105) ∧ reads [0b11000100, 0x00, 0x20] (.callCcNn .nz 0x2000) ∧
    reads [0b11001001] .ret ∧ reads [0b11011000] (.retCc .c) ∧ reads [0b11011001] .reti ∧
    reads [0b11101111] (.rstT 0x28) := by decide

theorem test_decode_system :
    reads [0b00000000] .nop ∧ reads [0b01110110] .halt ∧ reads [0b00010000, 0x00] (.stop 0x00) ∧
    reads [0b11110011] .di ∧ reads [0b11111011] .ei ∧ reads [0b11010011] .illegalD3 ∧ reads [0b11011011] .illegalDB ∧
    reads [0b11011101] .illegalDD ∧ reads [0b11100011] .illegalE3 ∧ reads [0b11100100] .illegalE4 ∧
    reads [0b11101011] .illegalEB ∧ reads [0b11101100] .illegalEC ∧ reads [0b11101101] .illegalED ∧
    reads [0b11110100] .illegalF4 ∧ reads [0b11111100] .illegalFC ∧ reads [0b11111101] .illegalFD := by decide

/-! ## One step per instruction

Each places the bytes at PC, takes one machine step and looks at what the spec's example of that instruction's rule names.  A
second value in a test, where the rule has no example of that form, is worked out by hand from the rule. -/

/-- No register set, F = 0x00, SP = 0xFFFE, at 0x0100 on the blank cartridge. -/
def base : State :=
  { State.reset with
    regs := { a := 0, f := Flags.ofByte 0x00, b := 0, c := 0, d := 0, e := 0, h := 0, l := 0, sp := 0xFFFE } }

/-- `base` with A and F as given. -/
def withAF (a f : Byte) : State := { base with regs := { base.regs with a := a, f := Flags.ofByte f } }

/-- `base` with A, F and HL as given, and one byte of `wram`. -/
def atHl (a f : Byte) (hl : Word) (cell : Nat) (v : Byte) : State :=
  { withAF a f with
    regs := { (withAF a f).regs with h := hiByte hl, l := loByte hl }
    ram := { base.ram with wram := [(cell, v)] } }

/-- One step on the instruction whose bytes are given, and a check of the state it leaves. -/
def gives (bytes : List Byte) (s : State) (check : State → Bool) : Bool :=
  match step (placeInstr bytes s) with
  | .next t => check t
  | .fault _ => false
  | .refused _ => false

/-- A and F after a step. -/
def hasAF (a f : Byte) (t : State) : Bool := t.regs.a == a && t.regs.f.toByte == f

/-- PC, SP and the reported cycles after a step. -/
def hasPcSp (pc sp : Word) (cycles : Nat) (t : State) : Bool := t.pc == pc && t.regs.sp == sp && t.lastCycles == cycles

/-! Loads (R92 to R116). -/

theorem test_ldRR : gives [0x41] { base with regs := { base.regs with b := 0x12, c := 0x34 } }
    (fun t => t.regs.b == 0x34 && t.regs.c == 0x34 && t.pc == 0x0101 && t.lastCycles == 4) = true := by decide
theorem test_ldRN : gives [0x3E, 0x05] base (fun t => t.regs.a == 0x05 && t.pc == 0x0102 && t.lastCycles == 8) = true := by decide
theorem test_ldRIndHl : gives [0x46] (atHl 0 0 0xC000 0 0x77) (fun t => t.regs.b == 0x77) = true := by decide
/-- LD H,(HL) reads at the old HL. -/
theorem test_ldRIndHl_own_address : gives [0x66] (atHl 0 0 0xC000 0 0x77) (fun t => t.hl == 0x7700) = true := by decide
theorem test_ldIndHlR : gives [0x77] (atHl 0x5A 0 0xC010 0 0x77)
    (fun t => t.ram.wram == [(0, 0x77), (0x10, 0x5A)]) = true := by decide
theorem test_ldIndHlN : gives [0x36, 0x99] (atHl 0 0 0xFF80 0 0x77)
    (fun t => t.ram.hram == [(0, 0x99)] && t.lastCycles == 12) = true := by decide
theorem test_ldAIndBc : gives [0x0A]
    { base with regs := { base.regs with b := 0xC1 }, ram := { base.ram with wram := [(0x100, 0x3C)] } }
    (fun t => t.regs.a == 0x3C) = true := by decide
theorem test_ldAIndDe : gives [0x1A]
    { base with regs := { base.regs with d := 0x40 }, cart := { base.cart with rom := [(0x4000, 0xAA)] } }
    (fun t => t.regs.a == 0xAA) = true := by decide
theorem test_ldIndBcA : gives [0x02] { base with regs := { base.regs with b := 0xC0, a := 0x01 } }
    (fun t => t.ram.wram == [(0, 0x01)]) = true := by decide
theorem test_ldIndDeA : gives [0x12] { base with regs := { base.regs with d := 0xFF, e := 0x80, a := 0x02 } }
    (fun t => t.ram.hram == [(0, 0x02)]) = true := by decide
theorem test_ldAIndNn : gives [0xFA, 0x00, 0xC0] (atHl 0 0 0 0 0x42)
    (fun t => t.regs.a == 0x42 && t.pc == 0x0103 && t.lastCycles == 16) = true := by decide
/-- A write to a cartridge register, on variant-1. -/
theorem test_ldIndNnA : gives [0xEA, 0x00, 0x20]
    { withAF 0x05 0 with cart := { base.cart with variant := .v1 } } (fun t => t.bank.romBank == 5) = true := by decide
theorem test_ldhAIndN : gives [0xF0, 0x05] { base with timer := { base.timer with tima := 0x10 } }
    (fun t => t.regs.a == 0x10 && t.lastCycles == 12) = true := by decide
theorem test_ldhIndNA : gives [0xE0, 0x07] (withAF 0x05 0) (fun t => t.timer.tac == 0b101) = true := by decide
theorem test_ldAIndC : gives [0xF2]
    { base with regs := { base.regs with c := 0x80 }, ram := { base.ram with hram := [(0, 0x11)] } }
    (fun t => t.regs.a == 0x11) = true := by decide
theorem test_ldIndCA : gives [0xE2] { base with regs := { base.regs with c := 0x06, a := 0xF0 } }
    (fun t => t.timer.tma == 0xF0) = true := by decide
theorem test_ldIndHlIncA : gives [0x22] (atHl 7 0 0xC000 0 0x00)
    (fun t => t.ram.wram == [(0, 7)] && t.hl == 0xC001) = true := by decide
theorem test_ldIndHlDecA : gives [0x32] (atHl 9 0 0xC001 1 0x00)
    (fun t => t.ram.wram == [(1, 9)] && t.hl == 0xC000) = true := by decide
theorem test_ldAIndHlInc : gives [0x2A] (atHl 0 0 0xC000 0 0x21) (fun t => t.regs.a == 0x21 && t.hl == 0xC001) = true := by decide
theorem test_ldAIndHlDec : gives [0x3A] (atHl 0 0 0xC001 1 0x99) (fun t => t.regs.a == 0x99 && t.hl == 0xC000) = true := by decide
/-- HL wraps at the bottom of memory. -/
theorem test_ldAIndHlDec_wraps : gives [0x3A] base (fun t => t.regs.a == 0x00 && t.hl == 0xFFFF) = true := by decide
theorem test_ldRrNn_sp : gives [0x31, 0xFE, 0xFF] base (hasPcSp 0x0103 0xFFFE 12) = true := by decide
theorem test_ldRrNn_hl : gives [0x21, 0x34, 0x12] base (fun t => t.regs.h == 0x12 && t.regs.l == 0x34) = true := by decide
theorem test_ldIndNnSp : gives [0x08, 0x00, 0xC1] { base with regs := { base.regs with sp := 0xFFF8 } }
    (fun t => t.ram.wram == [(0x100, 0xF8), (0x101, 0xFF)] && t.lastCycles == 20) = true := by decide
theorem test_ldSpHl : gives [0xF9] (atHl 0 0 0xDFFF 0 0) (hasPcSp 0x0101 0xDFFF 8) = true := by decide
theorem test_ldHlSpE : gives [0xF8, 0x08] { base with regs := { base.regs with sp := 0xFFF8 } }
    (fun t => t.hl == 0x0000 && hasAF 0 0x30 t) = true := by decide
theorem test_pushRr : gives [0xC5] { base with regs := { base.regs with b := 0x12, c := 0x34 } }
    (fun t => t.ram.hram == [(0x7C, 0x34), (0x7D, 0x12)] && hasPcSp 0x0101 0xFFFC 16 t) = true := by decide
/-- POP AF drops the low nibble of F. -/
theorem test_popRr_af : gives [0xF1]
    { base with regs := { base.regs with sp := 0xFFFC }, ram := { base.ram with hram := [(0x7C, 0xFF), (0x7D, 0x12)] } }
    (fun t => hasAF 0x12 0xF0 t && hasPcSp 0x0101 0xFFFE 12 t) = true := by decide

/-! 8-bit arithmetic (R119 to R134). -/

theorem test_addAR : gives [0x80] { withAF 0x3A 0 with regs := { (withAF 0x3A 0).regs with b := 0xC6 } }
    (hasAF 0x00 0xB0) = true := by decide
theorem test_addAIndHl : gives [0x86] (atHl 0x3A 0 0xC000 0 0xC6) (hasAF 0x00 0xB0) = true := by decide
theorem test_addAN : gives [0xC6, 0x03] (withAF 5 0) (hasAF 8 0x00) = true := by decide
theorem test_adcAR : gives [0x8B] { withAF 0xE1 0x10 with regs := { (withAF 0xE1 0x10).regs with e := 0x0F } }
    (hasAF 0xF1 0x20) = true := by decide
theorem test_adcAIndHl : gives [0x8E] (atHl 0xE1 0x10 0xC000 0 0x0F) (hasAF 0xF1 0x20) = true := by decide
theorem test_adcAN : gives [0xCE, 0x0F] (withAF 0xE1 0x10) (hasAF 0xF1 0x20) = true := by decide
theorem test_subR : gives [0x90] { withAF 0x3E 0 with regs := { (withAF 0x3E 0).regs with b := 0x0F } }
    (hasAF 0x2F 0x60) = true := by decide
theorem test_subIndHl : gives [0x96] (atHl 0x3E 0 0xC000 0 0x0F) (hasAF 0x2F 0x60) = true := by decide
theorem test_subN : gives [0xD6, 0x0F] (withAF 0x3E 0) (hasAF 0x2F 0x60) = true := by decide
theorem test_sbcAR : gives [0x9C] (atHl 0x3B 0x10 0x2A00 0 0) (hasAF 0x10 0x40) = true := by decide
theorem test_sbcAIndHl : gives [0x9E] (atHl 0x3B 0x10 0xC000 0 0x2A) (hasAF 0x10 0x40) = true := by decide
theorem test_sbcAN : gives [0xDE, 0x2A] (withAF 0x3B 0x10) (hasAF 0x10 0x40) = true := by decide
theorem test_cpR : gives [0xB8] { withAF 0x3C 0 with regs := { (withAF 0x3C 0).regs with b := 0x2F } }
    (hasAF 0x3C 0x60) = true := by decide
theorem test_cpIndHl : gives [0xBE] (atHl 0x3C 0 0xC000 0 0x2F) (hasAF 0x3C 0x60) = true := by decide
theorem test_cpN : gives [0xFE, 0x2F] (withAF 0x3C 0) (hasAF 0x3C 0x60) = true := by decide
theorem test_andR : gives [0xA5] (atHl 0x5A 0x10 0x003F 0 0) (hasAF 0x1A 0x20) = true := by decide
theorem test_andIndHl : gives [0xA6] (atHl 0x5A 0x10 0xC000 0 0x3F) (hasAF 0x1A 0x20) = true := by decide
theorem test_andN : gives [0xE6, 0x3F] (withAF 0x5A 0x10) (hasAF 0x1A 0x20) = true := by decide
theorem test_xorR : gives [0xAF] (withAF 0xFF 0x70) (hasAF 0x00 0x80) = true := by decide
theorem test_xorIndHl : gives [0xAE] (atHl 0xFF 0x30 0xC000 0 0x0F) (hasAF 0xF0 0x00) = true := by decide
theorem test_xorN : gives [0xEE, 0x0F] (withAF 0xFF 0x30) (hasAF 0xF0 0x00) = true := by decide
theorem test_orR : gives [0xB7] (withAF 0x5A 0x70) (hasAF 0x5A 0x00) = true := by decide
theorem test_orIndHl : gives [0xB6] (atHl 0x50 0x70 0xC000 0 0x0A) (hasAF 0x5A 0x00) = true := by decide
theorem test_orN : gives [0xF6, 0x0A] (withAF 0x50 0x70) (hasAF 0x5A 0x00) = true := by decide
theorem test_incR : gives [0x04] { withAF 0 0x10 with regs := { (withAF 0 0x10).regs with b := 0x0F } }
    (fun t => t.regs.b == 0x10 && hasAF 0 0x30 t) = true := by decide
theorem test_incIndHl : gives [0x34] (atHl 0 0 0xC000 0 0xFF)
    (fun t => t.ram.wram == [(0, 0x00)] && hasAF 0 0xA0 t && t.lastCycles == 12) = true := by decide
theorem test_decR : gives [0x2D] { base with regs := { base.regs with l := 0x01 } }
    (fun t => t.regs.l == 0x00 && hasAF 0 0xC0 t) = true := by decide
theorem test_decIndHl : gives [0x35] (atHl 0 0x10 0xC000 0 0x00)
    (fun t => t.ram.wram == [(0, 0xFF)] && hasAF 0 0x70 t) = true := by decide
theorem test_daa_after_addition : gives [0x27] (withAF 0x7D 0x00) (hasAF 0x83 0x00) = true := by decide
theorem test_daa_after_subtraction : gives [0x27] (withAF 0x4B 0x60) (hasAF 0x45 0x40) = true := by decide
theorem test_cpl : gives [0x2F] (withAF 0x35 0x00) (hasAF 0xCA 0x60) = true := by decide
theorem test_scf : gives [0x37] (withAF 0 0xE0) (hasAF 0 0x90) = true := by decide
theorem test_ccf_set : gives [0x3F] (withAF 0 0x70) (hasAF 0 0x00) = true := by decide
theorem test_ccf_clear : gives [0x3F] (withAF 0 0x80) (hasAF 0 0x90) = true := by decide

/-! 16-bit arithmetic (R137 to R140). -/

theorem test_addHlRr_bc : gives [0x09]
    { atHl 0 0x80 0x8A23 0 0 with regs := { (atHl 0 0x80 0x8A23 0 0).regs with b := 0x06, c := 0x05 } }
    (fun t => t.hl == 0x9028 && hasAF 0 0xA0 t) = true := by decide
theorem test_addHlRr_hl : gives [0x29] (atHl 0 0 0x8A23 0 0) (fun t => t.hl == 0x1446 && hasAF 0 0x30 t) = true := by decide
theorem test_incRr : gives [0x13] { base with regs := { base.regs with d := 0x23, e := 0x5F } }
    (fun t => t.de == 0x2360 && t.lastCycles == 8) = true := by decide
theorem test_decRr : gives [0x1B] { base with regs := { base.regs with d := 0x23, e := 0x5F } }
    (fun t => t.de == 0x235E) = true := by decide
theorem test_addSpE : gives [0xE8, 0x02] { withAF 0 0x80 with regs := { (withAF 0 0x80).regs with sp := 0xFFF8 } }
    (fun t => hasPcSp 0x0102 0xFFFA 16 t && hasAF 0 0x00 t) = true := by decide
/-- A negative displacement: the carries are of the unsigned low bytes, 0x00 and 0xFF. -/
theorem test_addSpE_negative : gives [0xE8, 0xFF] { base with regs := { base.regs with sp := 0xD000 } }
    (fun t => t.regs.sp == 0xCFFF && hasAF 0 0x00 t) = true := by decide

/-! Rotates, shifts and bits (R143 to R159). -/

theorem test_rlca : gives [0x07] (withAF 0x85 0) (hasAF 0x0B 0x10) = true := by decide
theorem test_rrca : gives [0x0F] (withAF 0x3B 0) (hasAF 0x9D 0x10) = true := by decide
theorem test_rla : gives [0x17] (withAF 0x95 0x10) (hasAF 0x2B 0x10) = true := by decide
theorem test_rra : gives [0x1F] (withAF 0x81 0) (hasAF 0x40 0x10) = true := by decide
theorem test_rlcR : gives [0xCB, 0x00] { base with regs := { base.regs with b := 0x85 } }
    (fun t => t.regs.b == 0x0B && hasAF 0 0x10 t && t.lastCycles == 8) = true := by decide
theorem test_rlcIndHl : gives [0xCB, 0x06] (atHl 0 0 0xC000 0 0x85)
    (fun t => t.ram.wram == [(0, 0x0B)] && hasAF 0 0x10 t && t.lastCycles == 16) = true := by decide
theorem test_rrcR : gives [0xCB, 0x09] { base with regs := { base.regs with c := 0x01 } }
    (fun t => t.regs.c == 0x80 && hasAF 0 0x10 t) = true := by decide
theorem test_rrcIndHl : gives [0xCB, 0x0E] (atHl 0 0 0xC000 0 0x01)
    (fun t => t.ram.wram == [(0, 0x80)] && hasAF 0 0x10 t) = true := by decide
theorem test_rlR : gives [0xCB, 0x15] { base with regs := { base.regs with l := 0x80 } }
    (fun t => t.regs.l == 0x00 && hasAF 0 0x90 t) = true := by decide
theorem test_rlIndHl : gives [0xCB, 0x16] (atHl 0 0x10 0xC000 0 0x80)
    (fun t => t.ram.wram == [(0, 0x01)] && hasAF 0 0x10 t) = true := by decide
theorem test_rrR : gives [0xCB, 0x1F] (withAF 0x01 0) (hasAF 0x00 0x90) = true := by decide
theorem test_rrIndHl : gives [0xCB, 0x1E] (atHl 0 0x10 0xC000 0 0x02)
    (fun t => t.ram.wram == [(0, 0x81)] && hasAF 0 0x00 t) = true := by decide
theorem test_slaR : gives [0xCB, 0x22] { base with regs := { base.regs with d := 0x80 } }
    (fun t => t.regs.d == 0x00 && hasAF 0 0x90 t) = true := by decide
theorem test_slaIndHl : gives [0xCB, 0x26] (atHl 0 0 0xC000 0 0xC1)
    (fun t => t.ram.wram == [(0, 0x82)] && hasAF 0 0x10 t) = true := by decide
theorem test_sraR : gives [0xCB, 0x2F] (withAF 0x8A 0) (hasAF 0xC5 0x00) = true := by decide
theorem test_sraIndHl : gives [0xCB, 0x2E] (atHl 0 0 0xC000 0 0x81)
    (fun t => t.ram.wram == [(0, 0xC0)] && hasAF 0 0x10 t) = true := by decide
theorem test_swapR : gives [0xCB, 0x37] (withAF 0xF1 0x10) (hasAF 0x1F 0x00) = true := by decide
theorem test_swapIndHl : gives [0xCB, 0x36] (atHl 0 0x10 0xC000 0 0xF1)
    (fun t => t.ram.wram == [(0, 0x1F)] && hasAF 0 0x00 t) = true := by decide
theorem test_srlR : gives [0xCB, 0x38] { base with regs := { base.regs with b := 0xFF } }
    (fun t => t.regs.b == 0x7F && hasAF 0 0x10 t) = true := by decide
theorem test_srlIndHl : gives [0xCB, 0x3E] (atHl 0 0 0xC000 0 0xFF)
    (fun t => t.ram.wram == [(0, 0x7F)] && hasAF 0 0x10 t) = true := by decide
theorem test_bitBR_set : gives [0xCB, 0x7F] (withAF 0x80 0x10) (hasAF 0x80 0x30) = true := by decide
theorem test_bitBR_clear : gives [0xCB, 0x47] (withAF 0x80 0x10) (hasAF 0x80 0xB0) = true := by decide
theorem test_bitBIndHl : gives [0xCB, 0x56] (atHl 0 0x10 0xC000 0 0x04)
    (fun t => t.ram.wram == [(0, 0x04)] && hasAF 0 0x30 t && t.lastCycles == 12) = true := by decide
theorem test_resBR : gives [0xCB, 0xB8] { withAF 0 0xF0 with regs := { (withAF 0 0xF0).regs with b := 0xFF } }
    (fun t => t.regs.b == 0x7F && hasAF 0 0xF0 t) = true := by decide
theorem test_resBIndHl : gives [0xCB, 0x9E] (atHl 0 0xF0 0xC000 0 0xFF)
    (fun t => t.ram.wram == [(0, 0xF7)] && hasAF 0 0xF0 t) = true := by decide
theorem test_setBR : gives [0xCB, 0xCB] base (fun t => t.regs.e == 0x02 && hasAF 0 0x00 t) = true := by decide
theorem test_setBIndHl : gives [0xCB, 0xDE] (atHl 0 0 0xC000 0 0x00) (fun t => t.ram.wram == [(0, 0x08)]) = true := by decide

/-! Control transfer (R161 to R172). -/

theorem test_jpNn : gives [0xC3, 0x50, 0x01] base (hasPcSp 0x0150 0xFFFE 16) = true := by decide
theorem test_jpCcNn_taken : gives [0xCA, 0x00, 0x02] (withAF 0 0x80) (hasPcSp 0x0200 0xFFFE 16) = true := by decide
theorem test_jpCcNn_untaken : gives [0xCA, 0x00, 0x02] base (hasPcSp 0x0103 0xFFFE 12) = true := by decide
theorem test_jpHl : gives [0xE9] (atHl 0 0 0x4000 0 0) (hasPcSp 0x4000 0xFFFE 4) = true := by decide
theorem test_jrE_forward : gives [0x18, 0x05] base (hasPcSp 0x0107 0xFFFE 12) = true := by decide
theorem test_jrE_backward : gives [0x18, 0xFE] base (hasPcSp 0x0100 0xFFFE 12) = true := by decide
theorem test_jrCcE_taken : gives [0x30, 0xFA] { base with pc := 0x0110 } (hasPcSp 0x010C 0xFFFE 12) = true := by decide
theorem test_jrCcE_untaken : gives [0x30, 0xFA] { withAF 0 0x10 with pc := 0x0110 } (hasPcSp 0x0112 0xFFFE 8) = true := by decide
theorem test_callNn : gives [0xCD, 0x05, 0x01] base
    (fun t => hasPcSp 0x0105 0xFFFC 24 t && t.ram.hram == [(0x7C, 0x03), (0x7D, 0x01)]) = true := by decide
theorem test_callCcNn_taken : gives [0xC4, 0x00, 0x20] { base with pc := 0x0150, regs := { base.regs with sp := 0xD000 } }
    (fun t => hasPcSp 0x2000 0xCFFE 24 t && t.ram.wram == [(0xFFE, 0x53), (0xFFF, 0x01)]) = true := by decide
theorem test_callCcNn_untaken : gives [0xCC, 0x00, 0x20] base
    (fun t => hasPcSp 0x0103 0xFFFE 12 t && t.ram.hram == []) = true := by decide

/-- A return address in `hram` at SP = 0xFFFC. -/
def returning (lo hi f : Byte) : State :=
  { withAF 0 f with regs := { (withAF 0 f).regs with sp := 0xFFFC }, ram := { base.ram with hram := [(0x7C, lo), (0x7D, hi)] } }

theorem test_ret : gives [0xC9] { returning 0x03 0x01 0 with pc := 0x0105 } (hasPcSp 0x0103 0xFFFE 16) = true := by decide
theorem test_retCc_taken : gives [0xD8] (returning 0x03 0x01 0x10) (hasPcSp 0x0103 0xFFFE 20) = true := by decide
theorem test_retCc_untaken : gives [0xD8] (returning 0x03 0x01 0x00) (hasPcSp 0x0101 0xFFFC 8) = true := by decide
theorem test_reti : gives [0xD9] (returning 0x34 0x12 0x00) (fun t => hasPcSp 0x1234 0xFFFE 16 t && t.ime) = true := by decide
theorem test_rstT : gives [0xEF] { base with pc := 0x0200 }
    (fun t => hasPcSp 0x0028 0xFFFC 16 t && t.ram.hram == [(0x7C, 0x01), (0x7D, 0x02)]) = true := by decide

/-! System (R173 to R179) and the step (R181, R188). -/

theorem test_nop : gives [0x00] base (hasPcSp 0x0101 0xFFFE 4) = true := by decide
theorem test_halt : gives [0x76] base (fun t => t.mode == .halted && t.pc == 0x0101) = true := by decide
/-- With `ime` false and a request pending HALT keeps running, and the next opcode byte is fetched without its increment. -/
theorem test_halt_bug : gives [0x76] { base with irqEnable := 0x01 }
    (fun t => t.mode == .running && t.haltBug && t.pc == 0x0101) = true := by decide
/-- DIV reads 0x00 after STOP; its sub-counter then has the step's own 4 cycles. -/
theorem test_stop : gives [0x10, 0x00] { base with pc := 0x0200, timer := { base.timer with div := 0x3C, divSub := 9 } }
    (fun t => t.pc == 0x0202 && t.timer.div == 0x00 && t.timer.divSub == 4 && t.mode == .stopped) = true := by decide
theorem test_di : gives [0xF3] { base with ime := true } (fun t => !t.ime && t.eiDelay == 0) = true := by decide
theorem test_ei : gives [0xFB] base (fun t => !t.ime && t.eiDelay == 1) = true := by decide
/-- The instruction after EI ends the delay. -/
theorem test_ei_delay_ends : gives [0x00] { base with eiDelay := 1 } (fun t => t.ime && t.eiDelay == 0) = true := by decide
theorem test_prefixCb : (match exec (.prefixCb 0x37) (withAF 0xF1 0x00) with
    | .next t => hasAF 0x1F 0x00 t && t.lastCycles == 8 && t.pc == 0x0102
    | _ => false) = true := by decide
theorem test_illegalDD : step (placeInstr [0xDD] { base with pc := 0x0150 }) = .fault (.illegalOpcode 0x0150 0xDD) := by rfl
theorem test_illegal_bytes :
    exec .illegalD3 base = .fault (.illegalOpcode 0x0100 0xD3) ∧ exec .illegalDB base = .fault (.illegalOpcode 0x0100 0xDB) ∧
    exec .illegalE3 base = .fault (.illegalOpcode 0x0100 0xE3) ∧ exec .illegalE4 base = .fault (.illegalOpcode 0x0100 0xE4) ∧
    exec .illegalEB base = .fault (.illegalOpcode 0x0100 0xEB) ∧ exec .illegalEC base = .fault (.illegalOpcode 0x0100 0xEC) ∧
    exec .illegalED base = .fault (.illegalOpcode 0x0100 0xED) ∧ exec .illegalF4 base = .fault (.illegalOpcode 0x0100 0xF4) ∧
    exec .illegalFC base = .fault (.illegalOpcode 0x0100 0xFC) ∧ exec .illegalFD base = .fault (.illegalOpcode 0x0100 0xFD) :=
  ⟨rfl, rfl, rfl, rfl, rfl, rfl, rfl, rfl, rfl, rfl⟩
/-- The VBlank request taken: vector 0x0040, the PC pushed, the request and `ime` cleared, 20 cycles (R184, R188, R189). -/
theorem test_dispatch : (match step { base with ime := true, irqEnable := 0x01, pc := 0x0150 } with
    | .next t => hasPcSp 0x0040 0xFFFC 20 t && t.ram.hram == [(0x7C, 0x50), (0x7D, 0x01)] && t.irqFlags == 0 && !t.ime
    | _ => false) = true := by decide

/-- The title ends before the first 0x00, and before the next field at 0x13F (R51, log 20). -/
theorem test_header_title :
    Cart.title { Cart.blank with rom := [(0x134, 0x54), (0x135, 0x45), (0x137, 0x31)] } = [0x54, 0x45] ∧
    (Cart.title { Cart.blank with rom := (List.range 16).map fun k => (0x134 + k, 0x41) }).length = 11 := by decide

/-! ## Witnesses: concrete states and operands that meet the hypotheses of each statement -/

/-- A read that answers `v`, from its evaluation. -/
theorem reads_of_eval {s : State} {a : Word} {v : Byte}
    (h : (match memRead s a with | .ok w => w == v | .error _ => false) = true) : memRead s a = .ok v := by
  cases hr : memRead s a with
  | ok w => simpa [hr] using h
  | error r => simp [hr] at h

/-- A write that is refused with `r`, from its evaluation. -/
theorem refused_of_eval {s : State} {a : Word} {v : Byte} {r : Refusal}
    (h : (match memWrite a v s with | .ok _ => false | .error q => decide (q = r)) = true) : memWrite a v s = .error r := by
  cases hr : memWrite a v s with
  | ok w => simp [hr] at h
  | error q => simpa [hr] using h

/-- A load that gives a machine, from its evaluation. -/
theorem loads_of_eval {image : List Byte} {boot : Option (Vector Byte 256)}
    (h : (match load image boot 20 .hw with | .ok _ => true | .error _ => false) = true) :
    ∃ s, load image boot 20 .hw = .ok s := by
  cases hr : load image boot 20 .hw with
  | ok s => exact ⟨s, rfl⟩
  | error e => simp [hr] at h

/-- Variant-3 with RAM enabled, four RAM banks and a bank number as given: 0 to 3 is RAM, above it a clock register. -/
def onVariant3 (bank : Byte) : State :=
  { base with
    cart := { base.cart with variant := .v3, ramBanks := 4 }, bank := { Bank.reset with ramEnable := true, ramBank := bank } }

theorem witness_DecodeEncode : Instr.wellFormed (.setBIndHl 7) = true ∧ Instr.wellFormed (.rstT 0x38) = true ∧
    Instr.wellFormed (.ldRrNn .sp 0xFFFF) = true := by decide

theorem witness_EncodeDecode : decode [0x10, 0x5A, 0x01] = .ok (.stop 0x5A, [0x01]) := by rfl

/-- One byte too few and just enough of them, for each length. -/
theorem witness_LengthFollowsFirstByte :
    ([0x50] : List Byte).length + 1 < instrLength 0xC3 ∧ instrLength 0xC3 ≤ ([0x50, 0x01] : List Byte).length + 1 ∧
    ([] : List Byte).length + 1 < instrLength 0xCB ∧ instrLength 0xCB ≤ ([0x37] : List Byte).length + 1 ∧
    instrLength 0x76 ≤ ([] : List Byte).length + 1 := by decide

/-- `base` with an illegal byte at PC, and a byte that is none. -/
def onIllegal : State := placeInstr [0xFD] base

theorem witness_IllegalBytesFault :
    onIllegal.fault = none ∧ onIllegal.refused = false ∧ onIllegal.mode = .running ∧
    (onIllegal.ime = false ∨ onIllegal.pending = 0) ∧ memRead (bootCheck onIllegal) onIllegal.pc = .ok 0xFD ∧
    0xFD ∈ ([0xD3, 0xDB, 0xDD, 0xE3, 0xE4, 0xEB, 0xEC, 0xED, 0xF4, 0xFC, 0xFD] : List Byte) ∧
    0xF3 ∉ ([0xD3, 0xDB, 0xDD, 0xE3, 0xE4, 0xEB, 0xEC, 0xED, 0xF4, 0xFC, 0xFD] : List Byte) :=
  ⟨rfl, rfl, rfl, .inl rfl, rfl, by decide, by decide⟩

/-- `base` with a three-byte jump at PC. -/
def onJump : State := placeInstr [0xC3, 0x50, 0x01] base

theorem witness_StepRunsDecoded :
    onJump.fault = none ∧ onJump.refused = false ∧ onJump.mode = .running ∧ (onJump.ime = false ∨ onJump.pending = 0) ∧
    memRead (bootCheck onJump) onJump.pc = .ok 0xC3 ∧ memRead (bootCheck onJump) onJump.afterOpcode = .ok 0x50 ∧
    memRead (bootCheck onJump) (onJump.afterOpcode + 1) = .ok 0x01 ∧ decode [0xC3, 0x50, 0x01] = .ok (.jpNn 0x0150, []) :=
  ⟨rfl, rfl, rfl, .inl rfl, rfl, rfl, rfl, rfl⟩

/-- The three outcomes of the meaning it runs. -/
theorem witness_StepRunsDecoded_outcomes :
    (∃ t, exec (.jpNn 0x0150) (bootCheck onJump) = .next t) ∧
    (∃ f, exec .illegalFD (bootCheck onIllegal) = .fault f) ∧
    (∃ r, exec (.ldAIndNn 0xA000) (bootCheck (onVariant3 4)) = .refused r) :=
  ⟨⟨_, rfl⟩, ⟨_, rfl⟩, ⟨_, rfl⟩⟩

/-- `base` with `ime` set and the sources of `pending` both enabled and requested. -/
def interrupted (pending : BitVec 5) : State :=
  { base with ime := true, irqEnable := pending.setWidth 8, irqFlags := pending }

/-- The lowest source and the highest one alone, in plain RAM, and the two modes that dispatch. -/
theorem witness_StepDispatches :
    (interrupted 0b11111).fault = none ∧ (interrupted 0b11111).refused = false ∧ (interrupted 0b11111).mode ≠ .stopped ∧
    (interrupted 0b11111).ime = true ∧ (interrupted 0b11111).pending.getLsbD 0 = true ∧
    (interrupted 0b11111).pushable (interrupted 0b11111).returnAddress = true ∧
    (interrupted 0b10000).pending.getLsbD 4 = true ∧ (∀ j, j < 4 → (interrupted 0b10000).pending.getLsbD j = false) ∧
    (interrupted 0b10000).pushable (interrupted 0b10000).returnAddress = true ∧
    ({ interrupted 0b10000 with mode := .halted }).mode ≠ .stopped ∧
    plainRam (base.regs.sp - 1) = true ∧ plainRam (base.regs.sp - 2) = true := by decide

/-- Stopped; Halted with nothing pending; Halted with something pending and `ime` false. -/
theorem witness_IdleSteps :
    ({ base with mode := .stopped }).mode = .stopped ∧ ({ base with mode := .halted }).mode = .halted ∧
    ({ base with mode := .halted, irqEnable := 0x01 }).pending ≠ 0 ∧
    ({ base with mode := .halted, irqEnable := 0x01 }).ime = false ∧ ({ base with mode := .halted, ime := true }).pending = 0 ∧
    base.fault = none ∧ base.refused = false := by decide

/-- A state with a fault, a refused one, and a step that ends in each. -/
theorem witness_StuckStates :
    ({ base with fault := some (.illegalOpcode 0x0100 0xDD) }).fault = some (.illegalOpcode 0x0100 0xDD) ∧
    ({ base with refused := true }).fault = none ∧ ({ base with refused := true }).refused = true ∧
    step onIllegal = .fault (.illegalOpcode 0x0100 0xFD) ∧
    step (placeInstr [0xFA, 0x00, 0xA0] (onVariant3 4)) = .refused .rtcRegister :=
  ⟨rfl, rfl, rfl, rfl, rfl⟩

/-- Every disjunct of the two clauses is met by some state. -/
theorem witness_OnlyKnownStops :
    step onIllegal = .fault (.illegalOpcode 0x0100 0xFD) ∧
    step { base with fault := some (.illegalOpcode 0x0150 0xDD) } = .fault (.illegalOpcode 0x0150 0xDD) ∧
    step { base with refused := true } = .refused .alreadyRefused ∧
    step (placeInstr [0xEA, 0xFF, 0xBF] (onVariant3 4)) = .refused .rtcRegister :=
  ⟨rfl, rfl, rfl, rfl⟩

/-- An address that is none of DIV, TIMA and IF, next to each. -/
theorem witness_TimerDivider : (0xFF06 : Word) ≠ 0xFF04 ∧ (0xFF06 : Word) ≠ 0xFF05 ∧ (0xFF0E : Word) ≠ 0xFF0F := by decide

/-- `base` with TIMA counting every 16 cycles from 0xFF, 15 cycles into the period, and TMA = 0xFE. -/
def onTimer : State := { base with timer := { base.timer with tac := 0b101, tima := 0xFF, timaSub := 15, tma := 0xFE } }

/-- TAC off; one cycle below the overflow, exactly at it, and the last total of the one-overflow clause. -/
theorem witness_TimerCounter :
    base.timer.tac.getLsbD 2 = false ∧ onTimer.timer.tac.getLsbD 2 = true ∧ onTimer.timer.tac.toNat % 4 = 1 ∧
    0xFF * 16 + 15 + 0 < 256 * 16 ∧ 256 * 16 ≤ 0xFF * 16 + 15 + 1 ∧ 0xFF * 16 + 15 + 32 < 256 * 16 + (256 - 0xFE) * 16 ∧
    ¬ 0xFF * 16 + 15 + 33 < 256 * 16 + (256 - 0xFE) * 16 := by decide

/-- One state for all the loads: wram[0] = 0x77 read through HL, BC, DE and an immediate, and the high page through C. -/
def onLoads : State :=
  { atHl 0 0 0xC000 0 0x77 with
    regs := { (atHl 0 0 0xC000 0 0x77).regs with b := 0xC0, c := 0x00, d := 0xE0, e := 0x00 } }

theorem witness_LoadsFromMemory :
    memRead onLoads onLoads.hl = .ok 0x77 ∧ memRead onLoads onLoads.bc = .ok 0x77 ∧ memRead onLoads onLoads.de = .ok 0x77 ∧
    memRead onLoads 0xC000 = .ok 0x77 ∧ memRead onLoads (BitVec.ofNat 16 (0xFF00 + (0x47 : Byte).toNat)) = .ok 0xFC ∧
    memRead { onLoads with regs := { onLoads.regs with c := 0xFF } } (BitVec.ofNat 16 (0xFF00 + 0xFF)) = .ok 0x00 :=
  ⟨reads_of_eval (by decide), reads_of_eval (by decide), reads_of_eval (by decide), reads_of_eval (by decide),
    reads_of_eval (by decide), reads_of_eval (by decide)⟩

/-- The edges of the address space, of the high page and of the clock-register window, and the DMA trigger. -/
theorem witness_StoresByte :
    base.writable 0x0000 0x00 = true ∧ base.writable 0xFFFF 0xFF = true ∧ base.writable base.hl base.regs.b = true ∧
    base.writable base.bc base.regs.a = true ∧ base.writable base.de base.regs.a = true ∧
    base.writable (BitVec.ofNat 16 (0xFF00 + (0x46 : Byte).toNat)) 0xA0 = true ∧
    base.writable (BitVec.ofNat 16 (0xFF00 + base.regs.c.toNat)) base.regs.a = true ∧
    (onVariant3 3).writable 0xA000 0x00 = true ∧ (onVariant3 4).writable 0x9FFF 0x00 = true ∧
    (onVariant3 4).writable 0xC000 0x00 = true ∧ (onVariant3 4).writable 0xFF46 0xC0 = true := by decide

/-- HL at the two ends it wraps over. -/
theorem witness_StepsHl :
    (atHl 7 0 0xFFFF 0 0).writable (atHl 7 0 0xFFFF 0 0).hl 7 = true ∧ base.writable base.hl base.regs.a = true ∧
    memRead (atHl 7 0 0xFFFF 0 0) (atHl 7 0 0xFFFF 0 0).hl = .ok 0x00 ∧ memRead base base.hl = .ok 0x00 :=
  ⟨rfl, rfl, rfl, rfl⟩

/-- A store that ends in plain RAM, and one whose second byte wraps to 0x0000. -/
theorem witness_StoresSp :
    base.writable 0xC100 (loByte base.regs.sp) = true ∧ base.writable (0xC100 + 1) (hiByte base.regs.sp) = true ∧
    base.writable 0xFFFF (loByte base.regs.sp) = true ∧ base.writable (0xFFFF + 1) (hiByte base.regs.sp) = true ∧
    plainRam 0xC100 = true ∧ plainRam (0xC100 + 1) = true := by decide

/-- Every pair, and a stack that wraps below 0x0000. -/
theorem witness_Pushes :
    base.pushable (base.rp2 .bc) = true ∧ base.pushable (base.rp2 .de) = true ∧ base.pushable (base.rp2 .hl) = true ∧
    base.pushable (base.rp2 .af) = true ∧
    ({ base with regs := { base.regs with sp := 0x0001 } }).pushable (base.rp2 .bc) = true := by decide

theorem witness_Pops :
    memRead (returning 0xFF 0x12 0) (returning 0xFF 0x12 0).regs.sp = .ok 0xFF ∧
    memRead (returning 0xFF 0x12 0) ((returning 0xFF 0x12 0).regs.sp + 1) = .ok 0x12 := ⟨rfl, rfl⟩

/-- The byte at HL readable, and refused: the two (HL) clauses of every form of the accumulator, of INC, DEC and of BIT. -/
theorem witness_AluForms :
    memRead (atHl 0x3A 0 0xC000 0 0xC6) (atHl 0x3A 0 0xC000 0 0xC6).hl = .ok 0xC6 ∧
    memRead { onVariant3 4 with regs := { base.regs with h := 0xA0 } } 0xA000 = .error .rtcRegister ∧
    ({ onVariant3 4 with regs := { base.regs with h := 0xA0 } }).hl = 0xA000 := ⟨rfl, rfl, rfl⟩

/-- A difference that an addition undoes: A = x + v. -/
theorem witness_Subtracts : (withAF 0x05 0).regs.a = 0x0F + 0xF6 := by decide

/-- The byte at HL readable and both results writable. -/
theorem witness_IncDecMemory :
    memRead (atHl 0 0 0xC000 0 0xFF) (atHl 0 0 0xC000 0 0xFF).hl = .ok 0xFF ∧
    (atHl 0 0 0xC000 0 0xFF).writable (atHl 0 0 0xC000 0 0xFF).hl (0xFF + 1) = true ∧
    (atHl 0 0 0xC000 0 0x00).writable (atHl 0 0 0xC000 0 0x00).hl (0x00 - 1) = true := ⟨rfl, rfl, rfl⟩

theorem witness_AdjustsDecimal : (withAF 0x7D 0x00).regs.f.n = false ∧ (withAF 0x4B 0x60).regs.f.n = true := by decide

/-- The ends of the two ranges, with the sum and the difference over and under their limits. -/
theorem witness_DecimalArithmetic :
    99 < 100 ∧ (withAF 0x99 0).regs.a = packedDecimal 99 ∧ (withAF 0x00 0).regs.a = packedDecimal 0 ∧
    (withAF 0x45 0).regs.a = packedDecimal 45 := by decide

theorem witness_RotatesAccumulator : (0x85 : Nat) = (withAF 0x85 0x10).regs.a.toNat ∧
    (1 : Nat) = (withAF 0x85 0x10).regs.f.c.toNat := by decide

set_option maxRecDepth 8000 in
/-- The (HL) clauses of a CB-page instruction: complete, refused at its read, and refused at its write.  The last needs the DMA
trigger with a source in the window that is refused: 0xFF46 holds 0x50, RLC of it is 0xA0. -/
theorem witness_CbAtHl :
    memRead (atHl 0 0 0xC000 0 0x85) (atHl 0 0 0xC000 0 0x85).hl = .ok 0x85 ∧
    (0x0B : Byte).toNat = 2 * (0x85 : Byte).toNat % 256 + (0x85 : Byte).toNat / 128 ∧
    (atHl 0 0 0xC000 0 0x85).writable (atHl 0 0 0xC000 0 0x85).hl 0x0B = true ∧
    memRead { onVariant3 4 with regs := { base.regs with h := 0xA0 } } 0xA000 = .error .rtcRegister ∧
    memRead (setIoCell 0x46 0x50 (onVariant3 4)) 0xFF46 = .ok 0x50 ∧
    (0xA0 : Byte).toNat = 2 * (0x50 : Byte).toNat % 256 + (0x50 : Byte).toNat / 128 ∧
    memWrite 0xFF46 0xA0 (setIoCell 0x46 0x50 (onVariant3 4)) = .error .rtcRegister :=
  ⟨reads_of_eval (by decide), by decide, by decide, rfl, reads_of_eval (by decide), by decide, refused_of_eval (by decide)⟩

theorem witness_TestsBit : 0 < 8 ∧ 7 < 8 := by decide

/-- RES and SET at both ends of the bit index, and a value the (HL) form can write. -/
theorem witness_ResetsAndSetsBit : 0 < 8 ∧ 7 < 8 ∧
    (∀ k, k < 8 → (0x7F : Byte).getLsbD k = if k = 7 then false else (0xFF : Byte).getLsbD k) ∧
    (∀ k, k < 8 → (0x01 : Byte).getLsbD k = if k = 0 then true else (0x00 : Byte).getLsbD k) := by decide

/-- Each condition holds somewhere and fails somewhere. -/
theorem witness_Jumps :
    (withAF 0 0x00).cond .nz = true ∧ (withAF 0 0x80).cond .nz = false ∧ (withAF 0 0x80).cond .z = true ∧
    (withAF 0 0x00).cond .z = false ∧ (withAF 0 0x00).cond .nc = true ∧ (withAF 0 0x10).cond .nc = false ∧
    (withAF 0 0x10).cond .c = true ∧ (withAF 0 0x00).cond .c = false := by decide

theorem witness_Calls :
    base.pushable (base.nextAddress 3) = true ∧ base.pushable (base.nextAddress 1) = true ∧ base.cond .nz = true ∧
    base.cond .z = false ∧ 7 < 8 := by decide

theorem witness_Returns :
    (returning 0x03 0x01 0x10).cond .c = true ∧ (returning 0x03 0x01 0x00).cond .c = false ∧
    memRead (returning 0x03 0x01 0x10) (returning 0x03 0x01 0x10).regs.sp = .ok 0x03 ∧
    memRead (returning 0x03 0x01 0x10) ((returning 0x03 0x01 0x10).regs.sp + 1) = .ok 0x01 := ⟨rfl, rfl, rfl, rfl⟩

/-- The top and the bottom of the two larger pieces of plain RAM. -/
theorem witness_StackRoundTrips :
    plainRam (base.regs.sp - 1) = true ∧ plainRam (base.regs.sp - 2) = true ∧ plainRam (0xFFFF - 1) = true ∧
    plainRam (0xFF82 - 2) = true ∧ plainRam (0xC002 - 2) = true ∧ plainRam (0xFEA0 - 1) = true := by decide

/-- `ime` true and false, a delay running, and none. -/
theorem witness_NopDiEi : base.ime = false ∧ base.eiDelay = 0 ∧ ({ base with ime := true }).ime = true ∧
    ({ base with eiDelay := 1 }).eiDelay ≠ 0 := by decide

theorem witness_HaltAndStop :
    (({ base with irqEnable := 0x01 }).ime = false ∧
      ({ base with irqEnable := 0x01 }).irqEnable.toNat &&& ({ base with irqEnable := 0x01 }).irqFlags.toNat &&& 0x1F ≠ 0) ∧
    base.irqEnable.toNat &&& base.irqFlags.toNat &&& 0x1F = 0 ∧ ({ base with ime := true, irqEnable := 0x01 }).ime = true := by
  decide

/-- A register operand, and the byte at HL in plain memory. -/
theorem witness_PrefixPerformsCbPage :
    (0x37 : Byte).toNat % 8 ≠ 6 ∧ ∀ v, (atHl 0 0 0xC000 0 0).writable (atHl 0 0 0xC000 0 0).hl v = true := by decide

/-- EI with no delay running, an instruction with the delay at 1, DI with it at 1, and a Halted step. -/
theorem witness_EiDelay :
    (∃ t, step (placeInstr [0xFB] base) = .next t) ∧ fetchInstr (bootCheck (placeInstr [0xFB] base)) = .ok .ei ∧
    (∃ t, step (placeInstr [0x00] { base with eiDelay := 1 }) = .next t) ∧
    fetchInstr (bootCheck (placeInstr [0x00] { base with eiDelay := 1 })) = .ok .nop ∧
    (∃ t, step (placeInstr [0xF3] { base with eiDelay := 1 }) = .next t) ∧
    fetchInstr (bootCheck (placeInstr [0xF3] { base with eiDelay := 1 })) = .ok .di ∧
    (∃ t, step { base with mode := .halted } = .next t) ∧ ({ base with mode := .halted }).mode ≠ .running ∧
    (placeInstr [0xFB] base).mode = .running ∧ (placeInstr [0xFB] base).ime = false :=
  ⟨⟨_, rfl⟩, rfl, ⟨_, rfl⟩, rfl, ⟨_, rfl⟩, rfl, ⟨_, rfl⟩, by decide, rfl, rfl⟩

/-- Both ends of each piece of plain RAM, and the addresses next to them that are none. -/
theorem witness_RamReadsBack :
    plainRam 0x8000 = true ∧ plainRam 0x9FFF = true ∧ plainRam 0xC000 = true ∧ plainRam 0xFE9F = true ∧
    plainRam 0xFF80 = true ∧ plainRam 0xFFFE = true ∧ plainRam 0x7FFF = false ∧ plainRam 0xA000 = false ∧
    plainRam 0xFEA0 = false ∧ plainRam 0xFFFF = false := by decide

theorem witness_MirrorIsWorkingRam :
    0xE000 ≤ (0xE000 : Word).toNat ∧ (0xFDFF : Word).toNat ≤ 0xFDFF ∧ 0xDE00 ≤ (0xDE00 : Word).toNat ∧
    (0xDFFF : Word).toNat ≤ 0xDFFF := by decide

/-- Both ends of both ROM windows, with the overlay over and past its page, and the bank number of a variant. -/
theorem witness_ReadsSelectedBank :
    0x4000 ≤ (0x4000 : Word).toNat ∧ (0x7FFF : Word).toNat ≤ 0x7FFF ∧ (0x3FFF : Word).toNat ≤ 0x3FFF ∧
    (base.bootActive = false ∨ 0xFF < (0x0000 : Word).toNat) ∧
    (({ base with bootActive := true }).bootActive = false ∨ 0xFF < (0x0100 : Word).toNat) ∧
    (1 = match base.cart.variant with
      | .plain => 1
      | .v1 => if base.bank.bankMode then base.bank.romBank.toNat else (base.bank.romHi.toNat <<< 5) ||| base.bank.romBank.toNat
      | .v2 | .v3 | .v5 => base.bank.romBank.toNat) := by decide

/-- Both ends of every window, the address filter of variant-2 passed and not, both modes of variant-1 and both mode writes. -/
theorem witness_SelectsBank :
    (0x0000 : Word).toNat ≤ 0x1FFF ∧ (0x1FFF : Word).toNat ≤ 0x1FFF ∧ 0x2000 ≤ (0x2000 : Word).toNat ∧
    (0x2FFF : Word).toNat ≤ 0x2FFF ∧ 0x3000 ≤ (0x3000 : Word).toNat ∧ (0x3FFF : Word).toNat ≤ 0x3FFF ∧
    0x4000 ≤ (0x4000 : Word).toNat ∧ (0x5FFF : Word).toNat ≤ 0x5FFF ∧ 0x6000 ≤ (0x6000 : Word).toNat ∧
    (0x7FFF : Word).toNat ≤ 0x7FFF ∧ (0x1EFF : Word).toNat / 256 % 2 = 0 ∧ (0x1FFF : Word).toNat / 256 % 2 = 1 ∧
    base.bank.bankMode = false ∧ ({ base with bank := { Bank.reset with bankMode := true } }).bank.bankMode = true ∧
    (0x01 : Byte).toNat % 2 = 1 ∧ (0xFE : Byte).toNat % 2 = 0 := by decide

/-- The registers a write leaves, on variant-1: bank 0x20 is coerced to 1, the mode's clearing clears the RAM bank; on variant-5
bit 8 of the bank. -/
theorem test_bank_registers :
    bankWrite .v1 0x3FFF 0x20 Bank.reset = Bank.reset ∧ (bankWrite .v1 0x4000 0xFF Bank.reset).romHi = 3 ∧
    bankWrite .v1 0x7FFF 0x00 { Bank.reset with bankMode := true, ramBank := 3 } = Bank.reset ∧
    bankWrite .v2 0x0100 0x0A Bank.reset = Bank.reset ∧ (bankWrite .v5 0x3000 0xFF Bank.reset).romBank = 0x101 ∧
    (bankWrite .v5 0x2FFF 0x00 Bank.reset).romBank = 0 := by decide

/-- `base` on variant-2 with its gate open. -/
def onVariant2 : State :=
  { base with cart := { base.cart with variant := .v2 }, bank := { Bank.reset with ramEnable := true } }

/-- The gate on variant-2 with its address filter passed; a closed window; no RAM at all; open RAM without a controller, on
variant-3 and on variant-2, at both ends of the window, and two mirrors of one entry. -/
theorem witness_GatesExternalRam :
    (onVariant3 0).cart.variant ≠ .plain ∧ (0x1FFF : Word).toNat ≤ 0x1FFF ∧ (0x1EFF : Word).toNat / 256 % 2 = 0 ∧
    0xA000 ≤ (0xA000 : Word).toNat ∧ (0xBFFF : Word).toNat ≤ 0xBFFF ∧
    ({ onVariant3 0 with bank := Bank.reset }).bank.ramEnable = false ∧
    (base.cart.variant ≠ .v2 ∧ base.cart.ramBanks = 0 ∧ base.accessible 0xBFFF = true) ∧
    (({ base with cart := { base.cart with ramBanks := 1 } }).cart.variant = .plain ∧
      0 < ({ base with cart := { base.cart with ramBanks := 1 } }).cart.ramBanks) ∧
    ((onVariant3 3).cart.variant ≠ .v2 ∧ (onVariant3 3).bank.ramEnable = true ∧ 0 < (onVariant3 3).cart.ramBanks ∧
      (onVariant3 3).accessible 0xA000 = true) ∧
    onVariant2.cart.variant = .v2 ∧ onVariant2.bank.ramEnable = true ∧
    (0xBFFF : Word).toNat % 0x200 = (0xA1FF : Word).toNat % 0x200 := by decide

/-- The last bank number that is RAM and the first that is a clock register, at both ends of the window. -/
theorem witness_RefusesClockRegister :
    (onVariant3 4).cart.variant = .v3 ∧ (onVariant3 4).bank.ramEnable = true ∧ 3 < (onVariant3 4).bank.ramBank.toNat ∧
    (onVariant3 3).bank.ramBank.toNat ≤ 3 ∧ 0 < (onVariant3 3).cart.ramBanks ∧ 0xA000 ≤ (0xA000 : Word).toNat ∧
    (0xBFFF : Word).toNat ≤ 0xBFFF := by decide

/-- The first and last source page and index, and a source page that reads the trigger itself. -/
theorem witness_DmaCopies :
    base.accessible (BitVec.ofNat 16 ((0x00 : Byte).toNat * 256)) = true ∧
    base.accessible (BitVec.ofNat 16 ((0xFF : Byte).toNat * 256)) = true ∧ 159 < 160 ∧
    (0xC0 : Byte).toNat * 256 + 159 ≠ 0xFF46 ∧
    (0xFDFF : Word) ≠ 0xFF46 ∧ (0xFDFF : Word).toNat < 0xFE00 ∧ 0xFE9F < (0xFEA0 : Word).toNat := by decide

theorem witness_IoReadsBack :
    0xFF00 ≤ (0xFF00 : Word).toNat ∧ (0xFF7F : Word).toNat ≤ 0xFF7F ∧ base.writable 0xFF00 0x30 = true ∧
    base.writable 0xFF46 0xFF = true ∧ base.writable 0xFFFF 0x1F = true := by decide

/-- `base` under an active overlay with an empty boot image. -/
def onOverlay : State := { base with bootActive := true, cfg := { base.cfg with bootRom := some [(0x00, 0x31)] } }

theorem witness_BootOverlay :
    onOverlay.bootActive = true ∧ onOverlay.cfg.bootRom = some [(0x00, 0x31)] ∧ (0x00FF : Word).toNat ≤ 0xFF ∧
    base.bootActive = false ∧ ({ base with cart := { base.cart with variant := .v1 } }).cart.variant = .v1 ∧
    (0x0A : Byte).toNat % 16 = 0xA := by decide

/-- A state of the invariant that takes a step. -/
theorem witness_StepKeepsInvariant : State.reset.Inv ∧ ∃ t, step State.reset = .next t :=
  ⟨⟨by decide, by decide, by decide, by decide, by decide, by decide, by decide⟩, ⟨_, rfl⟩⟩

set_option maxRecDepth 8000 in
/-- An image that loads, one that is too short, and a state of the invariant for the host's moves. -/
theorem witness_HostKeepsInvariant :
    (List.replicate 0x14F (0 : Byte)).length < 0x150 ∧ (∃ s, load (List.replicate 0x150 0) none 20 .hw = .ok s) ∧
    (∃ s, load (List.replicate 0x150 0) (some (Vector.replicate 256 0)) 20 .hw = .ok s) ∧ State.reset.Inv :=
  ⟨by rw [List.length_replicate]; decide, loads_of_eval (by decide), loads_of_eval (by decide), witness_StepKeepsInvariant.1⟩

/-- A step with the overlay over, one in Stopped, and one that enters it. -/
theorem witness_StepConstants :
    (∃ t, step State.reset = .next t) ∧ State.reset.bootActive = false ∧
    (∃ t, step { base with mode := .stopped } = .next t) ∧ ({ base with mode := .stopped }).mode = .stopped ∧
    (∃ t, step (placeInstr [0x10, 0x00] base) = .next t ∧ t.mode = .stopped) :=
  ⟨⟨_, rfl⟩, rfl, ⟨_, rfl⟩, rfl, ⟨_, rfl, rfl⟩⟩

end Sys2Proof.Tests
end

section
/-! PROOFS. The 8-bit arithmetic and logic instructions (41_alu8 R119 to R129).  An instruction of the accumulator is one operation
on registers run in three operand forms, so each obligation is what its operation does to A and F, plus one lemma for the forms. -/

namespace Sys2Proof.Machine

/-! ## Frames and flags -/

/-- An instruction that is a fetch and a change of registers moves PC by its length and changes nothing else (R18, R208). -/
theorem frame_of_fetched_regs {length cycles : Nat} {s t : State} {g : Regs} (h : t = { s.fetched length cycles with regs := g }) :
    Advanced length cycles s t ∧ RegistersOnly s t ∧ SameReads s t := by
  subst h
  exact ⟨⟨rfl, rfl, rfl⟩, rfl, RegistersOnly.sameReads rfl⟩

/-- The flags of a result: Z says whether it is 0, and the others are as written. -/
theorem flagsAre_of_result {t : State} {r : Byte} {n h c : Bool} {N H C : Prop}
    (ht : t.regs.f = { z := r == 0, n := n, h := h, c := c }) (hn : n = true ↔ N) (hh : h = true ↔ H) (hc : c = true ↔ C) :
    FlagsAre t (r = 0) N H C := by
  unfold FlagsAre
  rw [ht]
  exact ⟨beq_iff_eq, hn, hh, hc⟩

/-! ## The three operand forms -/

/-- An instruction that reads a refused byte at HL is refused. -/
theorem readHl_error {l c : Nat} {k : Byte → State → State} {s : State} {r : Refusal} (h : memRead s s.hl = .error r) :
    readHl l c k s = .refused r := by
  simp [readHl, h]

/-- The `r8` field in bits 2:0 of an opcode whose low three bits are clear adds the register's code (R77). -/
theorem withField_code {opcode : Byte} (h : opcode &&& 7 = 0) (r : Reg8) : withField opcode r.code 0 = opcode + r.code := by
  have hcode : 7 &&& r.code = r.code := by cases r <;> rfl
  have hdisjoint : opcode &&& r.code = 0 := by rw [← hcode, ← BitVec.and_assoc, h]; exact BitVec.zero_and
  rw [BitVec.add_eq_or_of_and_eq_zero _ _ hdisjoint, withField, BitVec.shiftLeft_zero]

/-- `op` is the operation of an instruction of the accumulator: the encodings have the register in the `r8` field and no other
operand in the opcode, each of the three forms is a fetch and `op` on its operand, and `op` changes registers only (R77, R118).
Every field unfolds one definition of the model for given instructions, and is proved so where none is written. -/
structure RunsAluOp (register : Reg8 → Instr) (atHl : Instr) (immediate : Byte → Instr) (opcode immediateOpcode : Byte)
    (op : Byte → State → State) : Prop where
  opcode_low : opcode &&& 7 = 0 := by decide
  encode_register : ∀ src, encode (register src) = [withField opcode src.code 0] := by intros; rfl
  encode_atHl : encode atHl = [opcode + 6] := by rfl
  encode_immediate : ∀ n, encode (immediate n) = [immediateOpcode, n] := by intros; rfl
  exec_register : ∀ src s, exec (register src) s = .next (op (s.reg src) (s.fetched 1 4)) := by intros; rfl
  exec_atHl : ∀ s, exec atHl s = readHl 1 8 op s := by intros; rfl
  exec_immediate : ∀ n s, exec (immediate n) s = .next (op n (s.fetched 2 8)) := by intros; rfl
  regs_only : ∀ v s, op v s = { s with regs := (op v s).regs } := by intros; rfl

section
variable {register : Reg8 → Instr} {atHl : Instr} {immediate : Byte → Instr} {opcode immediateOpcode : Byte}
  {op : Byte → State → State}

theorem RunsAluOp.aluEncodings (hrun : RunsAluOp register atHl immediate opcode immediateOpcode op) :
    AluEncodings register atHl immediate opcode immediateOpcode := by
  have hr (r : Reg8) : encode (register r) = [opcode + r.code] := by rw [hrun.encode_register, withField_code hrun.opcode_low]
  have hb : encode (register .b) = [opcode] := by simpa [Reg8.code] using hr .b
  exact ⟨hb, hr .c, hr .d, hr .e, hr .h, hr .l, hrun.encode_atHl, hr .a, hrun.encode_immediate⟩

/-- The three forms have the effect that the operation has after a fetch. -/
theorem RunsAluOp.aluForms {effect : Byte → State → State → Prop}
    (hrun : RunsAluOp register atHl immediate opcode immediateOpcode op)
    (heffect : ∀ v s length cycles, effect v s (op v (s.fetched length cycles))) :
    AluForms register atHl immediate opcode immediateOpcode effect := by
  have hform (v : Byte) (s : State) (length cycles : Nat) :=
    And.intro (heffect v s length cycles) (frame_of_fetched_regs (hrun.regs_only v (s.fetched length cycles)))
  refine ⟨hrun.aluEncodings, fun s => ⟨fun src => ?_, fun v hv => ?_, fun r hr => ?_, fun n => ?_⟩⟩
  · exact ⟨_, hrun.exec_register src s, hform ..⟩
  · exact ⟨_, (hrun.exec_atHl s).trans (readHl_ok hv), hform ..⟩
  · exact (hrun.exec_atHl s).trans (readHl_error hr)
  · exact ⟨_, hrun.exec_immediate n s, hform ..⟩

end

/-! ## Addition -/

/-- What ADD and ADC leave in A and F, for the carry-in they count (R119, R120). -/
theorem add_effect {s t : State} {v : Byte} {cin : Bool}
    (ht : t.regs = { s.regs with
      a := (add8 s.regs.a v cin).value
      f := ⟨(add8 s.regs.a v cin).value == 0, false, (add8 s.regs.a v cin).half, (add8 s.regs.a v cin).carry⟩ }) :
    t.regs.a.toNat = (s.regs.a.toNat + v.toNat + cin.toNat) % 256 ∧ AccumulatorOnly s t ∧
    FlagsAre t (t.regs.a = 0) False (s.regs.a.toNat % 16 + v.toNat % 16 + cin.toNat > 15)
      (s.regs.a.toNat + v.toNat + cin.toNat > 255) := by
  have ha : t.regs.a = (add8 s.regs.a v cin).value := by rw [ht]
  refine ⟨?_, ?_, ?_⟩
  · rw [ha, add8_toNat]
  · rw [AccumulatorOnly, ht]
  · rw [ha]
    exact flagsAre_of_result (by rw [ht]) Bool.false_eq_true.to_iff (add8_half ..) (add8_carry ..)

/-- Settles O22: ADD is the addition without a carry-in. -/
theorem addsAccumulator : Obligations.AddsAccumulator :=
  RunsAluOp.aluForms (op := aluAdd) {} fun _ _ _ _ => add_effect (cin := false) rfl

/-- Settles O23: ADC is the addition with the old C as its carry-in. -/
theorem addsWithCarry : Obligations.AddsWithCarry :=
  RunsAluOp.aluForms (op := aluAdc) {} fun _ s _ _ => add_effect (cin := s.regs.f.c) rfl

/-! ## Subtraction -/

/-- What SUB, SBC and CP leave in F, for the borrow-in they count (R121 to R123). -/
theorem sub_flags {s t : State} {v : Byte} {cin : Bool}
    (ht : t.regs.f =
      ⟨(sub8 s.regs.a v cin).value == 0, true, (sub8 s.regs.a v cin).half, (sub8 s.regs.a v cin).carry⟩) :
    FlagsAre t ((sub8 s.regs.a v cin).value = 0) True (s.regs.a.toNat % 16 < v.toNat % 16 + cin.toNat)
      (s.regs.a.toNat < v.toNat + cin.toNat) :=
  flagsAre_of_result ht (iff_true_intro rfl) (sub8_half ..) (sub8_carry ..)

/-- `Sub8`'s value without a borrow-in is the difference of bytes (R117). -/
theorem sub8_value (a b : Byte) : (sub8 a b false).value = a - b := by
  apply BitVec.eq_of_toNat_eq
  rw [sub8_toNat, BitVec.toNat_sub, Bool.toNat_false]
  omega

/-- Settles O24: the difference of bytes undoes their sum. -/
theorem subtracts : Obligations.Subtracts := by
  refine RunsAluOp.aluForms (op := aluSub) {} fun v s length cycles => ?_
  have ha : (aluSub v (s.fetched length cycles)).regs.a = s.regs.a - v := sub8_value s.regs.a v
  refine ⟨?_, rfl, sub_flags rfl, fun x hx => ?_⟩
  · rw [ha, BitVec.toNat_sub]
    omega
  · rw [ha, hx, BitVec.add_sub_cancel]

/-- Settles O25: SBC is the subtraction with the old C as its borrow-in. -/
theorem subtractsWithCarry : Obligations.SubtractsWithCarry :=
  RunsAluOp.aluForms (op := aluSbc) {} fun v s _ _ => ⟨sub8_toNat s.regs.a v s.regs.f.c, rfl, sub_flags rfl⟩

/-- Settles O26: CP writes SUB's flags alone, and the difference is 0 when A is the operand. -/
theorem compares : Obligations.Compares := by
  refine RunsAluOp.aluForms (op := aluCp) {} fun v s length cycles => ⟨rfl, ?_⟩
  have hzero : (sub8 s.regs.a v false).value = 0 ↔ s.regs.a = v := by rw [sub8_value]; exact sub_eq_zero
  rw [← hzero]
  exact sub_flags rfl

/-! ## Logic -/

/-- What AND, XOR and OR leave in F: Z of the result and H as the operation has it (R124 to R126). -/
theorem logic_flags {t : State} {half : Bool} {H : Prop}
    (ht : t.regs.f = { z := t.regs.a == 0, n := false, h := half, c := false }) (hh : half = true ↔ H) :
    FlagsAre t (t.regs.a = 0) False H False :=
  flagsAre_of_result ht Bool.false_eq_true.to_iff hh Bool.false_eq_true.to_iff

/-- Settles O27: the bits of an and, an exclusive or and an or. -/
theorem logicOperations : Obligations.LogicOperations := by
  refine ⟨RunsAluOp.aluForms (op := aluAnd) {} fun v s _ _ => ?_, RunsAluOp.aluForms (op := aluXor) {} fun v s _ _ => ?_,
    RunsAluOp.aluForms (op := aluOr) {} fun v s _ _ => ?_⟩
  · exact ⟨fun _ => BitVec.getLsbD_and, rfl, logic_flags rfl (iff_true_intro rfl)⟩
  · exact ⟨fun _ => BitVec.getLsbD_xor, rfl, logic_flags rfl Bool.false_eq_true.to_iff⟩
  · exact ⟨fun _ => BitVec.getLsbD_or, rfl, logic_flags rfl Bool.false_eq_true.to_iff⟩

/-! ## INC r and DEC r -/

/-- An instruction that is a fetch and a write of a register and the flags: the register holds the value and F the flags, and
nothing else differs. -/
theorem exec_setReg_setFlags {i : Instr} {length cycles : Nat} {r : Reg8} {v : Byte} {f : Flags} {s : State}
    (h : exec i s = .next (((s.fetched length cycles).setReg r v).setFlags f)) :
    ∃ t, exec i s = .next t ∧ t.reg r = v ∧ t.regs.f = f ∧ (∀ q, q ≠ r → t.reg q = s.reg q) ∧ t.regs.sp = s.regs.sp ∧
      Advanced length cycles s t ∧ RegistersOnly s t ∧ SameReads s t := by
  refine ⟨_, h, ?_, setFlags_f .., fun q hq => ?_, ?_, frame_of_fetched_regs rfl⟩
  · rw [reg_setFlags, reg_setReg_same]
  · rw [reg_setFlags, reg_setReg_other _ _ _ _ hq, reg_fetched]
  · rw [setFlags_sp, regs_sp_setReg, fetched_regs]

theorem exec_incR (r : Reg8) (s : State) : exec (.incR r) s = .next
    (((s.fetched 1 4).setReg r (add8 (s.reg r) 1 false).value).setFlags (incFlags s.regs.f (add8 (s.reg r) 1 false))) := rfl

theorem exec_decR (r : Reg8) (s : State) : exec (.decR r) s = .next
    (((s.fetched 1 4).setReg r (sub8 (s.reg r) 1 false).value).setFlags (decFlags s.regs.f (sub8 (s.reg r) 1 false))) := rfl

/-- INC writes the flags of `v + 1`: H when the low nibble of `v` is 15, C kept (R127, R128). -/
theorem flagsAre_incFlags {t : State} {old : Flags} {v : Byte} (ht : t.regs.f = incFlags old (add8 v 1 false)) :
    FlagsAre t ((add8 v 1 false).value = 0) False (v.toNat % 16 = 15) (old.c = true) := by
  have hhalf : (add8 v 1 false).half = true ↔ v.toNat % 16 = 15 := by
    rw [add8_half, show (1 : Byte).toNat = 1 from rfl, Bool.toNat_false]
    omega
  exact flagsAre_of_result ht Bool.false_eq_true.to_iff hhalf .rfl

/-- DEC writes the flags of `v - 1`: H when the low nibble of `v` is 0, C kept (R129, R130). -/
theorem flagsAre_decFlags {t : State} {old : Flags} {v : Byte} (ht : t.regs.f = decFlags old (sub8 v 1 false)) :
    FlagsAre t ((sub8 v 1 false).value = 0) True (v.toNat % 16 = 0) (old.c = true) := by
  have hhalf : (sub8 v 1 false).half = true ↔ v.toNat % 16 = 0 := by
    rw [sub8_half, show (1 : Byte).toNat = 1 from rfl, Bool.toNat_false]
    omega
  exact flagsAre_of_result ht (iff_true_intro rfl) hhalf .rfl

/-- Settles O28: INC is `Add8` and DEC is `Sub8` of 1, with C kept. -/
theorem incDecRegister : Obligations.IncDecRegister := by
  refine ⟨⟨rfl, rfl, rfl, rfl, rfl, rfl, rfl⟩, ⟨rfl, rfl, rfl, rfl, rfl, rfl, rfl⟩, fun s r => ⟨?_, ?_⟩⟩
  · obtain ⟨t, hexec, hr, hf, hothers, hsp, hframe⟩ := exec_setReg_setFlags (exec_incR r s)
    refine ⟨t, hexec, ?_, hothers, hsp, ?_, hframe⟩ <;> rw [hr]
    · exact add8_toNat (s.reg r) 1 false
    · exact flagsAre_incFlags hf
  · obtain ⟨t, hexec, hr, hf, hothers, hsp, hframe⟩ := exec_setReg_setFlags (exec_decR r s)
    refine ⟨t, hexec, ?_, hothers, hsp, ?_, hframe⟩ <;> rw [hr]
    · rw [sub8_toNat, show (1 : Byte).toNat = 1 from rfl, Bool.toNat_false]
      omega
    · exact flagsAre_decFlags hf

end Sys2Proof.Machine
end

section
/-! PROOFS. The rotates of the CB page (43_rotate_shift R148 to R151).  All of them are the model's `cbRotate`: on a register it
is a write of the register and the flags, at HL it is `modifyHl`.  So each rotate's statement is its encoding and two facts about
its value, the rotated byte and the bit that left, as numbers. -/

namespace Sys2Proof.Machine

/-! ## The rotated byte and the bit that left it -/

/-- A bit of a byte as a number. -/
theorem getLsbD_toNat (v : Byte) (k : Nat) : (v.getLsbD k).toNat = v.toNat / 2 ^ k % 2 := by
  rw [← BitVec.testBit_toNat, Nat.toNat_testBit]

theorem bit7_toNat (v : Byte) : (v.getLsbD 7).toNat = v.toNat / 128 := by
  have := v.isLt
  rw [getLsbD_toNat]
  omega

theorem bit0_toNat (v : Byte) : (v.getLsbD 0).toNat = v.toNat % 2 := by
  rw [getLsbD_toNat, Nat.pow_zero, Nat.div_one]

/-- The bit that leaves a byte rotated left. -/
theorem bit7_iff (v : Byte) : v.getLsbD 7 = true ↔ 128 ≤ v.toNat := by
  have := v.isLt
  rw [← Bool.toNat_eq_one, bit7_toNat]
  omega

/-- The bit that leaves a byte rotated right. -/
theorem bit0_iff (v : Byte) : v.getLsbD 0 = true ↔ v.toNat % 2 = 1 := by
  rw [← Bool.toNat_eq_one, bit0_toNat]

theorem ofBool_setWidth_toNat (c : Bool) : ((BitVec.ofBool c).setWidth 8).toNat = c.toNat := by
  rw [BitVec.toNat_setWidth_of_le (by decide), BitVec.toNat_ofBool]

/-- A byte moved up by one bit with `c` in bit 0 (R145, R150). -/
theorem rotateLeftCarry_toNat (v : Byte) (c : Bool) : (rotateLeftCarry v c).1.toNat = 2 * v.toNat % 256 + c.toNat := by
  have hshift : (v <<< 1).toNat = 2 ^ 1 * (v.toNat % 128) := by
    rw [BitVec.toNat_shiftLeft, Nat.shiftLeft_eq]
    omega
  rw [rotateLeftCarry, BitVec.toNat_or, hshift, ofBool_setWidth_toNat, ← Nat.two_pow_add_eq_or_of_lt c.toNat_lt]
  omega

/-- A byte moved down by one bit with `c` in bit 7 (R146, R151). -/
theorem rotateRightCarry_toNat (v : Byte) (c : Bool) : (rotateRightCarry v c).1.toNat = v.toNat / 2 + c.toNat * 128 := by
  have hv := v.isLt
  have hc := c.toNat_lt
  have hdown : (v >>> 1).toNat = v.toNat / 2 := by rw [BitVec.toNat_ushiftRight, Nat.shiftRight_one]
  have hcarry : ((BitVec.ofBool c).setWidth 8 <<< 7).toNat = 2 ^ 7 * c.toNat := by
    rw [BitVec.toNat_shiftLeft, ofBool_setWidth_toNat, Nat.shiftLeft_eq]
    omega
  rw [rotateRightCarry, BitVec.toNat_or, hdown, hcarry, Nat.or_comm, ← Nat.two_pow_add_eq_or_of_lt (by omega)]
  omega

/-- RLC rotates through the bit that leaves (R143, R148). -/
theorem rotateLeft_toNat (v : Byte) : (rotateLeft v).1.toNat = 2 * v.toNat % 256 + v.toNat / 128 := by
  rw [← bit7_toNat]
  exact rotateLeftCarry_toNat v (v.getLsbD 7)

/-- RRC rotates through the bit that leaves (R144, R149). -/
theorem rotateRight_toNat (v : Byte) : (rotateRight v).1.toNat = v.toNat / 2 + v.toNat % 2 * 128 := by
  rw [← bit0_toNat]
  exact rotateRightCarry_toNat v (v.getLsbD 0)

/-! ## The two operand forms of the CB page -/

/-- An instruction that reads a refused byte at HL, to write one back, is refused. -/
theorem modifyHl_read_error {l c : Nat} {value : Byte → Byte} {flags : Byte → Flags} {s : State} {r : Refusal}
    (h : memRead s s.hl = .error r) : modifyHl l c value flags s = .refused r := by
  simp [modifyHl, h]

/-- An instruction whose byte for HL is refused is refused. -/
theorem modifyHl_write_error {l c : Nat} {value : Byte → Byte} {flags : Byte → Flags} {s : State} {m : Byte} {r : Refusal}
    (hm : memRead s s.hl = .ok m) (hw : memWrite s.hl (value m) s = .error r) : modifyHl l c value flags s = .refused r := by
  have hrefused : memWrite s.hl (value m) ((s.fetched l c).setFlags (flags m)) = .error r :=
    memWrite_core_error (s := s) { s.regs with f := flags m } (s.nextAddress l) false c hw
  simp [modifyHl, hm, hrefused]

/-- The encodings of a CB-page instruction with its operand in the `r8` field of the second byte (R77, R84). -/
theorem cbEncodings_of_cbBytes {register : Reg8 → Instr} {atHl : Instr} {opcode : Byte} (hlow : opcode &&& 7 = 0)
    (hregister : ∀ r, encode (register r) = cbBytes opcode r.code) (hatHl : encode atHl = [0xCB, opcode + 6]) :
    CbEncodings register atHl opcode := by
  have hr (r : Reg8) : encode (register r) = [0xCB, opcode + r.code] := by rw [hregister, cbBytes, withField_code hlow]
  have hb : encode (register .b) = [0xCB, opcode] := by simpa [Reg8.code] using hr .b
  exact ⟨hb, hr .c, hr .d, hr .e, hr .h, hr .l, hatHl, hr .a⟩

/-- The (HL) form of a CB-page instruction is one read, one write and the flags (R91, R147). -/
theorem cbAtHl_of_modifyHl {atHl : Instr} {newByte : State → Byte → Byte} {flags : State → Byte → Flags}
    {value : State → Byte → Byte → Prop} {effect : Byte → Byte → State → State → Prop}
    (hexec : ∀ s, exec atHl s = modifyHl 2 16 (newByte s) (flags s) s)
    (hvalue : ∀ s m v, value s m v → newByte s m = v)
    (heffect : ∀ s t m, t.regs = { s.regs with f := flags s m } → effect m (newByte s m) s t) : CbAtHl atHl value effect := by
  refine fun s m v r => ⟨fun hm hv hw => ?_, fun hm => ?_, fun hm hv hw => ?_⟩ <;> rw [hexec]
  · obtain ⟨t, hnext, hstored, hregs, hadvanced⟩ := modifyHl_ok (flags := flags s) (l := 2) (c := 16) hm (hvalue s m v hv) hw
    exact ⟨t, hnext, hstored, hvalue s m v hv ▸ heffect s t m hregs, hadvanced⟩
  · exact modifyHl_read_error hm
  · exact modifyHl_write_error hm (hvalue s m v hv ▸ hw)

/-! ## A rotate of the CB page -/

/-- A register and the flags are written in either order. -/
theorem setFlags_setReg (s : State) (r : Reg8) (v : Byte) (f : Flags) :
    (s.setFlags f).setReg r v = (s.setReg r v).setFlags f := by cases r <;> rfl

/-- A rotate of a register: the rotated byte is written to it, and the flags (R147). -/
theorem cbRotate_reg (op : RotOp) (r : Reg8) (s : State) : cbRotate op (.reg r) s =
    .next (((s.fetched 2 8).setReg r (rotateValue op (s.reg r) s.regs.f.c).1).setFlags
      (rotateFlags (rotateValue op (s.reg r) s.regs.f.c))) :=
  congrArg Host.Outcome.next (setFlags_setReg ..)

/-- A rotate of the byte at HL: the rotated byte is written back, and the flags (R147). -/
theorem cbRotate_indHl (op : RotOp) (s : State) : cbRotate op .indHl s =
    modifyHl 2 16 (fun m => (rotateValue op m s.regs.f.c).1) (fun m => rotateFlags (rotateValue op m s.regs.f.c)) s := rfl

/-- `op` is the operation of a CB-page rotate or shift: the encodings have the operand in the `r8` field, and each of the two
forms is `cbRotate` (R77, R147).  Every field unfolds one definition of the model for given instructions, and is proved so where
none is written. -/
structure RunsCbRotate (register : Reg8 → Instr) (atHl : Instr) (opcode : Byte) (op : RotOp) : Prop where
  opcode_low : opcode &&& 7 = 0 := by decide
  encode_register : ∀ r, encode (register r) = cbBytes opcode r.code := by intros; rfl
  encode_atHl : encode atHl = [0xCB, opcode + 6] := by rfl
  exec_register : ∀ r s, exec (register r) s = cbRotate op (.reg r) s := by intros; rfl
  exec_atHl : ∀ s, exec atHl s = cbRotate op .indHl s := by intros; rfl

/-- The two forms rotate their operand: what they write and the flags are the rotated byte and the bit that left it. -/
theorem RunsCbRotate.cbForms {register : Reg8 → Instr} {atHl : Instr} {opcode : Byte} {op : RotOp}
    {result : Nat → Nat → Nat} {carry : Nat → Prop} (hrun : RunsCbRotate register atHl opcode op)
    (hresult : ∀ v c, (rotateValue op v c).1.toNat = result v.toNat c.toNat)
    (hcarry : ∀ v c, (rotateValue op v c).2 = true ↔ carry v.toNat) : CbForms register atHl opcode result carry := by
  have hflags {t : State} {v : Byte} {c : Bool} (ht : t.regs.f = rotateFlags (rotateValue op v c)) :
      FlagsAre t ((rotateValue op v c).1 = 0) False False (carry v.toNat) :=
    flagsAre_of_result ht Bool.false_eq_true.to_iff Bool.false_eq_true.to_iff (hcarry v c)
  refine ⟨cbEncodings_of_cbBytes hrun.opcode_low hrun.encode_register hrun.encode_atHl, fun s r => ?_, ?_⟩
  · obtain ⟨t, hexec, hr, hf, hothers, hsp, hframe⟩ :=
      exec_setReg_setFlags ((hrun.exec_register r s).trans (cbRotate_reg op r s))
    exact ⟨t, _, hexec, hr, hresult .., hothers, hsp, hflags hf, hframe⟩
  · refine cbAtHl_of_modifyHl (fun s => (hrun.exec_atHl s).trans (cbRotate_indHl op s)) (fun s m v hv => ?_)
      fun s t m ht => ⟨by rw [ht], hflags (by rw [ht])⟩
    exact BitVec.eq_of_toNat_eq ((hresult m s.regs.f.c).trans hv.symm)

/-- Settles O36: the rotated bytes and the bits that leave, as numbers. -/
theorem rotatesOperand : Obligations.RotatesOperand :=
  ⟨RunsCbRotate.cbForms (op := .rlc) {} (fun v _ => rotateLeft_toNat v) (fun v _ => bit7_iff v),
    RunsCbRotate.cbForms (op := .rrc) {} (fun v _ => rotateRight_toNat v) (fun v _ => bit0_iff v),
    RunsCbRotate.cbForms (op := .rl) {} rotateLeftCarry_toNat (fun v _ => bit7_iff v),
    RunsCbRotate.cbForms (op := .rr) {} rotateRightCarry_toNat (fun v _ => bit0_iff v)⟩

end Sys2Proof.Machine
end

section
/-! PROOFS. BIT, RES and SET (44_bit R157 to R159).  BIT is a read and a write of F alone, `readHl` at HL; RES and SET are one
operation that replaces a bit of a byte, on a register a load of it and at HL `modifyHl` with the flags as they were. -/

namespace Sys2Proof.Machine

/-! ## The encodings -/

/-- The bit index lies in bits 5:3, below a base that is a multiple of 0x40 (R76, R77). -/
theorem withField_bitIndex (x : Nat) {b : Nat} (hb : b < 8) :
    withField (BitVec.ofNat 8 (0x40 * x)) (BitVec.ofNat 8 b) 3 = BitVec.ofNat 8 (0x40 * x + 8 * b) := by
  have hindex : BitVec.ofNat 8 b <<< 3 = BitVec.ofNat 8 (8 * b) := by bv_omega
  rw [withField, hindex, ← BitVec.ofNat_or, ← Nat.two_pow_add_eq_or_of_lt (i := 6) (by omega)]

/-- The bit index leaves the operand's bits 2:0 clear. -/
theorem bitOpcode_low (x b : Nat) : BitVec.ofNat 8 (0x40 * x + 8 * b) &&& 7 = 0 := by
  apply BitVec.eq_of_toNat_eq
  rw [BitVec.toNat_and, BitVec.toNat_ofNat]
  refine (Nat.and_two_pow_sub_one_eq_mod _ 3).trans ?_
  change _ = 0
  omega

/-- The code of (HL) in bits 2:0 of an opcode that has them clear (R77). -/
theorem withField_indHl {opcode : Byte} (h : opcode &&& 7 = 0) : withField opcode 6 0 = opcode + 6 := by
  have hdisjoint : opcode &&& 6 = 0 := by
    rw [show (6 : Byte) = 7 &&& 6 by rfl, ← BitVec.and_assoc, h]
    exact BitVec.zero_and
  rw [BitVec.add_eq_or_of_and_eq_zero _ _ hdisjoint, withField, BitVec.shiftLeft_zero]

/-- The encodings of BIT, RES or SET: the operand in the `r8` field of the second byte, above it the bit index (R77, R84). -/
theorem cbEncodings_of_cbBitBytes {register : Reg8 → Instr} {atHl : Instr} {b : Nat} (x : Nat) (hb : b < 8)
    (hregister : ∀ r, encode (register r) = cbBitBytes (BitVec.ofNat 8 (0x40 * x)) b r.code)
    (hatHl : encode atHl = cbBitBytes (BitVec.ofNat 8 (0x40 * x)) b 6) :
    CbEncodings register atHl (BitVec.ofNat 8 (0x40 * x + 8 * b)) := by
  have hlow := bitOpcode_low x b
  refine cbEncodings_of_cbBytes hlow (fun r => ?_) ?_
  · rw [hregister, cbBitBytes, withField_bitIndex x hb, cbBytes]
  · rw [hatHl, cbBitBytes, withField_bitIndex x hb, withField_indHl hlow]

/-! ## BIT -/

/-- Z is the inverse of the tested bit, N is cleared, H is set and C is kept (R157). -/
theorem flagsAre_bitFlags {t : State} {old : Flags} {v : Byte} {b : Nat} (ht : t.regs.f = bitFlags old v b) :
    FlagsAre t (v.toNat / 2 ^ b % 2 = 0) False True (old.c = true) := by
  unfold FlagsAre
  rw [ht, ← getLsbD_toNat, Bool.toNat_eq_zero]
  exact ⟨(Bool.not_eq_true' _).to_iff, Bool.false_eq_true.to_iff, iff_true_intro rfl, .rfl⟩

/-- A fetch and a test of bit `b` of `v`: F is written, and no other register and no byte of memory (R157). -/
theorem bit_effect (b : Nat) (v : Byte) (s : State) (length cycles : Nat) {t : State}
    (ht : t = (s.fetched length cycles).setFlags (bitFlags s.regs.f v b)) :
    t.regs = { s.regs with f := t.regs.f } ∧ FlagsAre t (v.toNat / 2 ^ b % 2 = 0) False True (s.regs.f.c = true) ∧
      Advanced length cycles s t ∧ RegistersOnly s t ∧ SameReads s t := by
  subst ht
  exact ⟨rfl, flagsAre_bitFlags (setFlags_f ..), frame_of_fetched_regs rfl⟩

theorem exec_bitBR (b : Nat) (r : Reg8) (s : State) :
    exec (.bitBR b r) s = .next ((s.fetched 2 8).setFlags (bitFlags s.regs.f (s.reg r) b)) := rfl

theorem exec_bitBIndHl (b : Nat) (s : State) :
    exec (.bitBIndHl b) s = readHl 2 12 (fun v t => t.setFlags (bitFlags t.regs.f v b)) s := rfl

/-- Settles O38: BIT writes F alone, and its (HL) form reads once. -/
theorem testsBit : Obligations.TestsBit := by
  refine fun b hb => ⟨cbEncodings_of_cbBitBytes 1 hb (fun _ => rfl) rfl, fun s =>
    ⟨fun r => ?_, fun m hm => ?_, fun r hr => ?_⟩⟩
  · exact ⟨_, exec_bitBR b r s, bit_effect b (s.reg r) s 2 8 rfl⟩
  · exact ⟨_, (exec_bitBIndHl b s).trans (readHl_ok hm), bit_effect b m s 2 12 rfl⟩
  · exact (exec_bitBIndHl b s).trans (readHl_error hr)

/-! ## RES and SET -/

theorem getLsbD_bitMask (b k : Nat) : (bitMask b).getLsbD k = (decide (b < 8) && decide (b = k)) :=
  BitVec.getLsbD_twoPow b k

/-- RES clears bit `b` and keeps the others (R158). -/
theorem bitReplaced_clear (b : Nat) (v : Byte) : BitReplaced b false v (v &&& ~~~(bitMask b)) := by
  intro k hk
  rw [BitVec.getLsbD_and, BitVec.getLsbD_not, getLsbD_bitMask]
  split_ifs with h
  · simp [h]
  · simp [Ne.symm h, hk]

/-- SET sets bit `b` and keeps the others (R159). -/
theorem bitReplaced_set (b : Nat) (v : Byte) : BitReplaced b true v (v ||| bitMask b) := by
  intro k hk
  rw [BitVec.getLsbD_or, getLsbD_bitMask]
  split_ifs with h
  · simp [← h, hk]
  · simp [Ne.symm h]

/-- A byte with one bit replaced is determined. -/
theorem BitReplaced.unique {b : Nat} {bit : Bool} {old v w : Byte} (hv : BitReplaced b bit old v)
    (hw : BitReplaced b bit old w) : v = w :=
  BitVec.eq_of_getLsbD_eq fun k hk => (hv k hk).trans (hw k hk).symm

/-- `replace` is the operation of RES or SET for bit `b`: it makes the bit `bit`, and each of the two forms writes its operand
so (R147). -/
structure ReplacesBit (register : Reg8 → Instr) (atHl : Instr) (b : Nat) (bit : Bool) (replace : Byte → Byte) : Prop where
  replaced : ∀ v, BitReplaced b bit v (replace v)
  exec_register : ∀ r s, exec (register r) s = .next ((s.fetched 2 8).setReg r (replace (s.reg r))) := by intros; rfl
  exec_atHl : ∀ s, exec atHl s = modifyHl 2 16 replace (fun _ => s.regs.f) s := by intros; rfl

section
variable {register : Reg8 → Instr} {atHl : Instr} {b : Nat} {bit : Bool} {replace : Byte → Byte}

/-- The register form is a load of the register. -/
theorem ReplacesBit.loadsRegister (h : ReplacesBit register atHl b bit replace) (s : State) (r : Reg8) :
    ∃ t, exec (register r) s = .next t ∧ BitReplaced b bit (s.reg r) (t.reg r) ∧
      (∀ q, q ≠ r → t.reg q = s.reg q) ∧ t.regs.f = s.regs.f ∧ t.regs.sp = s.regs.sp ∧
      Advanced 2 8 s t ∧ RegistersOnly s t ∧ SameReads s t := by
  obtain ⟨hr, hothers, hf, hsp⟩ := loaded_setReg r (replace (s.reg r)) s (s.fetched 2 8) rfl
  refine ⟨_, h.exec_register r s, ?_, hothers, hf, hsp, frame_of_fetched_regs rfl⟩
  rw [hr]
  exact h.replaced (s.reg r)

/-- The (HL) form writes the byte back and keeps the flags. -/
theorem ReplacesBit.cbAtHl (h : ReplacesBit register atHl b bit replace) :
    CbAtHl atHl (fun _ m v => BitReplaced b bit m v) (fun _ _ s t => t.regs = s.regs) :=
  cbAtHl_of_modifyHl h.exec_atHl (fun _ m _ hv => (h.replaced m).unique hv) fun _ _ _ ht => ht

end

theorem res_replacesBit (b : Nat) : ReplacesBit (.resBR b) (.resBIndHl b) b false fun v => v &&& ~~~(bitMask b) where
  replaced := bitReplaced_clear b

theorem set_replacesBit (b : Nat) : ReplacesBit (.setBR b) (.setBIndHl b) b true fun v => v ||| bitMask b where
  replaced := bitReplaced_set b

/-- Settles O39: RES and SET replace bit `b` of their operand. -/
theorem resetsAndSetsBit : Obligations.ResetsAndSetsBit := fun b hb =>
  ⟨cbEncodings_of_cbBitBytes 2 hb (fun _ => rfl) rfl, cbEncodings_of_cbBitBytes 3 hb (fun _ => rfl) rfl,
    (res_replacesBit b).loadsRegister, (set_replacesBit b).loadsRegister,
    (res_replacesBit b).cbAtHl, (set_replacesBit b).cbAtHl⟩

end Sys2Proof.Machine
end

section
/-! PROOFS. The decoder and the encoder (30_encoding R75 to R87).  An opcode byte fixes how many bytes `decode` takes, and the two
tables agree row by row: the one-byte rows and the CB page are compared byte by byte, the rows with an operand for every operand. -/

namespace Sys2Proof

/-! ## The operand bytes -/

/-- The two bytes of `nn` put together again (R66, R78). -/
@[simp] theorem immediate16_low_high (nn : Word) : immediate16 (lowByte nn) (highByte nn) = nn :=
  Machine.wordOf_hi_lo nn

@[simp] theorem lowByte_immediate16 (byte2 byte3 : Byte) : lowByte (immediate16 byte2 byte3) = byte2 :=
  Machine.loByte_wordOf byte3 byte2

@[simp] theorem highByte_immediate16 (byte2 byte3 : Byte) : highByte (immediate16 byte2 byte3) = byte3 :=
  Machine.hiByte_wordOf byte3 byte2

/-! ## The length and the bytes the decoder takes (R82) -/

theorem instrLength_eq_three_iff (op : Byte) : instrLength op = 3 ↔ op ∈ threeByteOpcodes := by
  unfold instrLength
  split_ifs <;> simp_all

theorem threeByteOpcodes_disjoint : ∀ op ∈ twoByteOpcodes, op ∉ threeByteOpcodes := by decide

theorem instrLength_eq_two_iff (op : Byte) : instrLength op = 2 ↔ op ∈ twoByteOpcodes := by
  unfold instrLength
  split_ifs with hthree htwo
  · exact ⟨fun h => absurd h (by decide), fun htwo => absurd hthree (threeByteOpcodes_disjoint op htwo)⟩
  · simp [htwo]
  · simp [htwo]

theorem instrLength_cases (op : Byte) : instrLength op = 1 ∨ instrLength op = 2 ∨ instrLength op = 3 := by
  unfold instrLength
  split_ifs <;> simp

theorem decode_one {op : Byte} (h : instrLength op = 1) (rest : List Byte) :
    decode (op :: rest) = .ok (decodeOpcode op 0 0, rest) := by
  simp [decode, h]

theorem decode_two {op : Byte} (h : instrLength op = 2) (byte2 : Byte) (rest : List Byte) :
    decode (op :: byte2 :: rest) = .ok (decodeOpcode op byte2 0, rest) := by
  simp [decode, h]

theorem decode_three {op : Byte} (h : instrLength op = 3) (byte2 byte3 : Byte) (rest : List Byte) :
    decode (op :: byte2 :: byte3 :: rest) = .ok (decodeOpcode op byte2 byte3, rest) := by
  simp [decode, h]

theorem decode_truncated {op : Byte} {rest : List Byte} (h : rest.length + 1 < instrLength op) :
    decode (op :: rest) = .error .truncated := by
  rcases instrLength_cases op with hl | hl | hl <;> rw [hl] at h
  · omega
  · match rest with
    | [] => simp [decode, hl]
    | _ :: _ => simp at h
  · match rest with
    | [] => simp [decode, hl]
    | [_] => simp [decode, hl]
    | _ :: _ :: _ => simp at h; omega

/-- Enough bytes are an instruction: the byte after the opcode and the one after it, where the length takes them, and the bytes
after those are left over. -/
theorem decode_enough {op : Byte} {rest : List Byte} (h : instrLength op ≤ rest.length + 1) :
    ∃ i, decode (op :: rest) = .ok (i, rest.drop (instrLength op - 1)) := by
  rcases instrLength_cases op with hl | hl | hl <;> rw [hl] at h ⊢
  · exact ⟨_, decode_one hl rest⟩
  · match rest with
    | [] => simp at h
    | byte2 :: rest => exact ⟨_, decode_two hl byte2 rest⟩
  · match rest with
    | [] | [_] => simp at h
    | byte2 :: byte3 :: rest => exact ⟨_, decode_three hl byte2 byte3 rest⟩

/-- Settles O4: the lists are those of `instrLength`, and they have no byte in common. -/
theorem lengthFollowsFirstByte : Obligations.LengthFollowsFirstByte := fun op _ =>
  ⟨instrLength_eq_three_iff op, instrLength_eq_two_iff op, instrLength_cases op, decode_truncated, decode_enough⟩

/-! ## The CB page -/

/-- The `r8` code of an operand (R77). -/
def Operand8.code : Operand8 → Byte
  | .reg r => r.code
  | .indHl => 6

/-- The bytes of BIT, RES and SET hold the bit index in bits 5:3 and the operand in bits 2:0 (R76, R77, R84). -/
theorem cbOpOf_bitBytes (o : Operand8) : ∀ b < 8,
    cbOpOf (withField (withField 0x40 (BitVec.ofNat 8 b) 3) o.code 0) = .bit b o ∧
    cbOpOf (withField (withField 0x80 (BitVec.ofNat 8 b) 3) o.code 0) = .res b o ∧
    cbOpOf (withField (withField 0xC0 (BitVec.ofNat 8 b) 3) o.code 0) = .set b o := by
  rcases o with (_ | _) | _ <;> decide

theorem decode_cb (op2 : Byte) (rest : List Byte) : decode (0xCB :: op2 :: rest) = .ok ((cbOpOf op2).instr, rest) := rfl

/-- What the decoder answers for a byte of the CB page is encoded as that pair of bytes (R84). -/
theorem encode_cbOpOf : ∀ op2 : Byte, (cbOpOf op2).instr.wellFormed = true ∧ encode (cbOpOf op2).instr = [0xCB, op2] := by
  decide

/-! ## Decoding an encoding -/

/-- The target of RST is in bits 5:3 of its opcode (R77, R172). -/
theorem decodeOpcode_rst : ∀ target : Byte, rstTargetOk target = true →
    instrLength (0xC7 ||| target) = 1 ∧ decodeOpcode (0xC7 ||| target) 0 0 = .rstT target := by
  decide

/-- Settles O2: row by row, an operand field by its values, an immediate word by its two bytes, and the indexed rows of the CB
page by their fields. -/
theorem decodeEncode : Obligations.DecodeEncode := by
  intro i rest hwf
  have word (f : Word → Instr) (nn : Word) :
      (Except.ok (f (immediate16 (lowByte nn) (highByte nn)), rest) : Except DecodeError _) = .ok (f nn, rest) := by
    rw [immediate16_low_high]
  have cb {op2 : Byte} {o : CbOp} (h : cbOpOf op2 = o) : decode (0xCB :: op2 :: rest) = .ok (o.instr, rest) := by
    rw [decode_cb, h]
  cases i with
  | prefixCb => cases hwf
  | rstT target =>
    obtain ⟨hlength, hdecode⟩ := decodeOpcode_rst target hwf
    exact (decode_one hlength rest).trans (by rw [hdecode])
  | bitBR b r => exact cb (cbOpOf_bitBytes (.reg r) b (of_decide_eq_true hwf)).1
  | bitBIndHl b => exact cb (cbOpOf_bitBytes .indHl b (of_decide_eq_true hwf)).1
  | resBR b r => exact cb (cbOpOf_bitBytes (.reg r) b (of_decide_eq_true hwf)).2.1
  | resBIndHl b => exact cb (cbOpOf_bitBytes .indHl b (of_decide_eq_true hwf)).2.1
  | setBR b r => exact cb (cbOpOf_bitBytes (.reg r) b (of_decide_eq_true hwf)).2.2
  | setBIndHl b => exact cb (cbOpOf_bitBytes .indHl b (of_decide_eq_true hwf)).2.2
  | ldRrNn rr nn => cases rr <;> exact word (.ldRrNn _) nn
  | jpCcNn cc nn => cases cc <;> exact word (.jpCcNn _) nn
  | callCcNn cc nn => cases cc <;> exact word (.callCcNn _) nn
  | ldIndNnSp nn => exact word .ldIndNnSp nn
  | jpNn nn => exact word .jpNn nn
  | callNn nn => exact word .callNn nn
  | ldIndNnA nn => exact word .ldIndNnA nn
  | ldAIndNn nn => exact word .ldAIndNn nn
  | incRr rr | addHlRr rr | decRr rr => cases rr <;> rfl
  | popRr rr | pushRr rr => cases rr <;> rfl
  | jrCcE cc _ | retCc cc => cases cc <;> rfl
  | ldRR dst src => cases dst <;> cases src <;> rfl
  | incR r | decR r | ldRN r _ | ldRIndHl r | ldIndHlR r => cases r <;> rfl
  | addAR r | adcAR r | subR r | sbcAR r | andR r | xorR r | orR r | cpR r => cases r <;> rfl
  | rlcR r | rrcR r | rlR r | rrR r | slaR r | sraR r | swapR r | srlR r => cases r <;> rfl
  | _ => rfl

/-! ## Encoding what is decoded -/

/-- The one-byte rows (R83, R85). -/
theorem encode_decodeOpcode_one : ∀ op : Byte, instrLength op = 1 →
    (decodeOpcode op 0 0).wellFormed = true ∧ encode (decodeOpcode op 0 0) = [op] := by
  decide

/-- The two-byte rows, each for every second byte (R83, R84). -/
theorem encode_decodeOpcode_two {op : Byte} (h : instrLength op = 2) (byte2 : Byte) :
    (decodeOpcode op byte2 0).wellFormed = true ∧ encode (decodeOpcode op byte2 0) = [op, byte2] := by
  have hop := (instrLength_eq_two_iff op).mp h
  fin_cases hop
  pick_goal 27
  · exact encode_cbOpOf byte2
  all_goals exact ⟨rfl, rfl⟩

/-- The three-byte rows, each for every word (R83). -/
theorem encode_decodeOpcode_three {op : Byte} (h : instrLength op = 3) (byte2 byte3 : Byte) :
    (decodeOpcode op byte2 byte3).wellFormed = true ∧ encode (decodeOpcode op byte2 byte3) = [op, byte2, byte3] := by
  have hrow : (decodeOpcode op byte2 byte3).wellFormed = true ∧ encode (decodeOpcode op byte2 byte3) =
      [op, lowByte (immediate16 byte2 byte3), highByte (immediate16 byte2 byte3)] := by
    have hop := (instrLength_eq_three_iff op).mp h
    fin_cases hop <;> exact ⟨rfl, rfl⟩
  rwa [lowByte_immediate16, highByte_immediate16] at hrow

/-- Settles O3: what was read is one byte, two or three, and the rows of each length encode as they were read. -/
theorem encodeDecode : Obligations.EncodeDecode := by
  intro bytes i rest h
  match bytes with
  | [] => cases h
  | op :: tail =>
    rcases instrLength_cases op with hl | hl | hl
    · rw [decode_one hl] at h
      cases h
      exact (encode_decodeOpcode_one op hl).imp_right fun he => by rw [he]; rfl
    · match tail with
      | [] => rw [decode_truncated (by simp [hl])] at h; cases h
      | byte2 :: tail =>
        rw [decode_two hl] at h
        cases h
        exact (encode_decodeOpcode_two hl byte2).imp_right fun he => by rw [he]; rfl
    · match tail with
      | [] | [_] => rw [decode_truncated (by simp [hl])] at h; cases h
      | byte2 :: byte3 :: tail =>
        rw [decode_three hl] at h
        cases h
        exact (encode_decodeOpcode_three hl byte2 byte3).imp_right fun he => by rw [he]; rfl

/-- Settles O1: the decoder on written-out bytes. -/
theorem decodesSpecWords : Obligations.DecodesSpecWords :=
  ⟨rfl, rfl, rfl, rfl, rfl, rfl, rfl, rfl, rfl, rfl, rfl, rfl, rfl, rfl, rfl, rfl⟩

/-! ## The opcode byte -/

/-- Whatever bytes follow, what is decoded from an opcode byte is encoded from that byte on; the check runs over the opcode bytes
with the bytes after them as variables (R83, R84). -/
theorem encode_decodeOpcode_head (op byte2 byte3 : Byte) : (encode (decodeOpcode op byte2 byte3)).head? = some op := by
  by_cases hcb : op = 0xCB
  · rw [hcb]
    exact congrArg List.head? (encode_cbOpOf byte2).2
  · have hrow : ∀ op : Byte, op ≠ 0xCB → (encode (decodeOpcode op byte2 byte3)).head? = some op :=
      of_decide_eq_true (Eq.refl true)
    exact hrow op hcb

end Sys2Proof
end

section
/-! PROOFS. What every step keeps (60_exceptions R180, R181): the invariant and the constants of the machine.  Each is read off
the four cases of a completed step, and for a step that runs an instruction off `ExecCase`. -/

namespace Sys2Proof.Machine

/-! ## What an instruction does to the power state and the EI delay -/

/-- EI's delay is started by EI, with `ime` false, cleared by DI, and otherwise kept (R176, R177). -/
theorem exec_eiDelay {i : Instr} {s t : State} (h : exec i s = .next t) :
    t.eiDelay = s.eiDelay ∨ (i = .di ∧ t.eiDelay = 0) ∨ (s.eiDelay = 0 ∧ t.eiDelay = 2 ∧ t.ime = false) := by
  cases exec_case h with
  | plain he => exact .inl he.control.2.2
  | reti u _ he ht => rw [ht]; exact .inl he.control.2.2
  | haltBug _ he _ => exact .inl he.control.2.2
  | halted _ u he ht => rw [ht]; exact .inl he.control.2.2
  | stop n _ u he ht => rw [ht]; exact .inl he.control.2.2
  | di hi u _ ht => rw [ht]; exact .inr (.inl ⟨hi, rfl⟩)
  | ei _ u he h0 ht => rw [ht]; exact .inr (.inr ⟨h0.2, rfl, he.control.2.1.trans h0.1⟩)

/-- Only STOP enters Stopped (R201). -/
theorem exec_stopped {i : Instr} {s t : State} (h : exec i s = .next t) (hm : t.mode = .stopped) :
    s.mode = .stopped ∨ ∃ n, i = .stop n := by
  cases exec_case h with
  | plain he => exact .inl (he.control.1.symm.trans hm)
  | reti u _ he ht => rw [ht] at hm; exact .inl (he.control.1.symm.trans hm)
  | haltBug _ he _ => exact .inl (he.control.1.symm.trans hm)
  | halted _ u _ ht => rw [ht] at hm; cases hm
  | stop n hi _ _ _ => exact .inr ⟨n, hi⟩
  | di _ u he ht => rw [ht] at hm; exact .inl (he.control.1.symm.trans hm)
  | ei _ u he _ ht => rw [ht] at hm; exact .inl (he.control.1.symm.trans hm)

/-! ## The state before the end of a step -/

theorem busInv_idle {s : State} (h : BusInv s) : BusInv (idle s) := h.congr rfl rfl rfl rfl rfl rfl

theorem busInv_wake {s : State} (h : BusInv s) : BusInv (wake s) := by
  rw [wake_core]
  exact h.congr rfl rfl rfl rfl rfl rfl

theorem busInv_eiTick {s : State} (h : BusInv s) : BusInv (eiTick s) := by
  rw [eiTick_spec]
  exact h.congr rfl rfl rfl rfl rfl rfl

theorem eiTick_eiDelay (s : State) : (eiTick s).eiDelay = s.eiDelay - 1 := by rw [eiTick_spec]

theorem eiTick_ime (s : State) : (eiTick s).ime = (s.ime || s.eiDelay == 1) := by rw [eiTick_spec]

theorem endStep_mode (s : State) : (endStep s).mode = s.mode := by rw [endStep_spec]

theorem endStep_ime (s : State) : (endStep s).ime = s.ime := by rw [endStep_spec]

theorem endStep_eiDelay (s : State) : (endStep s).eiDelay = s.eiDelay := by rw [endStep_spec]

/-- What a dispatch leaves of the processor's state: it runs, with `ime` and the EI delay cleared; and it keeps the bus part of
the invariant and the step count (R188). -/
theorem dispatch_keeps {s u : State} (h : dispatch s = .ok u) :
    u.mode = .running ∧ u.ime = false ∧ u.eiDelay = 0 ∧ u.draws = s.draws ∧ (BusInv s → BusInv u) := by
  obtain ⟨w, hw, rfl⟩ := dispatch_case h
  have he := effect_push16 hw
  refine ⟨rfl, he.control.2.1, he.control.2.2, he.constants.2.2.1, fun hi => ?_⟩
  exact (he.busInv (hi.congr rfl rfl rfl rfl rfl rfl)).congr rfl rfl rfl rfl rfl rfl

/-- A completed step ends some state with the step count it began with, and that state meets the bus part of the invariant if
the first one does. -/
theorem StepCase.ends {s t : State} (h : StepCase s t) :
    ∃ u, t = endStep u ∧ u.draws = s.draws ∧ (BusInv s → BusInv u) := by
  cases h with
  | stopped _ ht => exact ⟨_, ht, rfl, fun hi => busInv_idle (busInv_bootCheck hi)⟩
  | dispatched _ _ _ u hd ht =>
    obtain ⟨_, _, _, hdraws, hinv⟩ := dispatch_keeps hd
    exact ⟨u, ht, hdraws, fun hi => hinv (busInv_bootCheck hi)⟩
  | halted _ _ ht =>
    exact ⟨_, ht, by rw [wake_core]; rfl, fun hi => busInv_idle (busInv_wake (busInv_bootCheck hi))⟩
  | executed _ _ i u _ he ht =>
    refine ⟨_, ht, ?_, fun hi => busInv_eiTick (exec_busInv he (busInv_bootCheck hi))⟩
    rw [eiTick_spec]
    exact (exec_constants he).2.2.1

/-! ## The invariant -/

/-- After a step the EI delay is settled again: one that EI started is at 1, one that ran is over (R191). -/
theorem step_eiDelay {s t : State} (h : StepCase s t) (hi : s.eiDelay = 0 ∨ (s.eiDelay = 1 ∧ s.ime = false)) :
    t.eiDelay = 0 ∨ (t.eiDelay = 1 ∧ t.ime = false) := by
  cases h with
  | stopped _ ht =>
    rw [ht, endStep_eiDelay, endStep_ime]
    exact hi
  | dispatched _ _ _ u hd ht =>
    rw [ht, endStep_eiDelay]
    exact .inl (dispatch_keeps hd).2.2.1
  | halted _ _ ht =>
    rw [ht, endStep_eiDelay, endStep_ime, wake_core]
    exact hi
  | executed _ _ i u _ he ht =>
    rw [ht, endStep_eiDelay, endStep_ime, eiTick_eiDelay, eiTick_ime]
    rcases exec_eiDelay he with hkept | ⟨_, hcleared⟩ | ⟨_, hstarted, hime⟩
    · have : u.eiDelay = s.eiDelay := hkept
      omega
    · omega
    · rw [hstarted, hime]
      exact .inr ⟨rfl, rfl⟩

/-- Settles O57: a step ends a state that meets the bus part of the invariant, and settles the EI delay. -/
theorem stepKeepsInvariant : Obligations.StepKeepsInvariant := by
  intro s t hi h
  obtain ⟨_, _, hcase⟩ := step_case h
  obtain ⟨u, ht, _, hinv⟩ := hcase.ends
  refine BusInv.inv ?_ (step_eiDelay hcase hi.eiDelay)
  rw [ht]
  exact busInv_endStep (hinv hi.busInv)

/-! ## The constants -/

/-- A Stopped step changes neither the power state nor PC nor a register (R201). -/
theorem StepCase.of_stopped {s t : State} (h : StepCase s t) (hm : s.mode = .stopped) :
    t.mode = .stopped ∧ t.pc = s.pc ∧ t.regs = s.regs := by
  cases h with
  | stopped _ ht =>
    rw [ht, endStep_spec]
    exact ⟨hm, rfl, rfl⟩
  | dispatched hn => exact absurd hm hn
  | halted hh => rw [hm] at hh; cases hh
  | executed hr => rw [hm] at hr; cases hr

/-- A step that ends in Stopped began there or ran STOP (R201). -/
theorem StepCase.to_stopped {s t : State} (h : StepCase s t) (hm : t.mode = .stopped) :
    s.mode = .stopped ∨ ∃ n, fetchInstr (bootCheck s) = .ok (.stop n) := by
  cases h with
  | stopped hs => exact .inl hs
  | dispatched _ _ _ u hd ht =>
    rw [ht, endStep_mode, (dispatch_keeps hd).1] at hm
    cases hm
  | halted hh _ ht =>
    rw [ht, endStep_mode] at hm
    have hwake : (wake (bootCheck s)).mode = .running ∨ (wake (bootCheck s)).mode = s.mode := by
      unfold wake
      split
      · exact .inl rfl
      · exact .inr rfl
    rcases hwake with hw | hw <;> rw [idle_mode, hw] at hm
    · cases hm
    · exact .inl hm
  | executed _ _ i u hf he ht =>
    rw [ht, endStep_mode, eiTick_spec] at hm
    exact (exec_stopped he hm).imp_right fun ⟨n, hn⟩ => ⟨n, hn ▸ hf⟩

/-- Settles O60: the constants of a step, the step count of its end, and the two ways Stopped can be reached. -/
theorem stepConstants : Obligations.StepConstants := by
  intro s t h
  obtain ⟨_, _, hcase⟩ := step_case h
  obtain ⟨u, ht, hdraws, _⟩ := hcase.ends
  obtain ⟨hcart, hcfg, hfault, hrefused, hboot⟩ := step_constants h
  refine ⟨hcart, hcfg, hfault, hrefused, ?_, hboot, hcase.of_stopped, hcase.to_stopped⟩
  rw [ht, endStep_spec, ← hdraws]

end Sys2Proof.Machine
end

section
/-! PROOFS. When a step runs, idles, takes an interrupt or stops (60_exceptions R180 to R191). -/

namespace Sys2Proof.Machine

/-! ## Running the decoded instruction -/

/-- The bytes at PC are fetched as the instruction that a list of three of them decodes to (R79 to R82). -/
theorem fetchInstr_of_decode {s : State} {i : Instr} {op byte2 byte3 : Byte} {rest : List Byte}
    (h1 : memRead s s.pc = .ok op) (h2 : 2 ≤ instrLength op → memRead s s.afterOpcode = .ok byte2)
    (h3 : 3 ≤ instrLength op → memRead s (s.afterOpcode + 1) = .ok byte3)
    (hd : decode [op, byte2, byte3] = .ok (i, rest)) : fetchInstr s = .ok i := by
  rcases instrLength_cases op with hl | hl | hl
  · rw [decode_one hl] at hd
    cases hd
    exact fetchInstr_eq h1 (by omega) (fun _ => rfl) (by omega) (fun _ => rfl)
  · rw [decode_two hl] at hd
    cases hd
    exact fetchInstr_eq h1 h2 (by omega) (by omega) (fun _ => rfl)
  · rw [decode_three hl] at hd
    cases hd
    exact fetchInstr_eq h1 h2 (by omega) h3 (by omega)

/-- A step that fetches `i` is what `i` does after the boot check, with the end of the step after a completed one (R181). -/
theorem step_of_fetched {s : State} {i : Instr} (hf : s.fault = none) (hr : s.refused = false) (hm : s.mode = .running)
    (hn : s.ime = false ∨ s.pending = 0) (hi : fetchInstr (bootCheck s) = .ok i) :
    step s = completed (fun t => endStep (eiTick t)) (exec i (bootCheck s)) := by
  rw [step_executes hf hr hm hn, executeStep, hi]

/-- Settles O6: the instruction fetched is the one decoded, and `completed` passes each outcome on. -/
theorem stepRunsDecoded : Obligations.StepRunsDecoded := by
  intro s i op byte2 byte3 rest hf hr hm hn h1 h2 h3 hd
  have hstep := step_of_fetched hf hr hm hn (fetchInstr_of_decode h1 h2 h3 hd)
  refine ⟨(encodeDecode _ i rest hd).1, fun t he => ?_, fun f he => ?_, fun r he => ?_⟩ <;> rw [hstep, he] <;> rfl

/-! ## Idle steps -/

/-- The timer's update sees neither the power state nor the reported cycles (R196). -/
theorem timerUpdate_mode_lastCycles (n : Nat) (s : State) (m : Mode) (c : Nat) :
    timerUpdate n { s with mode := m, lastCycles := c } = { timerUpdate n s with mode := m, lastCycles := c } := by
  obtain ⟨htimer, hflags⟩ := timerUpdate_congr n (s := s) (t := { s with mode := m, lastCycles := c }) rfl rfl
  rw [timerUpdate_spec n { s with mode := m, lastCycles := c }, htimer, hflags, timerUpdate_spec n s]

theorem endStep_idle (s : State) (m : Mode) :
    endStep (idle { s with mode := m }) = { timerUpdate 4 s with mode := m, lastCycles := 4, draws := s.draws + 1 } := by
  have hupdate := timerUpdate_mode_lastCycles 4 s m 4
  have hdraws : (timerUpdate 4 s).draws = s.draws := by rw [timerUpdate_spec]
  unfold endStep idle
  rw [hupdate, ← hdraws]

theorem wake_eq (s : State) : wake s = { s with mode := if s.pending = 0 then s.mode else .running } := by
  unfold wake
  by_cases hp : s.pending = 0
  · rw [hp, if_neg (by decide), if_pos rfl]
  · rw [if_pos (bne_iff_ne.mpr hp), if_neg hp]

/-- Settles O8: an idle step is the end of a step of 4 cycles; a Halted one wakes first. -/
theorem idleSteps : Obligations.IdleSteps := by
  intro s hf hr
  refine ⟨fun hm => ?_, fun hm hn => ?_⟩
  · rw [step_running hf hr, processorStep, bootCheck_mode, if_pos hm]
    refine congrArg Host.Outcome.next ((endStep_idle (bootCheck s) s.mode).trans ?_)
    rw [timerUpdate_spec]
    rfl
  · have hno : ¬ ((bootCheck s).ime && (bootCheck s).pending != 0) = true := by
      rw [pending_bootCheck, bootCheck_ime]
      rcases hn with hn | hn <;> simp [hn]
    rw [step_running hf hr, processorStep, bootCheck_mode, hm, if_neg (by decide), if_neg hno, if_pos rfl, wake_eq,
      pending_bootCheck, bootCheck_mode, hm]
    exact congrArg Host.Outcome.next (endStep_idle (bootCheck s) _)

/-! ## Stopped machines -/

theorem step_of_fault {s : State} {f : Fault} (h : s.fault = some f) : step s = .fault f := by
  simp [step, machineStep, h]

theorem step_of_refused {s : State} (hf : s.fault = none) (hr : s.refused = true) : step s = .refused .alreadyRefused := by
  simp [step, machineStep, hf, hr]

/-- Settles O9: `settle` sets the mark, and a marked state stops. -/
theorem stuckStates : Obligations.StuckStates := by
  intro s
  refine ⟨fun f => step_of_fault, step_of_refused, fun f h => ?_, fun r h => ?_⟩ <;> rw [h] <;> refine ⟨rfl, ?_⟩
  · exact step_of_fault rfl
  · have hf : s.fault = none := by
      cases hc : s.fault with
      | none => rfl
      | some f => rw [step_of_fault hc] at h; cases h
    exact step_of_refused (s := { s with refused := true }) hf rfl

/-! ## The illegal bytes -/

/-- The eleven bytes that are no instruction (R85). -/
def illegalOpcodes : List Byte := [0xD3, 0xDB, 0xDD, 0xE3, 0xE4, 0xEB, 0xEC, 0xED, 0xF4, 0xFC, 0xFD]

/-- Only an illegal byte faults, with the address and the byte (R179, R182). -/
theorem exec_fault {i : Instr} {s : State} {f : Fault} (h : exec i s = .fault f) :
    ∃ op ∈ illegalOpcodes, encode i = [op] ∧ f = .illegalOpcode s.pc op := by
  cases i <;> simp only [exec] at h
  case illegalD3 | illegalDB | illegalDD | illegalE3 | illegalE4 | illegalEB | illegalEC | illegalED | illegalF4 | illegalFC
      | illegalFD =>
    cases h
    exact ⟨_, by decide, rfl, rfl⟩
  case jpCcNn | jrCcE => simp only [execJpCcNn, execJrCcE] at h; split at h <;> cases h
  case halt | ei => simp only [execHalt, execEi] at h; split at h <;> cases h
  case callCcNn =>
    simp only [execCallCcNn] at h
    split at h
    · exact absurd h answer_ne_fault
    · cases h
  case retCc =>
    simp only [execRetCc] at h
    split at h
    · exact absurd h answer_ne_fault
    · cases h
  case prefixCb => exact absurd h (performCb_nf _ _ _)
  case ldRIndHl | addAIndHl | adcAIndHl | subIndHl | sbcAIndHl | andIndHl | xorIndHl | orIndHl | cpIndHl | incIndHl | decIndHl =>
    exact absurd h answer_ne_fault
  case ldAIndBc | ldAIndDe | ldAIndNn | ldhAIndN | ldAIndC | ldIndBcA | ldIndDeA | ldIndNnA | ldhIndNA | ldIndCA | ldIndHlR
      | ldIndHlN | ldIndHlIncA | ldIndHlDecA | ldAIndHlInc | ldAIndHlDec | ldIndNnSp =>
    exact absurd h answer_ne_fault
  case pushRr | popRr | callNn | rstT | ret | reti => exact absurd h answer_ne_fault
  case rlcIndHl | rrcIndHl | rlIndHl | rrIndHl | slaIndHl | sraIndHl | swapIndHl | srlIndHl => exact absurd h answer_ne_fault
  case bitBIndHl | resBIndHl | setBIndHl => exact absurd h answer_ne_fault
  all_goals cases h

/-- An opcode byte whose instruction faults is the illegal byte of the fault (R85, R179). -/
theorem exec_decodeOpcode_fault {op byte2 byte3 : Byte} {s : State} {f : Fault}
    (h : exec (decodeOpcode op byte2 byte3) s = .fault f) : op ∈ illegalOpcodes ∧ f = .illegalOpcode s.pc op := by
  obtain ⟨byte, hmem, hencode, hf⟩ := exec_fault h
  have hhead := encode_decodeOpcode_head op byte2 byte3
  rw [hencode] at hhead
  cases hhead
  exact ⟨hmem, hf⟩

/-- An illegal byte faults whatever bytes follow it (R85, R179). -/
theorem exec_illegal {op : Byte} (h : op ∈ illegalOpcodes) (byte2 byte3 : Byte) (s : State) :
    exec (decodeOpcode op byte2 byte3) s = .fault (.illegalOpcode s.pc op) := by
  unfold illegalOpcodes at h
  fin_cases h <;> rfl

theorem instrLength_illegal : ∀ op ∈ illegalOpcodes, instrLength op = 1 := by decide

/-- An illegal byte at PC is fetched alone. -/
theorem fetchInstr_illegal {op : Byte} (h : op ∈ illegalOpcodes) {s : State} (hr : memRead s s.pc = .ok op) :
    fetchInstr s = .ok (decodeOpcode op 0 0) := by
  have hl := instrLength_illegal op h
  exact fetchInstr_eq hr (by omega) (fun _ => rfl) (by omega) (fun _ => rfl)

/-- Settles O5: the illegal bytes are those whose instruction faults, and a step fetches such a byte alone. -/
theorem illegalBytesFault : Obligations.IllegalBytesFault := by
  refine ⟨fun s => ⟨rfl, rfl, rfl, rfl, rfl, rfl, rfl, rfl, rfl, rfl, rfl⟩, fun op byte2 byte3 s => ⟨?_, ?_⟩, ?_⟩
  · exact fun hop => exec_illegal hop byte2 byte3 s
  · exact fun hop f hf => hop (exec_decodeOpcode_fault hf).1
  · intro op s hf hr hm hn hop hread
    rw [step_of_fetched hf hr hm hn (fetchInstr_illegal hop hread), exec_illegal hop]
    rfl

/-! ## Why a step stops -/

/-- The opcode byte of a fetched instruction was read at PC (R79, R81). -/
theorem fetchInstr_opcode {s : State} {i : Instr} (h : fetchInstr s = .ok i) :
    ∃ op byte2 byte3, memRead s s.pc = .ok op ∧ i = decodeOpcode op byte2 byte3 := by
  simp only [fetchInstr, except_bind_eq_ok, except_map_eq_ok] at h
  obtain ⟨op, hop, byte2, _, byte3, _, hi⟩ := h
  exact ⟨op, byte2, byte3, hop, hi.symm⟩

theorem completed_eq_fault {k : State → State} {a : Answer} {f : Fault} (h : completed k a = .fault f) : a = .fault f := by
  cases a with
  | fault => exact h
  | next | refused => cases h

/-- A step faults only in a state that has, or where the instruction it fetched does (R181, R182). -/
theorem step_fault {s : State} {f : Fault} (h : step s = .fault f) :
    s.fault = some f ∨ ∃ i, fetchInstr (bootCheck s) = .ok i ∧ exec i (bootCheck s) = .fault f := by
  unfold step machineStep at h
  split at h
  next f' hf =>
    cases h
    exact .inl hf
  split at h
  · cases h
  unfold processorStep at h
  split at h
  · cases h
  split at h
  · exact absurd (completed_eq_fault h) answer_ne_fault
  split at h
  · cases h
  unfold executeStep at h
  split at h
  · cases h
  next i hi => exact .inr ⟨i, hi, completed_eq_fault h⟩

/-- Settles O10: a fault is an illegal byte's, and a refusal the clock register's. -/
theorem onlyKnownStops : Obligations.OnlyKnownStops := by
  refine fun s => ⟨fun f h => (step_fault h).imp_right ?_, fun r h => ?_⟩
  · rintro ⟨i, hi, he⟩
    obtain ⟨op, byte2, byte3, hread, rfl⟩ := fetchInstr_opcode hi
    obtain ⟨hop, hf⟩ := exec_decodeOpcode_fault he
    exact ⟨op, hop, hread, hf⟩
  · rcases step_refused h with ⟨hr, hrtc⟩ | hagain
    · simp only [rtcSelected, Bool.and_eq_true, beq_iff_eq, decide_eq_true_eq] at hrtc
      obtain ⟨⟨hvariant, hram⟩, hbank⟩ := hrtc
      exact .inr ⟨hr, hvariant, hram, hbank⟩
    · exact .inl hagain

/-! ## The EI delay -/

/-- EI with `ime` false and no delay running starts the delay (R177). -/
theorem exec_ei_starts {s : State} (hime : s.ime = false) (h0 : s.eiDelay = 0) :
    exec .ei s = .next { s.fetched 1 4 with eiDelay := 2 } := by
  show execEi s = _
  simp [execEi, hime, h0]

/-- Settles O47: EI starts the delay at 2 and the end of its step leaves 1; the end of the next instruction's step counts that
down, unless DI cleared it. -/
theorem eiDelay : Obligations.EiDelay := by
  intro s t i h
  obtain ⟨_, _, hcase⟩ := step_case h
  refine ⟨fun hm hime hi => ?_, fun hm hime => ?_⟩
  · obtain ⟨u, he, hdelay, hu⟩ : ∃ u, exec i (bootCheck s) = .next u ∧ t.eiDelay = u.eiDelay - 1 ∧
        t.ime = (u.ime || u.eiDelay == 1) := by
      cases hcase with
      | stopped hs => rw [hm] at hs; cases hs
      | dispatched _ hc => rw [hime] at hc; cases hc
      | halted hh => rw [hm] at hh; cases hh
      | executed _ _ j u hf he ht =>
        cases hf.symm.trans hi
        exact ⟨u, he, by rw [ht, endStep_eiDelay, eiTick_eiDelay], by rw [ht, endStep_ime, eiTick_ime]⟩
    rw [hdelay, hu]
    refine ⟨fun hei h0 => ?_, fun hdi h1 => ?_, fun hdi => ?_⟩
    · rw [hei, exec_ei_starts (s := bootCheck s) hime h0] at he
      cases he
      exact ⟨by simp [hime], rfl⟩
    · rcases exec_eiDelay he with hkept | ⟨hc, _⟩ | ⟨h0, _⟩
      · rw [hkept, bootCheck_eiDelay, h1]
        simp
      · exact absurd hc hdi
      · rw [bootCheck_eiDelay, h1] at h0
        cases h0
    · rw [hdi] at he
      cases he
      exact ⟨rfl, rfl⟩
  · cases hcase with
    | stopped _ ht =>
      rw [ht, endStep_eiDelay, endStep_ime]
      exact ⟨hime, rfl⟩
    | dispatched _ hc => rw [hime] at hc; cases hc
    | halted _ _ ht =>
      rw [ht, endStep_eiDelay, endStep_ime, wake_core]
      exact ⟨hime, rfl⟩
    | executed hr => exact absurd hr hm

/-! ## Taking an interrupt -/

/-- The state in which a dispatch pushes: the request of the source served, `ime`, the EI delay and the halt-bug condition are
cleared (R188). -/
def requestTaken (s : State) : State :=
  { s with irqFlags := s.irqFlags &&& ~~~(1#5 <<< lowestSource s.pending), ime := false, eiDelay := 0, haltBug := false }

/-- A dispatch whose two writes are given a meaning is those writes, SP two lower, and the processor running at the vector. -/
theorem dispatch_ok {s : State} (h : s.pushable s.returnAddress = true) :
    ∃ u w, memWrite (s.regs.sp - 1) (hiByte s.returnAddress) (requestTaken s) = .ok u ∧
      memWrite (s.regs.sp - 2) (loByte s.returnAddress) u = .ok w ∧
      dispatch s = .ok { w with
        regs := { s.regs with sp := s.regs.sp - 2 }, mode := .running, pc := vectorOf (lowestSource s.pending)
        lastCycles := s.cfg.intDispatchCycles } := by
  obtain ⟨u, w, hu, hw, hpush⟩ := push16_ok (s := requestTaken s) h
  refine ⟨u, w, hu, hw, ?_⟩
  show (push16 s.returnAddress (requestTaken s)).map _ = _
  rw [hpush]
  rfl

/-- IF is read at 0xFF0F alone (R45). -/
theorem memRead_requestTaken (s : State) {x : Word} (hx : x ≠ 0xFF0F) : memRead (requestTaken s) x = memRead s x := by
  refine memRead_congr x (.inl rfl) rfl rfl rfl (fun _ _ => rfl) (fun _ _ => rfl) (fun _ _ => rfl) (fun _ _ => rfl)
    (fun _ _ => rfl) (fun off hr => ?_) (fun _ _ => rfl) (fun _ => rfl)
  refine ioRead_congr off rfl (fun _ => rfl) ?_ (fun hoff => absurd (eq_iff_toNat.mpr ?_) hx) rfl
  · rintro (rfl | rfl | rfl | rfl) <;> rfl
  · have hspec := regionOf_spec x
    rw [hr] at hspec
    exact hspec.2.2.symm.trans (by rw [hoff]; rfl)

/-- Writes to plain RAM change the byte arrays alone (R39). -/
theorem memWrite_plainRam_ram {a : Word} {v : Byte} {s t : State} (ha : plainRam a = true) (h : memWrite a v s = .ok t) :
    t = { s with ram := t.ram } := by
  obtain ⟨u, hu, _, hs⟩ := memWrite_plainRam v s ha
  cases hu.symm.trans h
  rw [hs]

/-- Settles O7: the source is the lowest pending one, the push is two bus writes, and in plain RAM these are two bytes stored. -/
theorem stepDispatches : Obligations.StepDispatches := by
  intro s i hf hr hm hime hi hlow hpush
  have hsource : lowestSource s.pending = i := lowestSource_eq hi hlow
  have hpending : s.pending ≠ 0 := by
    intro h0
    rw [h0] at hi
    simp at hi
  obtain ⟨u, w, hu, hw, hd⟩ := dispatch_ok (s := bootCheck s) hpush
  have hcontrol : w.ime = false ∧ w.eiDelay = 0 ∧ w.haltBug = false := by
    rw [memWrite_busWrite hw, memWrite_busWrite hu]
    exact ⟨rfl, rfl, rfl⟩
  obtain ⟨hwime, hwdelay, hwbug⟩ := hcontrol
  have hstep := (step_dispatches hf hr hm hime hpending).trans (congrArg (fun d => completed endStep (answer d)) hd)
  refine ⟨rfl, _, hstep, congrArg vectorOf hsource, rfl, hwime, hwdelay, hwbug, rfl, rfl, fun ha hb => ?_⟩
  obtain ⟨_, hreads, hhigh, hlowbyte⟩ := storedTwo_core hu hw (fun _ h => touched_near h (sub_near _)) w.regs w.pc w.haltBug
    w.lastCycles
  have hram : w = { requestTaken (bootCheck s) with ram := w.ram } := by
    rw [memWrite_plainRam_ram hb hw, memWrite_plainRam_ram ha hu]
  refine ⟨?_, ?_, hhigh ha hb, hlowbyte hb, fun x hx h1 h2 => ?_⟩
  · rw [hram, ← hsource]
    rfl
  · rw [hram]
    rfl
  · exact (hreads x h1 h2).trans (memRead_requestTaken (bootCheck s) hx)

end Sys2Proof.Machine
end

section
/-! PROOFS. The timer (60_exceptions R195, R196): DIV and TIMA, each with its sub-counter, are a quotient and a remainder of the
cycles counted. -/

namespace Sys2Proof.Machine

/-- The timer changes nothing but its own fields and IF (R196). -/
theorem timerUpdate_frame (n : Nat) (s : State) :
    timerUpdate n s = { s with timer := (timerUpdate n s).timer, irqFlags := (timerUpdate n s).irqFlags } := by
  rw [timerUpdate_spec]

/-- Settles O11: DIV is the quotient of the cycles by 256, and its sub-counter the remainder. -/
theorem timerDivider : Obligations.TimerDivider := by
  intro n s
  obtain ⟨hdiv, hsub⟩ := timerUpdate_div n s
  refine ⟨?_, ?_, timerUpdate_frame n s, fun x => memRead_timerUpdate n s, endStep_spec s⟩ <;> rw [hsub]
  · exact Nat.mod_lt _ (by decide)
  · rw [hdiv, BitVec.toNat_add, BitVec.toNat_ofNat]
    omega

/-! ## TIMA -/

theorem timerPeriod_eq : ∀ tac : BitVec 3, timerPeriod tac =
    if tac.toNat % 4 = 0 then 1024 else if tac.toNat % 4 = 1 then 16 else if tac.toNat % 4 = 2 then 64 else 256 := by
  decide

theorem timerUpdate_tma_tac (n : Nat) (s : State) :
    (timerUpdate n s).timer.tma = s.timer.tma ∧ (timerUpdate n s).timer.tac = s.timer.tac := by
  rw [timerUpdate_spec]
  exact ⟨rfl, rfl⟩

/-- With TAC[2] clear TIMA, its sub-counter and IF are held (R196). -/
theorem timerUpdate_held (n : Nat) {s : State} (h : s.timer.tac.getLsbD 2 = false) :
    (timerUpdate n s).timer.tima = s.timer.tima ∧ (timerUpdate n s).timer.timaSub = s.timer.timaSub ∧
      (timerUpdate n s).irqFlags = s.irqFlags := by
  have hoff : timerUpdate n s = divUpdate n s := by
    unfold timerUpdate timaUpdate
    exact if_neg (by rw [show (divUpdate n s).timer.tac = s.timer.tac from rfl, h]; decide)
  rw [hoff]
  exact ⟨rfl, rfl, rfl⟩

/-- With TAC[2] set TIMA is incremented once per period, from its old value and with the old TMA and IF, and the sub-counter keeps
the remainder (R196). -/
theorem timerUpdate_counts (n : Nat) {s : State} (h : s.timer.tac.getLsbD 2 = true) :
    ∃ u, timerUpdate n s = timaTicks ((s.timer.timaSub + n) / timerPeriod s.timer.tac) u ∧
      u.timer.tima = s.timer.tima ∧ u.timer.tma = s.timer.tma ∧ u.irqFlags = s.irqFlags ∧
      (timerUpdate n s).timer.timaSub = (s.timer.timaSub + n) % timerPeriod s.timer.tac := by
  have hon : timerUpdate n s = timaTicks ((s.timer.timaSub + n) / timerPeriod s.timer.tac)
      { divUpdate n s with timer := { (divUpdate n s).timer with
          timaSub := (s.timer.timaSub + n) % timerPeriod s.timer.tac } } := by
    unfold timerUpdate timaUpdate
    exact if_pos h
  refine ⟨_, hon, rfl, rfl, rfl, ?_⟩
  rw [hon, (timaTicks_spec _ _).1]

/-- With TAC[2] set: with `q` periods counted and `r` cycles kept, TIMA and its sub-counter together are `(TIMA + q) * period + r`,
up to the overflow and past it (R196). -/
theorem timerUpdate_total (n : Nat) {s : State} {period total : Nat} (h : s.timer.tac.getLsbD 2 = true)
    (hperiod : period = timerPeriod s.timer.tac) (htotal : total = s.timer.tima.toNat * period + s.timer.timaSub + n) :
    (timerUpdate n s).timer.timaSub < period ∧
    (total < 256 * period →
      (timerUpdate n s).timer.tima.toNat * period + (timerUpdate n s).timer.timaSub = total ∧
      (timerUpdate n s).irqFlags = s.irqFlags) ∧
    (256 * period ≤ total → total < 256 * period + (256 - s.timer.tma.toNat) * period →
      (timerUpdate n s).timer.tima.toNat * period + (timerUpdate n s).timer.timaSub + 256 * period =
        total + s.timer.tma.toNat * period) ∧
    (256 * period ≤ total → (timerUpdate n s).irqFlags = s.irqFlags ||| 0b00100#5) := by
  have hpos : 0 < period := hperiod ▸ timerPeriod_pos _
  obtain ⟨u, hupdate, htima, htma, hflags, hsub⟩ := timerUpdate_counts n h
  rw [← hperiod] at hupdate hsub
  have hsplit := Nat.div_add_mod' (s.timer.timaSub + n) period
  have hr := Nat.mod_lt (s.timer.timaSub + n) hpos
  generalize (s.timer.timaSub + n) / period = q at hupdate hsplit
  generalize (s.timer.timaSub + n) % period = r at hsub hsplit hr
  have hqr : total = (s.timer.tima.toNat + q) * period + r := by rw [htotal, Nat.add_mul]; omega
  have hlt (k : Nat) : total < k * period ↔ s.timer.tima.toNat + q < k := by
    rw [← Nat.div_lt_iff_lt_mul hpos, hqr, Nat.add_comm, Nat.add_mul_div_right _ _ hpos, Nat.div_eq_of_lt hr, Nat.zero_add]
  have htima' : (timerUpdate n s).timer.tima = (timaTicks q u).timer.tima := by rw [hupdate]
  have hflags' : (timerUpdate n s).irqFlags = (timaTicks q u).irqFlags := by rw [hupdate]
  rw [← htima] at hqr hlt
  rw [hsub, htima', hflags', ← htma, ← hflags]
  refine ⟨hr, fun hshort => ?_, fun hover hone => ?_, fun hover => ?_⟩
  · obtain ⟨hvalue, hkept⟩ := timaTicks_value q u ((hlt 256).mp hshort)
    exact ⟨by rw [hvalue, hqr], hkept⟩
  · rw [← Nat.add_mul, hlt] at hone
    have hvalue := (timaTicks_over q u (by rw [← not_lt, hlt] at hover; omega)).2 hone
    have hscaled := congrArg (· * period) hvalue
    simp only [Nat.add_mul] at hscaled hqr
    omega
  · exact (timaTicks_over q u (by rw [← not_lt, hlt] at hover; omega)).1

/-- Settles O12: what TAC[2] holds and what it lets count. -/
theorem timerCounter : Obligations.TimerCounter := by
  intro n s period total hperiod htotal
  obtain ⟨htma, htac⟩ := timerUpdate_tma_tac n s
  rw [← timerPeriod_eq] at hperiod
  have hcounts (h : s.timer.tac.getLsbD 2 = true) := timerUpdate_total n h hperiod htotal
  exact ⟨htma, htac, timerUpdate_frame n s, timerUpdate_irqFlags n s, timerUpdate_held n, fun h => (hcounts h).1,
    fun h => (hcounts h).2.1, fun h => (hcounts h).2.2.1, fun h => (hcounts h).2.2.2⟩

end Sys2Proof.Machine
end

section
/-! PROOFS. The loads and stores (40_loads R92 to R114): a load is a fetch and a register, a store is a fetch and a bus write, and
the stack instructions are two bus accesses and SP. -/

namespace Sys2Proof.Machine

/-! ## Loads of a register -/

/-- A fetch and a write of register `r` load it, and change nothing else. -/
theorem loads_of_fetched_setReg (length cycles : Nat) (r : Reg8) (v : Byte) (s : State) :
    Loaded r v s ((s.fetched length cycles).setReg r v) ∧ Advanced length cycles s ((s.fetched length cycles).setReg r v) ∧
      RegistersOnly s ((s.fetched length cycles).setReg r v) ∧ SameReads s ((s.fetched length cycles).setReg r v) :=
  ⟨loaded_setReg r v s (s.fetched length cycles) rfl, frame_of_fetched_regs rfl⟩

/-- Settles O13. -/
theorem loadsRegister : Obligations.LoadsRegister := fun _ =>
  ⟨fun _ _ => ⟨_, rfl, loads_of_fetched_setReg ..⟩, fun _ _ => ⟨_, rfl, loads_of_fetched_setReg ..⟩⟩

/-- A load of A from a readable address. -/
theorem loadA_loads {length cycles : Nat} {address : State → Word} {s : State} {v : Byte}
    (h : memRead s (address (s.fetched length cycles)) = .ok v) :
    ∃ t, loadA length cycles address s = .next t ∧
      Loaded .a v s t ∧ Advanced length cycles s t ∧ RegistersOnly s t ∧ SameReads s t :=
  ⟨_, loadA_ok h, loads_of_fetched_setReg ..⟩

/-- Settles O14: LD r,(HL) is `readHl`, and the loads of A are `loadA` at the address of the form. -/
theorem loadsFromMemory : Obligations.LoadsFromMemory := by
  refine fun s v => ⟨fun dst h => ⟨_, readHl_ok h, loads_of_fetched_setReg ..⟩, loadA_loads (address := State.bc),
    loadA_loads (address := State.de), fun nn => loadA_loads (address := fun _ => nn), fun n h => ?_, fun h => ?_⟩ <;>
    rw [← highPage_eq] at h
  · exact loadA_loads (address := fun _ => highPage n) h
  · exact loadA_loads (address := fun t => highPage t.regs.c) h

/-! ## Stores of a byte -/

/-- A store of a writable byte. -/
theorem storeByte_stores {length cycles : Nat} {address : State → Word} {value : State → Byte} {s : State}
    (h : s.writable (address (s.fetched length cycles)) (value (s.fetched length cycles)) = true) :
    ∃ t, storeByte length cycles address value s = .next t ∧
      StoredByte (address (s.fetched length cycles)) (value (s.fetched length cycles)) s t ∧ t.regs = s.regs ∧
      Advanced length cycles s t := by
  obtain ⟨u, hu⟩ := memWrite_ok h
  exact ⟨_, storeByte_ok hu, storedByte_core hu .., rfl, rfl, rfl, rfl⟩

/-- Settles O15: each form is `storeByte` at its address. -/
theorem storesByte : Obligations.StoresByte := by
  refine fun s => ⟨fun src => storeByte_stores (address := State.hl) (value := fun t => t.reg src),
    fun n => storeByte_stores (address := State.hl) (value := fun _ => n),
    storeByte_stores (address := State.bc) (value := fun t => t.regs.a),
    storeByte_stores (address := State.de) (value := fun t => t.regs.a),
    fun nn => storeByte_stores (address := fun _ => nn) (value := fun t => t.regs.a), fun n => ?_, ?_⟩ <;>
    rw [← highPage_eq]
  · exact storeByte_stores (address := fun _ => highPage n) (value := fun t => t.regs.a)
  · exact storeByte_stores (address := fun t => highPage t.regs.c) (value := fun t => t.regs.a)

/-! ## The forms that step HL -/

theorem word_add_one_toNat (a : Word) : (a + 1).toNat = (a.toNat + 1) % 65536 := BitVec.toNat_add a 1

theorem word_sub_one_toNat (a : Word) : (a - 1).toNat = (a.toNat + 65535) % 65536 := by
  rw [BitVec.toNat_sub, show (1 : Word).toNat = 1 from rfl, Nat.add_comm]

/-- The store of A at the old HL, and HL stepped (R107, R108). -/
theorem storeAThenHl_stores {next : Word → Word} {s : State} (h : s.writable s.hl s.regs.a = true) :
    ∃ t, storeAThenHl next s = .next t ∧ StoredByte s.hl s.regs.a s t ∧ t.hl = next s.hl ∧
      t.regs = { s.regs with h := t.regs.h, l := t.regs.l } ∧ Advanced 1 8 s t := by
  obtain ⟨u, hu⟩ := memWrite_ok h
  have hregs : u.regs = s.regs := by rw [memWrite_busWrite hu]
  have hfetched := memWrite_fetched 1 8 hu
  refine ⟨_, ?_, storedByte_core hu ((u.setHl (next s.hl)).regs) (s.nextAddress 1) false 8, hl_setHl u (next s.hl), ?_,
    rfl, rfl, rfl⟩
  · show answer ((memWrite s.hl s.regs.a (s.fetched 1 8)).map _) = _
    rw [hfetched]
    rfl
  · show (u.setHl (next s.hl)).regs = _
    rw [← hregs]
    rfl

/-- The load of A from the old HL, and HL stepped (R109, R110). -/
theorem loadAThenHl_loads {next : Word → Word} {s : State} {v : Byte} (h : memRead s s.hl = .ok v) :
    ∃ t, loadAThenHl next s = .next t ∧ t.hl = next s.hl ∧ t.regs = { s.regs with a := v, h := t.regs.h, l := t.regs.l } ∧
      Advanced 1 8 s t ∧ RegistersOnly s t ∧ SameReads s t := by
  refine ⟨((s.fetched 1 8).setReg .a v).setHl (next s.hl), ?_, hl_setHl .., rfl, frame_of_fetched_regs rfl⟩
  show answer ((memRead (s.fetched 1 8) s.hl).map _) = _
  rw [memRead_fetched, h]
  rfl

/-- Settles O16: one higher or lower is modulo 2^16. -/
theorem stepsHl : Obligations.StepsHl := by
  refine fun s v => ⟨fun h => ?_, fun h => ?_, fun h => ?_, fun h => ?_⟩
  · obtain ⟨t, ht, hstored, hhl, hframe⟩ := storeAThenHl_stores (next := fun a => a + 1) h
    exact ⟨t, ht, hstored, hhl ▸ word_add_one_toNat s.hl, hframe⟩
  · obtain ⟨t, ht, hstored, hhl, hframe⟩ := storeAThenHl_stores (next := fun a => a - 1) h
    exact ⟨t, ht, hstored, hhl ▸ word_sub_one_toNat s.hl, hframe⟩
  · obtain ⟨t, ht, hhl, hframe⟩ := loadAThenHl_loads (next := fun a => a + 1) h
    exact ⟨t, ht, hhl ▸ word_add_one_toNat s.hl, hframe⟩
  · obtain ⟨t, ht, hhl, hframe⟩ := loadAThenHl_loads (next := fun a => a - 1) h
    exact ⟨t, ht, hhl ▸ word_sub_one_toNat s.hl, hframe⟩

/-! ## Pairs -/

theorem setRp_eq (s : State) (rr : Rp) (v : Word) : s.setRp rr v = { s with regs := (s.setRp rr v).regs } := by
  cases rr <;> rfl

theorem rp_setRp_other (s : State) {rr q : Rp} (v : Word) (h : q ≠ rr) : (s.setRp rr v).rp q = s.rp q := by
  cases rr <;> cases q
  case bc.bc | de.de | hl.hl | sp.sp => exact absurd rfl h
  all_goals rfl

/-- A fetch and a write of the pair `rr`: no other pair, not A, no flag and no byte of memory differs. -/
theorem loads_of_fetched_setRp (length cycles : Nat) (rr : Rp) (v : Word) (s : State) :
    ((s.fetched length cycles).setRp rr v).rp rr = v ∧
      (∀ q, q ≠ rr → ((s.fetched length cycles).setRp rr v).rp q = s.rp q) ∧
      ((s.fetched length cycles).setRp rr v).regs.a = s.regs.a ∧ ((s.fetched length cycles).setRp rr v).regs.f = s.regs.f ∧
      Advanced length cycles s ((s.fetched length cycles).setRp rr v) ∧
      RegistersOnly s ((s.fetched length cycles).setRp rr v) ∧ SameReads s ((s.fetched length cycles).setRp rr v) := by
  refine ⟨rp_setRp_same .., fun q hq => ?_, ?_, ?_, frame_of_fetched_regs (setRp_eq ..)⟩
  · rw [rp_setRp_other _ _ hq]
    cases q <;> rfl
  · cases rr <;> rfl
  · cases rr <;> rfl

/-- Settles O17. -/
theorem loadsPair : Obligations.LoadsPair := fun s =>
  ⟨fun rr nn => ⟨_, rfl, loads_of_fetched_setRp 3 12 rr nn s⟩, ⟨_, rfl, rfl, frame_of_fetched_regs rfl⟩⟩

/-! ## LD (nn),SP -/

/-- An address and the one after it, which wraps. -/
theorem add_near (a : Word) :
    a.toNat + 1 = (a + 1).toNat ∨ (a + 1).toNat + 1 = a.toNat ∨ (a.toNat = 0xFFFF ∧ (a + 1).toNat = 0) ∨
      ((a + 1).toNat = 0xFFFF ∧ a.toNat = 0) := by
  bv_omega

/-- A word written after a fetch: its low byte and then its high byte (R67). -/
theorem memWrite16_fetched (length cycles : Nat) {a v : Word} {s : State} (h1 : s.writable a (loByte v) = true)
    (h2 : s.writable (a + 1) (hiByte v) = true) :
    ∃ t, memWrite16 a v (s.fetched length cycles) = .ok t ∧ StoredTwo a (loByte v) (a + 1) (hiByte v) s t ∧
      t.regs = s.regs ∧ Advanced length cycles s t := by
  obtain ⟨u, hu⟩ := memWrite_ok h1
  obtain ⟨w, hw⟩ := memWrite_ok (writable_after hu (.inl rfl) h2)
  have hregs : w.regs = s.regs := by rw [memWrite_busWrite hw, memWrite_busWrite hu]
  have hfirst := memWrite_fetched length cycles hu
  have hsecond := memWrite_core u.regs (s.nextAddress length) false cycles hw
  refine ⟨_, ?_, storedTwo_core hu hw (fun _ h => touched_near h (add_near a)) u.regs (s.nextAddress length) false cycles,
    ?_, rfl, rfl, rfl⟩
  · rw [memWrite16, hfirst]
    exact hsecond
  · rw [memWrite_busWrite hu]

/-- Settles O18. -/
theorem storesSp : Obligations.StoresSp := by
  intro s nn h1 h2
  obtain ⟨t, ht, hframe⟩ := memWrite16_fetched 3 20 h1 h2
  exact ⟨t, congrArg answer ht, hframe⟩

/-! ## SP plus a displacement -/

/-- A displacement sign-extended to 16 bits, as a number (R9). -/
theorem sext16_toNat (e : Byte) : (sext16 e).toNat = (e.toInt % 65536).toNat := by
  rw [sext16, BitVec.signExtend, BitVec.toNat_ofInt]
  rfl

/-- The flags of SP plus a displacement, by the setting (R136). -/
theorem spFlags_of_spOffset {s t : State} {e : Byte}
    (ht : t.regs.f = spOffsetFlags s.cfg.spOffsetFlags s.regs.f (spOffset s.cfg.spOffsetFlags s.regs.sp e)) :
    SpFlags s e t := by
  unfold SpFlags FlagsAre
  rw [ht]
  cases s.cfg.spOffsetFlags with
  | hw => simp [spOffsetFlags, spOffset]
  | doc16 => simp [spOffsetFlags, spOffset, add16, sext16_toNat]

/-- Settles O19. -/
theorem addsSpDisplacement : Obligations.AddsSpDisplacement := by
  intro s e
  have hvalue := spOffset_toNat s.cfg.spOffsetFlags s.regs.sp e
  refine ⟨⟨_, rfl, ?_, rfl, spFlags_of_spOffset rfl, frame_of_fetched_regs rfl⟩,
    ⟨_, rfl, hvalue, rfl, spFlags_of_spOffset rfl, frame_of_fetched_regs rfl⟩⟩
  rw [hl_setFlags, hl_setHl]
  exact hvalue

/-! ## The stack -/

/-- Bits 3:0 of F are 0 (R16). -/
theorem flags_toByte_low (f : Flags) : f.toByte &&& 0x0F = 0 := by
  obtain ⟨z, n, h, c⟩ := f
  revert z n h c
  decide

/-- Settles O20: the push after the fetch is two bus writes. -/
theorem pushes : Obligations.Pushes := by
  intro s rr h
  obtain ⟨x, hx, hstored⟩ := push_fetched 1 16 h
  refine ⟨_, congrArg answer hx, hstored .., rfl, ⟨rfl, rfl, rfl⟩, ?_⟩
  show loByte (wordOf s.regs.a s.regs.f.toByte) &&& 0x0F = 0
  rw [loByte_wordOf]
  exact flags_toByte_low s.regs.f

theorem setRp2_eq (s : State) (rr : Rp2) (v : Word) : s.setRp2 rr v = { s with regs := (s.setRp2 rr v).regs } := by
  cases rr <;> rfl

@[simp] theorem setRp2_sp (s : State) (rr : Rp2) (v : Word) : (s.setRp2 rr v).regs.sp = s.regs.sp := by cases rr <;> rfl

/-- A pair reads back what was written to it; AF without bits 3:0 of its low byte (R14, R116). -/
theorem rp2_setRp2_same (s : State) (rr : Rp2) (hi lo : Byte) :
    (s.setRp2 rr (wordOf hi lo)).rp2 rr = if rr = .af then wordOf hi (lo &&& 0xF0) else wordOf hi lo := by
  cases rr with
  | bc => exact bc_setBc s (wordOf hi lo)
  | de => exact de_setDe s (wordOf hi lo)
  | hl => exact hl_setHl s (wordOf hi lo)
  | af =>
    show wordOf (hiByte (wordOf hi lo)) (Flags.ofByte (loByte (wordOf hi lo))).toByte = _
    rw [hiByte_wordOf, loByte_wordOf, flags_toByte_ofByte, if_pos rfl]

theorem rp2_setRp2_other (s : State) {rr q : Rp2} (v : Word) (h : q ≠ rr) : (s.setRp2 rr v).rp2 q = s.rp2 q := by
  cases rr <;> cases q
  case bc.bc | de.de | hl.hl | af.af => exact absurd rfl h
  all_goals rfl

/-- Settles O21: the pop after the fetch is the word at SP. -/
theorem pops : Obligations.Pops := by
  intro s lo hi h1 h2 rr
  refine ⟨((s.fetched 1 12).setSp (s.regs.sp + 2)).setRp2 rr (wordOf hi lo), ?_, setRp2_sp .., rp2_setRp2_same ..,
    fun q hq => ?_, frame_of_fetched_regs (setRp2_eq ..)⟩
  · show answer ((pop16 (s.fetched 1 12)).map _) = _
    rw [pop_fetched 1 12 h1 h2]
    rfl
  · rw [rp2_setRp2_other _ _ hq]
    cases q <;> rfl

end Sys2Proof.Machine
end

section
/-! PROOFS. The control transfers (45_control R160 to R172) and the round trips of the stack: a jump is a fetch and PC, a call a push
and PC, a return a pop and PC. -/

namespace Sys2Proof.Machine

/-! ## Jumps -/

/-- A fetch and a jump: PC at the target, and no register, no flag and no byte of memory differs. -/
theorem jumps_of_fetched (length cycles : Nat) (target : Word) (s : State) :
    Jumped target cycles ((s.fetched length cycles).setPc target) ∧ ((s.fetched length cycles).setPc target).regs = s.regs ∧
      RegistersOnly s ((s.fetched length cycles).setPc target) ∧ SameReads s ((s.fetched length cycles).setPc target) :=
  ⟨⟨rfl, rfl, rfl⟩, rfl, rfl, RegistersOnly.sameReads rfl⟩

/-- A fetch alone. -/
theorem advances_of_fetched (length cycles : Nat) (s : State) :
    Advanced length cycles s (s.fetched length cycles) ∧ (s.fetched length cycles).regs = s.regs ∧
      RegistersOnly s (s.fetched length cycles) ∧ SameReads s (s.fetched length cycles) :=
  ⟨⟨rfl, rfl, rfl⟩, rfl, rfl, RegistersOnly.sameReads rfl⟩

theorem cond_iff (s : State) (cc : Cond) : s.cond cc = true ↔ match cc with
    | .nz => s.regs.f.z = false
    | .z => s.regs.f.z = true
    | .nc => s.regs.f.c = false
    | .c => s.regs.f.c = true := by
  cases cc <;> simp [State.cond]

theorem exec_jpCcNn (cc : Cond) (nn : Word) (s : State) : exec (.jpCcNn cc nn) s =
    .next (if s.cond cc then (s.fetched 3 16).setPc nn else s.fetched 3 12) := by
  show execJpCcNn cc nn s = _
  unfold execJpCcNn
  split <;> rfl

theorem exec_jrCcE (cc : Cond) (e : Byte) (s : State) : exec (.jrCcE cc e) s =
    .next (if s.cond cc then (s.fetched 2 12).setPc (s.nextAddress 2 + sext16 e) else s.fetched 2 8) := by
  show execJrCcE cc e s = _
  unfold execJrCcE
  split <;> rfl

/-- An address moved by a signed displacement (R9, R165). -/
theorem add_sext16_toNat (a : Word) (e : Byte) : ((a + sext16 e).toNat : Int) = (a.toNat + e.toInt) % 65536 :=
  spOffset_toNat .hw a e

/-- Settles O40: a conditional jump is the jump or the fetch alone. -/
theorem jumps : Obligations.Jumps := by
  intro s nn e cc
  have hrelative := add_sext16_toNat (s.nextAddress 2) e
  refine ⟨cond_iff s cc, ⟨_, rfl, jumps_of_fetched 3 16 nn s⟩, ⟨_, rfl, jumps_of_fetched 1 4 s.hl s⟩,
    ⟨_, exec_jpCcNn cc nn s, ?_⟩, ?_, ⟨_, exec_jrCcE cc e s, ?_⟩⟩
  · cases hc : s.cond cc
    · obtain ⟨hadvanced, hframe⟩ := advances_of_fetched 3 12 s
      exact ⟨fun h => (by cases h), fun _ => hadvanced, hframe⟩
    · obtain ⟨hjumped, hframe⟩ := jumps_of_fetched 3 16 nn s
      exact ⟨fun _ => hjumped, fun h => (by cases h), hframe⟩
  · obtain ⟨hjumped, hframe⟩ := jumps_of_fetched 2 12 (s.nextAddress 2 + sext16 e) s
    exact ⟨_, rfl, hjumped, hrelative, hframe⟩
  · cases hc : s.cond cc
    · obtain ⟨hadvanced, hframe⟩ := advances_of_fetched 2 8 s
      exact ⟨fun h => (by cases h), fun _ => hadvanced, hframe⟩
    · obtain ⟨hjumped, hframe⟩ := jumps_of_fetched 2 12 (s.nextAddress 2 + sext16 e) s
      exact ⟨fun _ => ⟨hjumped, hrelative⟩, fun h => (by cases h), hframe⟩

/-! ## Calls and returns -/

theorem exec_callCcNn_taken {cc : Cond} {s : State} (h : s.cond cc = true) (nn : Word) :
    exec (.callCcNn cc nn) s = answer (callTo nn (s.fetched 3 24)) := if_pos h

theorem exec_callCcNn_untaken {cc : Cond} {s : State} (h : s.cond cc = false) (nn : Word) :
    exec (.callCcNn cc nn) s = .next (s.fetched 3 12) := if_neg (by rw [h]; decide)

/-- The address 8 n of RST (R172). -/
theorem rst_target {n : Nat} (hn : n < 8) : (BitVec.ofNat 8 (8 * n)).setWidth 16 = BitVec.ofNat 16 (8 * n) := by
  apply BitVec.eq_of_toNat_eq
  simp only [BitVec.toNat_setWidth, BitVec.toNat_ofNat]
  omega

/-- Settles O41: the calls are `callTo` after the fetch. -/
theorem calls : Obligations.Calls := by
  refine fun s => ⟨fun nn => callTo_fetched 3 24 nn, fun cc nn hc h => ?_, fun cc nn hc => ?_, fun n hn h => ?_⟩
  · rw [exec_callCcNn_taken hc]
    exact callTo_fetched 3 24 nn h
  · exact ⟨_, exec_callCcNn_untaken hc nn, advances_of_fetched 3 12 s⟩
  · show ∃ t, answer (callTo ((BitVec.ofNat 8 (8 * n)).setWidth 16) (s.fetched 1 16)) = .next t ∧ _
    rw [rst_target hn]
    exact callTo_fetched 1 16 _ h

theorem exec_retCc_taken {cc : Cond} {s : State} (h : s.cond cc = true) :
    exec (.retCc cc) s = answer (returnPop (s.fetched 1 20)) := if_pos h

theorem exec_retCc_untaken {cc : Cond} {s : State} (h : s.cond cc = false) :
    exec (.retCc cc) s = .next (s.fetched 1 8) := if_neg (by rw [h]; decide)

/-- A return after a fetch: PC is the word at SP, and SP is two higher (R169). -/
theorem returnPop_fetched (length cycles : Nat) {s : State} {lo hi : Byte} (h1 : memRead s s.regs.sp = .ok lo)
    (h2 : memRead s (s.regs.sp + 1) = .ok hi) :
    returnPop (s.fetched length cycles) =
      .ok (((s.fetched length cycles).setSp (s.regs.sp + 2)).setPc (wordOf hi lo)) := by
  rw [returnPop, pop_fetched length cycles h1 h2]
  rfl

theorem exec_reti {s : State} {lo hi : Byte} (h1 : memRead s s.regs.sp = .ok lo) (h2 : memRead s (s.regs.sp + 1) = .ok hi) :
    exec .reti s =
      .next { ((s.fetched 1 16).setSp (s.regs.sp + 2)).setPc (wordOf hi lo) with ime := true } := by
  show answer ((returnPop (s.fetched 1 16)).map _) = _
  rw [returnPop_fetched 1 16 h1 h2]
  rfl

/-- Settles O42: the returns are `returnPop` after the fetch, and RETI sets `ime` on it. -/
theorem returns : Obligations.Returns := by
  refine fun s cc lo hi => ⟨fun hc => ⟨_, exec_retCc_untaken hc, advances_of_fetched 1 8 s⟩,
    fun h1 h2 => ⟨?_, fun hc => ?_, ?_⟩⟩
  · exact ⟨_, congrArg answer (returnPop_fetched 1 16 h1 h2), ⟨rfl, rfl, rfl⟩, rfl, rfl, RegistersOnly.sameReads rfl⟩
  · exact ⟨_, (exec_retCc_taken hc).trans (congrArg answer (returnPop_fetched 1 20 h1 h2)), ⟨rfl, rfl, rfl⟩, rfl, rfl,
      RegistersOnly.sameReads rfl⟩
  · exact ⟨_, exec_reti h1 h2, ⟨rfl, rfl, rfl⟩, rfl, rfl, rfl, sameReads_of_fields rfl rfl rfl rfl rfl rfl rfl rfl rfl rfl⟩

/-! ## Round trips -/

/-- A push to plain RAM is given a meaning. -/
theorem pushable_of_plainRam {s : State} (h1 : plainRam (s.regs.sp - 1) = true) (h2 : plainRam (s.regs.sp - 2) = true)
    (v : Word) : s.pushable v = true := by
  rw [State.pushable, plain_writable h1, plain_writable h2]
  rfl

/-- What a push to plain RAM left at the new SP is the word pushed, low byte first. -/
theorem reads_pushed {s t : State} {v : Word} (h1 : plainRam (s.regs.sp - 1) = true) (h2 : plainRam (s.regs.sp - 2) = true)
    (hstored : StoredTwo (s.regs.sp - 1) (hiByte v) (s.regs.sp - 2) (loByte v) s t)
    (hregs : t.regs = { s.regs with sp := s.regs.sp - 2 }) :
    memRead t t.regs.sp = .ok (loByte v) ∧ memRead t (t.regs.sp + 1) = .ok (hiByte v) := by
  obtain ⟨_, _, hhigh, hlow⟩ := hstored
  rw [hregs]
  refine ⟨hlow h2, ?_⟩
  rw [show s.regs.sp - 2 + 1 = s.regs.sp - 1 by bv_omega]
  exact hhigh h1 h2

/-- Writing a pair's own value, with SP, restores the registers. -/
theorem setRp2_rp2 {s t : State} (rr : Rp2) (h : t.regs = s.regs) : (t.setRp2 rr (s.rp2 rr)).regs = s.regs := by
  cases rr with
  | bc => simp [State.setRp2, State.rp2, State.setBc, State.bc, h]
  | de => simp [State.setRp2, State.rp2, State.setDe, State.de, h]
  | hl => simp [State.setRp2, State.rp2, State.setHl, State.hl, h]
  | af => simp [State.setRp2, State.rp2, State.setAf, State.af, h]

theorem exec_popRr {s : State} {lo hi : Byte} (rr : Rp2) (h1 : memRead s s.regs.sp = .ok lo)
    (h2 : memRead s (s.regs.sp + 1) = .ok hi) :
    exec (.popRr rr) s = .next (((s.fetched 1 12).setSp (s.regs.sp + 2)).setRp2 rr (wordOf hi lo)) := by
  show answer ((pop16 (s.fetched 1 12)).map _) = _
  rw [pop_fetched 1 12 h1 h2]
  rfl

/-- Settles O43: what was pushed is what the next pop reads. -/
theorem stackRoundTrips : Obligations.StackRoundTrips := by
  intro s ha hb
  have hsp : s.regs.sp - 2 + 2 = s.regs.sp := by bv_omega
  refine ⟨fun rr => ?_, fun nn => ?_⟩
  · obtain ⟨t, ht, hstored, hregs, _⟩ := pushes s rr (pushable_of_plainRam ha hb _)
    obtain ⟨hlo, hhi⟩ := reads_pushed ha hb hstored hregs
    refine ⟨t, _, ht, exec_popRr rr hlo hhi, ?_⟩
    rw [wordOf_hi_lo]
    refine setRp2_rp2 rr ?_
    show { t.regs with sp := t.regs.sp + 2 } = s.regs
    rw [hregs, hsp]
  · obtain ⟨t, ht, ⟨hpc, _⟩, hstored, hregs⟩ := (calls s).1 nn (pushable_of_plainRam ha hb _)
    obtain ⟨hlo, hhi⟩ := reads_pushed ha hb hstored hregs
    obtain ⟨u, hu, ⟨hupc, _⟩, huregs, _⟩ := ((returns t .z _ _).2 hlo hhi).1
    refine ⟨t, u, ht, hpc, hu, hupc.trans (wordOf_hi_lo _), ?_⟩
    rw [huregs, hregs, hsp]

end Sys2Proof.Machine
end

section
/-! PROOFS. The arithmetic that is no form of the accumulator's operand (41_alu8 R128 to R134, 42_alu16 R137 to R139, 43_rotate_shift
R142 to R155): each instruction's result and flags are those of one arithmetic helper, as numbers. -/

namespace Sys2Proof.Machine

/-! ## INC (HL) and DEC (HL) -/

theorem add8_one (m : Byte) : (add8 m 1 false).value = m + 1 := by
  apply BitVec.eq_of_toNat_eq
  rw [add8_toNat, BitVec.toNat_add, Bool.toNat_false, Nat.add_zero]

theorem sub8_one (m : Byte) : (sub8 m 1 false).value = m - 1 := sub8_value m 1

/-- Settles O29: the byte written back is `Add8` or `Sub8` of 1, with their flags. -/
theorem incDecMemory : Obligations.IncDecMemory := by
  refine fun s m hm => ⟨fun hw => ?_, fun hw => ?_⟩
  · obtain ⟨t, ht, hstored, hregs, hadvanced⟩ := modifyHl_ok (l := 1) (c := 12)
      (value := fun m => (add8 m 1 false).value) (flags := fun m => incFlags s.regs.f (add8 m 1 false)) hm (add8_one m) hw
    have hzero : (add8 m 1 false).value = 0 ↔ m.toNat = 255 := by rw [add8_one]; bv_omega
    have hflags : FlagsAre t ((add8 m 1 false).value = 0) _ _ _ := flagsAre_incFlags (by rw [hregs])
    exact ⟨t, ht, hstored, by rw [hregs], propext hzero ▸ hflags, hadvanced⟩
  · obtain ⟨t, ht, hstored, hregs, hadvanced⟩ := modifyHl_ok (l := 1) (c := 12)
      (value := fun m => (sub8 m 1 false).value) (flags := fun m => decFlags s.regs.f (sub8 m 1 false)) hm (sub8_one m) hw
    have hzero : (sub8 m 1 false).value = 0 ↔ m.toNat = 1 := by rw [sub8_one]; bv_omega
    have hflags : FlagsAre t ((sub8 m 1 false).value = 0) _ _ _ := flagsAre_decFlags (by rw [hregs])
    exact ⟨t, ht, hstored, by rw [hregs], propext hzero ▸ hflags, hadvanced⟩

/-! ## DAA -/

/-- DAA's flags: Z of the result, N kept, H cleared and the carry of the adjustment (R131). -/
def daaFlags (f : Flags) (r : Byte × Bool) : Flags := { z := r.1 == 0, n := f.n, h := false, c := r.2 }

theorem exec_daa (s : State) : exec .daa s =
    .next (((s.fetched 1 4).setReg .a (daaAdjust s.regs.a s.regs.f).1).setFlags
      (daaFlags s.regs.f (daaAdjust s.regs.a s.regs.f))) := rfl

/-- After an addition the corrections are added, and the carry says whether 0x60 was (R131). -/
theorem daaAdjust_add (a : Byte) {f : Flags} (hn : f.n = false) :
    (daaAdjust a f).1.toNat = (a.toNat + (if f.c = true ∨ a.toNat > 0x99 then 0x60 else 0) +
      (if f.h = true ∨ a.toNat % 16 > 9 then 0x06 else 0)) % 256 ∧
    ((daaAdjust a f).2 = true ↔ f.c = true ∨ a.toNat > 0x99) := by
  have ha := a.isLt
  by_cases hhigh : f.c = true ∨ a.toNat > 0x99 <;> by_cases hlow : f.h = true ∨ a.toNat % 16 > 9 <;>
    simp only [daaAdjust, hn, Bool.or_eq_true, decide_eq_true_eq, hhigh, hlow, if_true, if_false, iff_false]
  · exact ⟨by bv_omega, trivial⟩
  · exact ⟨by bv_omega, trivial⟩
  · exact ⟨by bv_omega, fun hc => hhigh (.inl hc)⟩
  · exact ⟨by bv_omega, fun hc => hhigh (.inl hc)⟩

/-- After a subtraction they are subtracted, and the carry is kept (R131). -/
theorem daaAdjust_sub (a : Byte) {f : Flags} (hn : f.n = true) :
    (daaAdjust a f).1.toNat = (a.toNat + 256 - (if f.c = true then 0x60 else 0) - (if f.h = true then 0x06 else 0)) % 256 ∧
    (daaAdjust a f).2 = f.c := by
  have ha := a.isLt
  simp only [daaAdjust, hn, and_true]
  split_ifs <;> bv_omega

/-- Settles O30. -/
theorem adjustsDecimal : Obligations.AdjustsDecimal := by
  intro s
  refine ⟨_, exec_daa s, rfl, (frame_of_fetched_regs rfl).1, rfl, (frame_of_fetched_regs (length := 1) (cycles := 4) rfl).2.2,
    fun hn => ?_, fun hn => ?_⟩
  · obtain ⟨hvalue, hcarry⟩ := daaAdjust_add s.regs.a hn
    have hnclear : s.regs.f.n = true ↔ False := by rw [hn]; exact Bool.false_eq_true.to_iff
    exact ⟨hvalue, flagsAre_of_result (setFlags_f ..) hnclear Bool.false_eq_true.to_iff hcarry⟩
  · obtain ⟨hvalue, hcarry⟩ := daaAdjust_sub s.regs.a hn
    exact ⟨hvalue, flagsAre_of_result (setFlags_f ..) (iff_true_intro hn) Bool.false_eq_true.to_iff (by rw [hcarry])⟩

/-! ## Packed decimal -/

theorem packedDecimal_toNat {tens ones : Nat} (ht : tens < 10) (ho : ones < 10) :
    (packedDecimal (10 * tens + ones)).toNat = 16 * tens + ones := by
  rw [packedDecimal, BitVec.toNat_ofNat]
  omega

theorem low_digit (tens : Nat) {ones : Nat} (ho : ones < 10) : (16 * tens + ones) % 16 = ones := by omega

/-- A number below 100 by its two digits. -/
theorem exists_digits {k : Nat} (h : k < 100) : ∃ tens ones, tens < 10 ∧ ones < 10 ∧ k = 10 * tens + ones :=
  ⟨k / 10, k % 10, by omega, by omega, by omega⟩

/-- ADD then DAA is addition modulo 100: each digit sum above 9 is corrected, by the carry or the half-carry of the sum or by the
digit it left (R119, R131). -/
theorem daaAdjust_packed_add {x y : Nat} (hx : x < 100) (hy : y < 100) {f : Flags} (hn : f.n = false)
    (hh : f.h = (add8 (packedDecimal x) (packedDecimal y) false).half)
    (hc : f.c = (add8 (packedDecimal x) (packedDecimal y) false).carry) :
    (daaAdjust (add8 (packedDecimal x) (packedDecimal y) false).value f).1 = packedDecimal ((x + y) % 100) ∧
      ((daaAdjust (add8 (packedDecimal x) (packedDecimal y) false).value f).2 = true ↔ 100 ≤ x + y) := by
  obtain ⟨hvalue, hcarry⟩ := daaAdjust_add (add8 (packedDecimal x) (packedDecimal y) false).value hn
  obtain ⟨p, q, hp, hq, rfl⟩ := exists_digits hx
  obtain ⟨u, w, hu, hw, rfl⟩ := exists_digits hy
  simp only [hh, hc, add8_half, add8_carry, add8_toNat, packedDecimal_toNat hp hq, packedDecimal_toNat hu hw, Bool.toNat_false,
    low_digit p hq, low_digit u hw, Nat.add_zero]
    at hvalue hcarry
  refine ⟨BitVec.eq_of_toNat_eq ?_, by rw [hcarry]; omega⟩
  rw [hvalue]
  clear hvalue hcarry
  rcases lt_or_ge (q + w) 10 with hones | hones
  · rcases lt_or_ge (p + u) 10 with htens | htens
    · rw [show (10 * p + q + (10 * u + w)) % 100 = 10 * (p + u) + (q + w) by omega, packedDecimal_toNat htens hones]
      have hnone : 16 * p + q + (16 * u + w) ≤ 0x99 := by omega
      split_ifs <;> omega
    · rw [show (10 * p + q + (10 * u + w)) % 100 = 10 * (p + u - 10) + (q + w) by omega,
        packedDecimal_toNat (by omega) hones]
      split_ifs <;> omega
  · rcases lt_or_ge (p + u + 1) 10 with htens | htens
    · rw [show (10 * p + q + (10 * u + w)) % 100 = 10 * (p + u + 1) + (q + w - 10) by omega,
        packedDecimal_toNat htens (by omega)]
      split_ifs <;> omega
    · rw [show (10 * p + q + (10 * u + w)) % 100 = 10 * (p + u + 1 - 10) + (q + w - 10) by omega,
        packedDecimal_toNat (by omega) (by omega)]
      split_ifs <;> omega

/-- SUB then DAA is subtraction modulo 100: each digit that borrowed is corrected (R121, R131). -/
theorem daaAdjust_packed_sub {x y : Nat} (hx : x < 100) (hy : y < 100) {f : Flags} (hn : f.n = true)
    (hh : f.h = (sub8 (packedDecimal x) (packedDecimal y) false).half)
    (hc : f.c = (sub8 (packedDecimal x) (packedDecimal y) false).carry) :
    (daaAdjust (sub8 (packedDecimal x) (packedDecimal y) false).value f).1 = packedDecimal ((x + 100 - y) % 100) ∧
      ((daaAdjust (sub8 (packedDecimal x) (packedDecimal y) false).value f).2 = true ↔ x < y) := by
  obtain ⟨hvalue, hcarry⟩ := daaAdjust_sub (sub8 (packedDecimal x) (packedDecimal y) false).value hn
  obtain ⟨p, q, hp, hq, rfl⟩ := exists_digits hx
  obtain ⟨u, w, hu, hw, rfl⟩ := exists_digits hy
  simp only [hh, hc, sub8_half, sub8_carry, sub8_toNat, packedDecimal_toNat hp hq, packedDecimal_toNat hu hw, Bool.toNat_false,
    low_digit p hq, low_digit u hw, Nat.add_zero]
    at hvalue
  refine ⟨BitVec.eq_of_toNat_eq ?_, ?_⟩
  · rw [hvalue]
    clear hvalue hcarry
    rcases lt_or_ge q w with hones | hones
    · rcases lt_or_ge p (u + 1) with htens | htens
      · rw [show (10 * p + q + 100 - (10 * u + w)) % 100 = 10 * (p + 10 - (u + 1)) + (q + 10 - w) by omega,
          packedDecimal_toNat (by omega) (by omega)]
        split_ifs <;> omega
      · rw [show (10 * p + q + 100 - (10 * u + w)) % 100 = 10 * (p - (u + 1)) + (q + 10 - w) by omega,
          packedDecimal_toNat (by omega) (by omega)]
        split_ifs <;> omega
    · rcases lt_or_ge p u with htens | htens
      · rw [show (10 * p + q + 100 - (10 * u + w)) % 100 = 10 * (p + 10 - u) + (q - w) by omega,
          packedDecimal_toNat (by omega) (by omega)]
        split_ifs <;> omega
      · rw [show (10 * p + q + 100 - (10 * u + w)) % 100 = 10 * (p - u) + (q - w) by omega,
          packedDecimal_toNat (by omega) (by omega)]
        split_ifs <;> omega
  · rw [hcarry, hc, sub8_carry, packedDecimal_toNat hp hq, packedDecimal_toNat hu hw, Bool.toNat_false]
    omega

/-- Settles O31. -/
theorem decimalArithmetic : Obligations.DecimalArithmetic := by
  intro s x y hx hy ha
  refine ⟨⟨aluAdd (packedDecimal y) (s.fetched 2 8), _, rfl, exec_daa _, ?_⟩,
    ⟨aluSub (packedDecimal y) (s.fetched 2 8), _, rfl, exec_daa _, ?_⟩⟩
  · have hadjusted := daaAdjust_packed_add hx hy (f := (aluAdd (packedDecimal y) (s.fetched 2 8)).regs.f) rfl
    rw [← ha] at hadjusted
    exact hadjusted rfl rfl
  · have hadjusted := daaAdjust_packed_sub hx hy (f := (aluSub (packedDecimal y) (s.fetched 2 8)).regs.f) rfl
    rw [← ha] at hadjusted
    exact hadjusted rfl rfl

/-! ## The accumulator's complement and the carry -/

/-- Settles O32: two complements of A are none. -/
theorem complementsAndCarry : Obligations.ComplementsAndCarry := by
  refine ⟨⟨rfl, rfl, rfl⟩, fun s => ⟨?_, ?_, ?_⟩⟩
  · obtain ⟨hadvanced, hregisters, hreads⟩ := frame_of_fetched_regs (s := s) (length := 1) (cycles := 4) rfl
    refine ⟨_, rfl, rfl, rfl, ⟨.rfl, iff_true_intro rfl, iff_true_intro rfl, .rfl⟩, hadvanced, hregisters, hreads, _, rfl, ?_⟩
    show s.regs.a ^^^ 0xFF#8 ^^^ 0xFF#8 = s.regs.a
    rw [BitVec.xor_assoc, BitVec.xor_self, BitVec.xor_zero]
  · exact ⟨_, rfl, rfl, ⟨.rfl, Bool.false_eq_true.to_iff, Bool.false_eq_true.to_iff, iff_true_intro rfl⟩,
      frame_of_fetched_regs rfl⟩
  · exact ⟨_, rfl, rfl, ⟨.rfl, Bool.false_eq_true.to_iff, Bool.false_eq_true.to_iff, (Bool.not_eq_true' _).to_iff⟩,
      frame_of_fetched_regs rfl⟩

/-! ## 16-bit arithmetic -/

/-- Settles O33: `Add16` of the old values. -/
theorem addsPairToHl : Obligations.AddsPairToHl := by
  intro s rr
  have hrp : (s.fetched 1 8).rp rr = s.rp rr := by cases rr <;> rfl
  refine ⟨_, rfl, ?_, rfl, ⟨.rfl, Bool.false_eq_true.to_iff, ?_, ?_⟩, frame_of_fetched_regs rfl⟩
  · rw [hl_setFlags, hl_setHl, hl_fetched, hrp]
    exact BitVec.toNat_ofNat _ 16
  · rw [setFlags_f, hl_fetched, hrp]
    exact decide_eq_true_iff
  · rw [setFlags_f, hl_fetched, hrp]
    exact decide_eq_true_iff

/-- Settles O34: INC and DEC load the pair with its successor or predecessor. -/
theorem incDecPair : Obligations.IncDecPair := by
  refine ⟨⟨rfl, rfl, rfl, rfl, rfl, rfl, rfl, rfl⟩, fun s rr => ⟨?_, ?_⟩⟩
  · obtain ⟨hrp, hframe⟩ := loads_of_fetched_setRp 1 8 rr (s.rp rr + 1) s
    exact ⟨_, rfl, (congrArg BitVec.toNat hrp).trans (word_add_one_toNat (s.rp rr)), hframe⟩
  · obtain ⟨hrp, hframe⟩ := loads_of_fetched_setRp 1 8 rr (s.rp rr - 1) s
    exact ⟨_, rfl, (congrArg BitVec.toNat hrp).trans (word_sub_one_toNat (s.rp rr)), hframe⟩

/-! ## The accumulator's rotates -/

/-- A fetch and a rotate of A: A is the rotated byte, C the bit that left it, and Z, N and H are cleared (R142). -/
theorem rotateA_effect {s : State} {r : Byte × Bool} {value : Nat} {C : Prop} (hvalue : r.1.toNat = value)
    (hcarry : r.2 = true ↔ C) :
    (rotateA r (s.fetched 1 4)).regs.a.toNat = value ∧ AccumulatorOnly s (rotateA r (s.fetched 1 4)) ∧
      FlagsAre (rotateA r (s.fetched 1 4)) False False False C ∧ Advanced 1 4 s (rotateA r (s.fetched 1 4)) ∧
      RegistersOnly s (rotateA r (s.fetched 1 4)) ∧ SameReads s (rotateA r (s.fetched 1 4)) :=
  ⟨hvalue, rfl, ⟨Bool.false_eq_true.to_iff, Bool.false_eq_true.to_iff, Bool.false_eq_true.to_iff, hcarry⟩,
    frame_of_fetched_regs rfl⟩

/-- Settles O35: the rotated bytes and the bits that leave, as numbers. -/
theorem rotatesAccumulator : Obligations.RotatesAccumulator := by
  refine ⟨⟨rfl, rfl, rfl, rfl⟩, ?_⟩
  rintro s _ _ rfl rfl
  exact ⟨⟨_, rfl, rotateA_effect (rotateLeft_toNat s.regs.a) (bit7_iff s.regs.a)⟩,
    ⟨_, rfl, rotateA_effect (rotateRight_toNat s.regs.a) (bit0_iff s.regs.a)⟩,
    ⟨_, rfl, rotateA_effect (rotateLeftCarry_toNat s.regs.a s.regs.f.c) (bit7_iff s.regs.a)⟩,
    ⟨_, rfl, rotateA_effect (rotateRightCarry_toNat s.regs.a s.regs.f.c) (bit0_iff s.regs.a)⟩⟩

/-! ## The shifts of the CB page -/

theorem shiftLeft_toNat (v : Byte) : (shiftLeft v).1.toNat = 2 * v.toNat % 256 := by
  rw [shiftLeft, BitVec.toNat_shiftLeft, Nat.shiftLeft_eq, Nat.mul_comm]

theorem shiftRightLogic_toNat (v : Byte) : (shiftRightLogic v).1.toNat = v.toNat / 2 := by
  rw [shiftRightLogic, BitVec.toNat_ushiftRight, Nat.shiftRight_one]

/-- SRA keeps bit 7 as it moves the byte down: it is RR with bit 7 for the carry (R146, R153). -/
theorem shiftRightArith_eq : ∀ v : Byte, (shiftRightArith v).1 = (rotateRightCarry v (v.getLsbD 7)).1 := by decide

theorem shiftRightArith_toNat (v : Byte) : (shiftRightArith v).1.toNat = v.toNat / 2 + v.toNat / 128 * 128 := by
  rw [shiftRightArith_eq, rotateRightCarry_toNat, bit7_toNat]

theorem swapNibbles_toNat (v : Byte) : (swapNibbles v).1.toNat = v.toNat % 16 * 16 + v.toNat / 16 := by
  have hv := v.isLt
  have hup : (v <<< 4).toNat = 2 ^ 4 * (v.toNat % 16) := by
    rw [BitVec.toNat_shiftLeft, Nat.shiftLeft_eq]
    omega
  rw [swapNibbles, BitVec.toNat_or, hup, BitVec.toNat_ushiftRight, Nat.shiftRight_eq_div_pow,
    ← Nat.two_pow_add_eq_or_of_lt (by omega)]
  omega

theorem swapNibbles_twice (v : Byte) : (swapNibbles (swapNibbles v).1).1 = v := by
  have hv := v.isLt
  apply BitVec.eq_of_toNat_eq
  rw [swapNibbles_toNat, swapNibbles_toNat]
  omega

/-- Settles O37: the shifted bytes and the bits that leave, as numbers. -/
theorem shiftsOperand : Obligations.ShiftsOperand := by
  refine ⟨RunsCbRotate.cbForms (op := .sla) {} (fun v _ => shiftLeft_toNat v) (fun v _ => bit7_iff v),
    RunsCbRotate.cbForms (op := .sra) {} (fun v _ => shiftRightArith_toNat v) (fun v _ => bit0_iff v),
    RunsCbRotate.cbForms (op := .swap) {} (fun v _ => swapNibbles_toNat v) (fun _ _ => Bool.false_eq_true.to_iff),
    RunsCbRotate.cbForms (op := .srl) {} (fun v _ => shiftRightLogic_toNat v) (fun v _ => bit0_iff v), fun s r => ?_⟩
  obtain ⟨t, ht, htr, _⟩ := exec_setReg_setFlags (i := .swapR r) (cbRotate_reg .swap r s)
  obtain ⟨u, hu, hur, _⟩ := exec_setReg_setFlags (i := .swapR r) (cbRotate_reg .swap r t)
  refine ⟨t, u, ht, hu, ?_⟩
  rw [hur, htr]
  exact swapNibbles_twice (s.reg r)

end Sys2Proof.Machine
end

section
/-! PROOFS. The system instructions (46_system R173 to R178): NOP, DI and EI, HALT and STOP, and the CB page's lead byte. -/

namespace Sys2Proof.Machine

/-! ## NOP, DI and EI -/

/-- EI with `ime` set or a delay running changes nothing but PC (R177). -/
theorem exec_ei_kept {s : State} (h : s.ime = true ∨ s.eiDelay ≠ 0) : exec .ei s = .next (s.fetched 1 4) := by
  show execEi s = _
  rcases h with hime | hdelay
  · simp [execEi, hime]
  · simp [execEi, hdelay]

/-- Settles O44: EI by its two cases. -/
theorem nopDiEi : Obligations.NopDiEi := by
  refine ⟨⟨rfl, rfl, rfl⟩, fun s => ⟨?_, ?_, ?_⟩⟩
  · exact ⟨_, rfl, ⟨rfl, rfl, rfl⟩, rfl, rfl, fun _ => rfl⟩
  · exact ⟨_, rfl, ⟨rfl, rfl, rfl⟩, rfl, rfl, rfl, fun _ => rfl⟩
  · by_cases h : s.ime = true ∨ s.eiDelay ≠ 0
    · refine ⟨_, exec_ei_kept h, ⟨rfl, rfl, rfl⟩, fun hime h0 => ?_, fun _ => rfl, rfl, fun _ => rfl⟩
      exact absurd h (by simp [hime, h0])
    · rw [not_or, Bool.not_eq_true, not_not] at h
      exact ⟨_, exec_ei_starts h.1 h.2, ⟨rfl, rfl, rfl⟩, fun _ _ => rfl, fun hn => absurd hn (by simp [h]), rfl, fun _ => rfl⟩

/-! ## HALT and STOP -/

/-- `Pending()` as the number the spec writes (R186). -/
theorem pending_toNat (s : State) : s.pending.toNat = s.irqEnable.toNat &&& s.irqFlags.toNat &&& 0x1F :=
  calc s.pending.toNat
    _ = s.irqEnable.toNat % 2 ^ 5 &&& s.irqFlags.toNat := by rw [State.pending, BitVec.toNat_and, BitVec.toNat_setWidth]
    _ = s.irqEnable.toNat % 2 ^ 5 &&& s.irqFlags.toNat % 2 ^ 5 := by rw [Nat.mod_eq_of_lt s.irqFlags.isLt]
    _ = (s.irqEnable.toNat &&& s.irqFlags.toNat) % 2 ^ 5 := (Nat.and_mod_two_pow ..).symm
    _ = s.irqEnable.toNat &&& s.irqFlags.toNat &&& 0x1F := (Nat.and_two_pow_sub_one_eq_mod _ 5).symm

theorem pending_ne_zero_iff (s : State) : s.pending ≠ 0 ↔ s.irqEnable.toNat &&& s.irqFlags.toNat &&& 0x1F ≠ 0 := by
  rw [← pending_toNat, Ne, ← BitVec.toNat_inj]
  rfl

/-- HALT with `ime` false and a request pending keeps running, with the halt-bug condition set (R174). -/
theorem exec_halt_bug {s : State} (hime : s.ime = false) (hpending : s.pending ≠ 0) :
    exec .halt s = .next { s.fetched 1 4 with haltBug := true } := by
  have hbug : (!s.ime && s.pending != 0) = true := by rw [hime, bne_iff_ne.mpr hpending]; rfl
  exact if_pos hbug

/-- HALT with `ime` set or nothing pending enters Halted (R174). -/
theorem exec_halt_halts {s : State} (h : s.ime = true ∨ s.pending = 0) :
    exec .halt s = .next { s.fetched 1 4 with mode := .halted } := by
  show execHalt s = _
  rcases h with hime | hpending
  · simp [execHalt, hime]
  · simp [execHalt, hpending]

/-- DIV and its sub-counter are read at 0xFF04 alone (R43). -/
theorem memRead_clearDiv (s : State) {x : Word} (hx : x ≠ 0xFF04) :
    memRead { s with timer := { s.timer with div := 0, divSub := 0 } } x = memRead s x := by
  refine memRead_congr x (.inl rfl) rfl rfl rfl (fun _ _ => rfl) (fun _ _ => rfl) (fun _ _ => rfl) (fun _ _ => rfl)
    (fun _ _ => rfl) (fun off hr => ?_) (fun _ _ => rfl) (fun _ => rfl)
  refine ioRead_congr off rfl (fun _ => rfl) ?_ (fun _ => rfl) rfl
  rintro (rfl | rfl | rfl | rfl)
  · have hspec := regionOf_spec x
    rw [hr] at hspec
    exact absurd (eq_iff_toNat.mpr hspec.2.2.symm) hx
  all_goals rfl

/-- Settles O45: HALT by its two cases. -/
theorem haltAndStop : Obligations.HaltAndStop := by
  refine fun s n => ⟨?_, ?_, ?_⟩
  · rintro ⟨hime, hpending⟩
    exact ⟨_, exec_halt_bug hime ((pending_ne_zero_iff s).mpr hpending), rfl, rfl, rfl, rfl, rfl, fun _ => rfl⟩
  · intro h
    refine ⟨_, exec_halt_halts (h.imp_right fun h0 => ?_), ⟨rfl, rfl, rfl⟩, rfl, rfl, fun _ => rfl⟩
    exact not_not.mp fun hpending => (pending_ne_zero_iff s).mp hpending h0
  · exact ⟨_, rfl, ⟨rfl, rfl, rfl⟩, rfl, rfl, rfl, fun x hx => memRead_clearDiv s hx⟩

/-! ## The lead byte of the CB page -/

/-- The instruction a CB-page byte decodes to is the operation PREFIX CB performs (R81, R178). -/
theorem exec_cbOp_instr (op : CbOp) (s : State) : exec op.instr s = performCb op s := by
  rcases op with ⟨rot, o⟩ | ⟨b, o⟩ | ⟨b, o⟩ | ⟨b, o⟩
  · cases rot <;> cases o <;> rfl
  all_goals cases o <;> rfl

/-- The operand of a CB-page operation (R84). -/
def cbOperand : CbOp → Operand8
  | .rotate _ o | .bit _ o | .res _ o | .set _ o => o

/-- The operand of a byte of the CB page is its `r8` field: 6 for the byte at HL (R77, R84). -/
theorem cbOperand_eq (op2 : Byte) : cbOperand (cbOpOf op2) = operand8Of (fieldZ op2) := by
  unfold cbOpOf
  split <;> rfl

theorem operand8Of_eq_indHl {z : Nat} (h : operand8Of z = .indHl) : z = 6 := by
  unfold operand8Of at h
  split at h
  case h_7 => rfl
  all_goals cases h

/-- `Get()` of an accessible operand answers a byte (R147). -/
theorem operandGet_ok {s : State} {o : Operand8} (h : o = .indHl → ∀ v, s.writable s.hl v = true) :
    ∃ v, operandGet s o = .ok v := by
  cases o with
  | reg r => exact ⟨_, rfl⟩
  | indHl =>
    have hw := h rfl 0
    rw [State.writable, Bool.and_eq_true] at hw
    exact memRead_ok hw.1

/-- `Put(v)` of an accessible operand answers a state with PC, SP, `ime` and the mode as before (R147). -/
theorem operandPut_ok {s : State} {o : Operand8} (h : o = .indHl → ∀ v, s.writable s.hl v = true) (v : Byte) :
    ∃ t, operandPut o v s = .ok t ∧ t.pc = s.pc ∧ t.regs.sp = s.regs.sp ∧ t.ime = s.ime ∧ t.mode = s.mode := by
  cases o with
  | reg r => exact ⟨_, rfl, rfl, regs_sp_setReg s r v, rfl, rfl⟩
  | indHl =>
    obtain ⟨t, ht⟩ := memWrite_ok (h rfl v)
    refine ⟨t, ht, ?_⟩
    rw [memWrite_busWrite ht]
    exact ⟨rfl, rfl, rfl, rfl⟩

/-- A CB-page operation that reads an accessible operand and writes it back completes, two bytes on (R147). -/
theorem getPut_ok {s : State} {o : Operand8} (h : o = .indHl → ∀ v, s.writable s.hl v = true) (cycles : Nat)
    (value : Byte → Byte) (flags : Byte → Flags) :
    ∃ t, answer ((operandGet (s.fetched 2 cycles) o).bind fun v =>
        operandPut o (value v) ((s.fetched 2 cycles).setFlags (flags v))) = .next t ∧
      t.pc = s.nextAddress 2 ∧ t.regs.sp = s.regs.sp ∧ t.ime = s.ime ∧ t.mode = s.mode := by
  obtain ⟨v, hv⟩ := operandGet_ok (s := s.fetched 2 cycles) h
  obtain ⟨t, ht, hkept⟩ := operandPut_ok (s := (s.fetched 2 cycles).setFlags (flags v)) h (value v)
  exact ⟨t, by rw [hv, except_bind_ok, ht, answer_ok], hkept⟩

/-- A CB-page operation on an accessible operand completes, two bytes on (R147 to R159). -/
theorem performCb_ok {op : CbOp} {s : State} (h : cbOperand op = .indHl → ∀ v, s.writable s.hl v = true) :
    ∃ t, performCb op s = .next t ∧ t.pc = s.nextAddress 2 ∧ t.regs.sp = s.regs.sp ∧ t.ime = s.ime ∧ t.mode = s.mode := by
  cases op with
  | rotate rot o =>
    exact getPut_ok h (cbCycles o) (fun v => (rotateValue rot v s.regs.f.c).1)
      fun v => rotateFlags (rotateValue rot v s.regs.f.c)
  | bit b o =>
    obtain ⟨v, hv⟩ := operandGet_ok (s := s.fetched 2 (bitCycles o)) (o := o) h
    refine ⟨(s.fetched 2 (bitCycles o)).setFlags (bitFlags s.regs.f v b), ?_, rfl, rfl, rfl, rfl⟩
    show answer ((operandGet _ o).map _) = _
    rw [hv]
    rfl
  | res b o => exact getPut_ok h (cbCycles o) (fun v => v &&& ~~~(bitMask b)) fun _ => s.regs.f
  | set b o => exact getPut_ok h (cbCycles o) (fun v => v ||| bitMask b) fun _ => s.regs.f

/-- Settles O46: the byte's own instruction runs the same operation, and its operand is (HL) only for a low field of 6. -/
theorem prefixPerformsCbPage : Obligations.PrefixPerformsCbPage := by
  refine fun s op2 => ⟨(cbOpOf op2).instr, decode_cb op2 [], (exec_cbOp_instr (cbOpOf op2) s).symm, fun h => ?_⟩
  refine performCb_ok (op := cbOpOf op2) fun hindHl => h.resolve_left (not_not.mpr ?_)
  have hfield : fieldZ op2 = 6 := operand8Of_eq_indHl ((cbOperand_eq op2).symm.trans hindHl)
  exact (BitVec.extractLsb'_toNat ..).symm.trans hfield

end Sys2Proof.Machine
end

section
/-! PROOFS. Plain RAM and its mirror, the cartridge's two ROM windows and its bank registers, external RAM, and the boot overlay
(20_memory R34 to R41, R48, R55 to R64). -/

namespace Sys2Proof.Machine

/-! ## Plain RAM and its mirror -/

/-- A write to plain RAM touches its own address and the mirror's, and no other (R38, R39). -/
theorem touched_plainRam {variant : Variant} {a x : Word} (ha : plainRam a = true) (hx : x ≠ a) (hm : mirrorOf a x = false) :
    touched variant a x = false := by
  have hrange := plainRam_range ha
  have h46 : a ≠ 0xFF46 := by rw [Ne, eq_iff_toNat, toNat_ff46]; omega
  have h50 : a ≠ 0xFF50 := by rw [Ne, eq_iff_toNat, toNat_ff50]; omega
  simp only [touched, hx, hm, h46, h50, decide_false, Bool.false_or, Bool.false_and, Bool.or_false, Bool.or_eq_false_iff,
    Bool.and_eq_false_iff, decide_eq_false_iff_not]
  omega

/-- Settles O48: what is written is read back, and the reads that may change are the address's and its mirror's. -/
theorem ramReadsBack : Obligations.RamReadsBack := by
  intro s a v ha
  obtain ⟨t, ht, hread, hframe⟩ := memWrite_plainRam v s ha
  exact ⟨t, ht, hread, fun x hx hm => memWrite_reads ht x (touched_plainRam ha hx hm), hframe⟩

/-- Settles O49: the mirror and working RAM have the same cells. -/
theorem mirrorIsWorkingRam : Obligations.MirrorIsWorkingRam := by
  refine fun s a v => ⟨fun h1 h2 => ?_, fun h1 h2 => ?_⟩
  · have hlower : (a - 0x2000).toNat = a.toNat - 0x2000 := by bv_omega
    have hecho := regionOf_echo h1 h2
    have hwram : regionOf (a - 0x2000) = .wram (a.toNat - 0xE000) := by
      rw [regionOf_wram (by omega) (by omega), hlower, Nat.sub_sub]
    constructor
    · rw [memRead, memRead, bootByte_high (by omega), bootByte_high (by omega), regionRead, regionRead, hecho, hwram]
    · rw [memWrite, memWrite, hecho, hwram]
  · have ha : plainRam a = true := by simp [plainRam]; omega
    obtain ⟨t, ht, hread, hreads, _⟩ := ramReadsBack s a v ha
    exact ⟨t, ht, hread, fun x hx => hreads x hx (by simp [mirrorOf]; omega)⟩

/-! ## The boot overlay -/

/-- Over, or above its page, the overlay shadows nothing (R35, R37). -/
theorem bootByte_none {s : State} {a : Word} (h : s.bootActive = false ∨ 0xFF < a.toNat) : bootByte s a = none := by
  rcases h with h | h
  · simp [bootByte, h]
  · exact bootByte_high h

/-- A read of 0x0000-0x3FFF the overlay does not shadow (R55). -/
theorem memRead_fixed {s : State} {a : Word} (ha : a.toNat ≤ 0x3FFF) (h : s.bootActive = false ∨ 0xFF < a.toNat) :
    memRead s a = .ok (romByte s 0 a.toNat) := by
  rw [memRead, bootByte_none h, regionRead, regionOf_fixed ha]

/-- A read of 0x4000-0x7FFF (R55, R56). -/
theorem memRead_banked {s : State} {a : Word} (h1 : 0x4000 ≤ a.toNat) (h2 : a.toNat ≤ 0x7FFF) :
    memRead s a = .ok (romByte s (romBankSel s.cart.variant s.bank) (a.toNat - 0x4000)) := by
  rw [memRead, bootByte_high (by omega), regionRead, regionOf_banked h1 h2]

/-- Settles O50: the bank of the statement is the model's `romBankSel`. -/
theorem readsSelectedBank : Obligations.ReadsSelectedBank := by
  intro s a bank hbank
  have hsel : romBankSel s.cart.variant s.bank = bank := by
    rw [hbank]
    cases s.cart.variant <;> rfl
  refine ⟨fun h1 h2 => ?_, fun ha h => ?_⟩
  · rw [memRead_banked h1 h2, hsel, romByte]
  · rw [memRead_fixed ha h, romByte, Nat.zero_mod, Nat.zero_mul, Nat.zero_add]

/-! ## The bank registers -/

/-- A bit vector is the `ofNat` of its value. -/
theorem eq_ofNat_of_toNat {w n : Nat} {x : BitVec w} (h : x.toNat = n) : x = BitVec.ofNat w n := by
  rw [← h, BitVec.ofNat_toNat, BitVec.setWidth_eq]

/-- A bank number of at most a byte, with 0 coerced to 1 (R61 to R63). -/
theorem coerceBank_byte {w : Byte} {n : Nat} (h : w.toNat = n) :
    coerceBank (w.setWidth 9) = BitVec.ofNat 9 (if n = 0 then 1 else n) := by
  have hw : (w.setWidth 9).toNat = n := by
    rw [BitVec.toNat_setWidth, h]
    exact Nat.mod_eq_of_lt (by have := w.isLt; omega)
  exact eq_ofNat_of_toNat (by rw [coerce_toNat, hw])

section
variable {a : Nat} (v : Byte) (b : Bank)

theorem bankWriteV1_gate (h : a ≤ 0x1FFF) : bankWriteV1 a v b = { b with ramEnable := gateAfter v b.ramEnable } := by
  rw [bankWriteV1, if_pos (by omega), ramGate_eq]

theorem bankWriteV1_rom (h1 : 0x2000 ≤ a) (h2 : a ≤ 0x3FFF) :
    bankWriteV1 a v b = { b with romBank := BitVec.ofNat 9 (if v.toNat % 32 = 0 then 1 else v.toNat % 32) } := by
  rw [bankWriteV1, if_neg (by omega), if_pos (by omega), coerceBank_byte (byte_and_1f v)]

theorem bankWriteV1_hi (h1 : 0x4000 ≤ a) (h2 : a ≤ 0x5FFF) (hmode : b.bankMode = false) :
    bankWriteV1 a v b = { b with romHi := BitVec.ofNat 2 (v.toNat % 4) } := by
  rw [bankWriteV1, if_neg (by omega), if_neg (by omega), if_pos (by omega), hmode, if_neg Bool.false_ne_true,
    eq_ofNat_of_toNat (BitVec.toNat_setWidth 2 v)]

theorem bankWriteV1_ram (h1 : 0x4000 ≤ a) (h2 : a ≤ 0x5FFF) (hmode : b.bankMode = true) :
    bankWriteV1 a v b = { b with ramBank := BitVec.ofNat 8 (v.toNat % 4) } := by
  rw [bankWriteV1, if_neg (by omega), if_neg (by omega), if_pos (by omega), if_pos hmode, eq_ofNat_of_toNat (byte_and_03 v)]

theorem bankWriteV1_mode (h : 0x6000 ≤ a) (hv : v.toNat % 2 = 1) : bankWriteV1 a v b = { b with bankMode := true } := by
  rw [bankWriteV1, if_neg (by omega), if_neg (by omega), if_neg (by omega), if_pos ((bit0_iff v).mpr hv)]

theorem bankWriteV1_clear (h : 0x6000 ≤ a) (hv : v.toNat % 2 = 0) :
    bankWriteV1 a v b = { b with bankMode := false, ramBank := 0 } := by
  rw [bankWriteV1, if_neg (by omega), if_neg (by omega), if_neg (by omega), if_neg (by rw [bit0_iff]; omega)]

theorem bankWriteV2_gate (h : a ≤ 0x1FFF) (hbit : a / 256 % 2 = 0) :
    bankWriteV2 a v b = { b with ramEnable := gateAfter v b.ramEnable } := by
  rw [bankWriteV2, if_pos (by omega), if_pos hbit, ramGate_eq]

theorem bankWriteV2_filtered (h : a ≤ 0x1FFF) (hbit : a / 256 % 2 = 1) : bankWriteV2 a v b = b := by
  rw [bankWriteV2, if_pos (by omega), if_neg (by omega)]

theorem bankWriteV2_rom (h1 : 0x2000 ≤ a) (h2 : a ≤ 0x3FFF) :
    bankWriteV2 a v b = { b with romBank := BitVec.ofNat 9 (if v.toNat % 16 = 0 then 1 else v.toNat % 16) } := by
  rw [bankWriteV2, if_neg (by omega), if_pos (by omega), coerceBank_byte (byte_and_0f v)]

theorem bankWriteV2_none (h : 0x4000 ≤ a) : bankWriteV2 a v b = b := by
  rw [bankWriteV2, if_neg (by omega), if_neg (by omega)]

theorem bankWriteV3_gate (h : a ≤ 0x1FFF) : bankWriteV3 a v b = { b with ramEnable := gateAfter v b.ramEnable } := by
  rw [bankWriteV3, if_pos (by omega), ramGate_eq]

theorem bankWriteV3_rom (h1 : 0x2000 ≤ a) (h2 : a ≤ 0x3FFF) :
    bankWriteV3 a v b = { b with romBank := BitVec.ofNat 9 (if v.toNat = 0 then 1 else v.toNat) } := by
  rw [bankWriteV3, if_neg (by omega), if_pos (by omega), coerceBank_byte rfl]

theorem bankWriteV3_ram (h1 : 0x4000 ≤ a) (h2 : a ≤ 0x5FFF) : bankWriteV3 a v b = { b with ramBank := v } := by
  rw [bankWriteV3, if_neg (by omega), if_neg (by omega), if_pos (by omega)]

theorem bankWriteV3_none (h : 0x6000 ≤ a) : bankWriteV3 a v b = b := by
  rw [bankWriteV3, if_neg (by omega), if_neg (by omega), if_neg (by omega)]

theorem bankWriteV5_gate (h : a ≤ 0x1FFF) : bankWriteV5 a v b = { b with ramEnable := gateAfter v b.ramEnable } := by
  rw [bankWriteV5, if_pos (by omega), ramGate_eq]

theorem bankWriteV5_low (h1 : 0x2000 ≤ a) (h2 : a ≤ 0x2FFF) :
    bankWriteV5 a v b = { b with romBank := BitVec.ofNat 9 (b.romBank.toNat / 256 * 256 + v.toNat) } := by
  rw [bankWriteV5, if_neg (by omega), if_pos (by omega), eq_ofNat_of_toNat (romBank_low b.romBank v)]

theorem bankWriteV5_high (h1 : 0x3000 ≤ a) (h2 : a ≤ 0x3FFF) :
    bankWriteV5 a v b = { b with romBank := BitVec.ofNat 9 (v.toNat % 2 * 256 + b.romBank.toNat % 256) } := by
  rw [bankWriteV5, if_neg (by omega), if_neg (by omega), if_pos (by omega), eq_ofNat_of_toNat (romBank_high b.romBank v)]

theorem bankWriteV5_ram (h1 : 0x4000 ≤ a) (h2 : a ≤ 0x5FFF) :
    bankWriteV5 a v b = { b with ramBank := BitVec.ofNat 8 (v.toNat % 16) } := by
  rw [bankWriteV5, if_neg (by omega), if_neg (by omega), if_neg (by omega), if_pos (by omega),
    eq_ofNat_of_toNat (byte_and_0f v)]

theorem bankWriteV5_none (h : 0x6000 ≤ a) : bankWriteV5 a v b = b := by
  rw [bankWriteV5, if_neg (by omega), if_neg (by omega), if_neg (by omega), if_neg (by omega)]

/-- The gate of every controller (R59). -/
theorem bankWrite_gate {variant : Variant} (hv : variant ≠ .plain) (h : a ≤ 0x1FFF) (h2 : variant = .v2 → a / 256 % 2 = 0) :
    bankWrite variant a v b = { b with ramEnable := gateAfter v b.ramEnable } := by
  cases variant with
  | plain => exact absurd rfl hv
  | v1 => exact bankWriteV1_gate v b h
  | v2 => exact bankWriteV2_gate v b h (h2 rfl)
  | v3 => exact bankWriteV3_gate v b h
  | v5 => exact bankWriteV5_gate v b h

end

/-- Settles O51: window by window on each variant. -/
theorem selectsBank : Obligations.SelectsBank := by
  intro s a v ha
  refine ⟨_, memWrite_rom v s ha, rfl, ?_⟩
  cases s.cart.variant with
  | plain => rfl
  | v1 =>
    exact ⟨bankWriteV1_gate v s.bank, bankWriteV1_rom v s.bank, bankWriteV1_hi v s.bank, bankWriteV1_ram v s.bank,
      bankWriteV1_mode v s.bank, bankWriteV1_clear v s.bank⟩
  | v2 =>
    exact ⟨bankWriteV2_gate v s.bank, bankWriteV2_filtered v s.bank, bankWriteV2_rom v s.bank, bankWriteV2_none v s.bank⟩
  | v3 =>
    exact ⟨bankWriteV3_gate v s.bank, bankWriteV3_rom v s.bank, bankWriteV3_ram v s.bank, bankWriteV3_none v s.bank⟩
  | v5 =>
    exact ⟨bankWriteV5_gate v s.bank, bankWriteV5_low v s.bank, bankWriteV5_high v s.bank, bankWriteV5_ram v s.bank,
      bankWriteV5_none v s.bank⟩

/-- Settles O56: the overlay shadows no write, and 0xFF50 takes it off. -/
theorem bootOverlay : Obligations.BootOverlay := by
  refine fun s a v => ⟨fun image hactive himage ha => ?_, fun hover ha => memRead_fixed (by omega) (.inl hover),
    fun ha => ⟨_, memWrite_rom v s (by omega), rfl, fun hv1 hv => ?_⟩, ?_⟩
  · simp [memRead, bootByte, hactive, himage, ha]
  · show (bankWrite s.cart.variant a.toNat v s.bank).ramEnable = true
    rw [hv1, bankWrite_gate v s.bank (by decide) (by omega) (fun h => by cases h)]
    exact if_pos hv
  · refine ⟨_, memWrite_io v s 0x50 (by decide) rfl, ?_, fun hv => ?_, ?_⟩
    · exact (memRead_io _ 0x50 (by decide) rfl).trans (congrArg Except.ok (ioCell_setIoCell_same s 0x50 v))
    · show (s.bootActive && v == 0) = false
      rw [beq_false_of_ne hv, Bool.and_false]
    · rintro rfl
      exact Bool.and_true _

end Sys2Proof.Machine
end

section
/-! PROOFS. External RAM (20_memory R57 to R63): closed or absent it answers 0xFF and drops what is written, open it is a bank of
cells, or variant-2's 4-bit entries; and the clock registers the spec refuses. -/

namespace Sys2Proof.Machine

/-! ## What the window does -/

/-- A cell of external RAM written (R57). -/
def storeExt (cell : Nat) (v : Byte) (s : State) : State := { s with ram := { s.ram with ext := cellInsert s.ram.ext cell v } }

/-- One of variant-2's 4-bit entries written (R62). -/
def storeEntry (entry : Nat) (v : Byte) (s : State) : State :=
  { s with ram := { s.ram with mbc2 := cellInsert s.ram.mbc2 entry (v &&& 0x0F) } }

/-- Closed, or absent with no clock register selected, external RAM reads 0xFF and drops writes (R57, R59, R60). -/
theorem extRam_dropped {s : State} (h : (s.cart.variant ≠ .plain ∧ s.bank.ramEnable = false) ∨
    (s.cart.variant ≠ .v2 ∧ s.cart.ramBanks = 0 ∧ rtcSelected s = false)) (offset : Nat) (v : Byte) :
    extRamRead s offset = .ok 0xFF ∧ extRamWrite offset v s = .ok s := by
  by_cases hv2 : s.cart.variant = .v2
  · obtain ⟨_, hgate⟩ := h.resolve_right fun habsent => habsent.1 hv2
    simp [extRamRead, extRamWrite, hv2, hgate]
  · have hrtc : rtcSelected s = false := by
      rcases h with ⟨_, hgate⟩ | ⟨_, _, hrtc⟩
      · simp [rtcSelected, hgate]
      · exact hrtc
    have hclosed : extRamClosed s = true := by
      rcases h with ⟨hvar, hgate⟩ | ⟨_, hbanks, _⟩
      · simp [extRamClosed, hvar, hgate]
      · simp [extRamClosed, hbanks]
    simp [extRamRead, extRamWrite, hv2, hrtc, hclosed]

/-- Open, external RAM is the selected bank (R57). -/
theorem extRam_open {s : State} (hv2 : s.cart.variant ≠ .v2) (hgate : s.cart.variant = .plain ∨ s.bank.ramEnable = true)
    (hbanks : 0 < s.cart.ramBanks) (hrtc : rtcSelected s = false) (offset : Nat) (v : Byte) :
    extRamRead s offset = .ok (ramByte .ext s.ram.ext (extRamIndex s offset)) ∧
      extRamWrite offset v s = .ok (storeExt (extRamIndex s offset) v s) := by
  have hclosed : extRamClosed s = false := by
    rw [extRamClosed, beq_false_of_ne (by omega), Bool.or_false]
    rcases hgate with h | h <;> simp [h]
  simp [extRamRead, extRamWrite, storeExt, hv2, hrtc, hclosed]

/-- Variant-2's entries, with the gate open (R62). -/
theorem extRam_v2 {s : State} (hv2 : s.cart.variant = .v2) (hgate : s.bank.ramEnable = true) (offset : Nat) (v : Byte) :
    extRamRead s offset = .ok (0xF0 ||| ramByte .mbc2 s.ram.mbc2 (offset % 0x200)) ∧
      extRamWrite offset v s = .ok (storeEntry (offset % 0x200) v s) := by
  simp [extRamRead, extRamWrite, storeEntry, hv2, hgate]

/-- A clock register is refused (R63). -/
theorem extRam_rtc {s : State} (hrtc : rtcSelected s = true) (offset : Nat) (v : Byte) :
    extRamRead s offset = .error .rtcRegister ∧ extRamWrite offset v s = .error .rtcRegister := by
  have hv2 : s.cart.variant ≠ .v2 := by
    intro h
    simp [rtcSelected, h] at hrtc
  simp [extRamRead, extRamWrite, hv2, hrtc]

/-! ## Which reads a write to the window may change -/

/-- On every variant but 2 a write to external RAM touches its own address alone (R57). -/
theorem touched_ext {variant : Variant} {a x : Word} (h1 : 0xA000 ≤ a.toNat) (h2 : a.toNat ≤ 0xBFFF)
    (hv2 : variant ≠ .v2) (hx : x ≠ a) : touched variant a x = false := by
  have h46 : a ≠ 0xFF46 := by rw [Ne, eq_iff_toNat, toNat_ff46]; omega
  have h50 : a ≠ 0xFF50 := by rw [Ne, eq_iff_toNat, toNat_ff50]; omega
  simp only [touched, mirrorOf, hx, hv2, h46, h50, decide_false, Bool.false_or, Bool.false_and, Bool.or_false,
    Bool.or_eq_false_iff, Bool.and_eq_false_iff, decide_eq_false_iff_not]
  omega

/-- On variant-2 it touches the mirrors of its entry alone (R62). -/
theorem touched_v2 {a x : Word} (h1 : 0xA000 ≤ a.toNat) (h2 : a.toNat ≤ 0xBFFF)
    (hx : x.toNat < 0xA000 ∨ 0xBFFF < x.toNat ∨ x.toNat % 0x200 ≠ a.toNat % 0x200) : touched .v2 a x = false := by
  have hne : x ≠ a := by
    rintro rfl
    omega
  have h46 : a ≠ 0xFF46 := by rw [Ne, eq_iff_toNat, toNat_ff46]; omega
  have h50 : a ≠ 0xFF50 := by rw [Ne, eq_iff_toNat, toNat_ff50]; omega
  simp only [touched, mirrorOf, hne, h46, h50, decide_false, Bool.false_or, Bool.false_and, Bool.or_false,
    Bool.or_eq_false_iff, Bool.and_eq_false_iff, decide_eq_false_iff_not]
  omega

/-! ## The statements -/

/-- An open window of cells: the read, and a write with the cell and the reads it changes (R57). -/
theorem extRam_cell {s : State} {a : Word} (v : Byte) (h1 : 0xA000 ≤ a.toNat) (h2 : a.toNat ≤ 0xBFFF)
    (hv2 : s.cart.variant ≠ .v2) (hgate : s.cart.variant = .plain ∨ s.bank.ramEnable = true)
    (hbanks : 0 < s.cart.ramBanks) (hrtc : rtcSelected s = false) :
    memRead s a = .ok (ramByte .ext s.ram.ext (extCell s a)) ∧
      ∃ t, memWrite a v s = .ok t ∧ memRead t a = .ok v ∧ t = { s with ram := { s.ram with ext := t.ram.ext } } ∧
        (∀ k, ramByte .ext t.ram.ext k = if k = extCell s a then v else ramByte .ext s.ram.ext k) ∧
        (∀ x, x ≠ a → memRead t x = memRead s x) := by
  obtain ⟨hread, hwrite⟩ := extRam_open hv2 hgate hbanks hrtc (a.toNat - 0xA000) v
  rw [← extCell_eq] at hread hwrite
  have hw := (memWrite_ext v s h1 h2).trans hwrite
  refine ⟨(memRead_ext s h1 h2).trans hread, _, hw, ?_, rfl, fun k => ?_, fun x hx => ?_⟩
  · rw [memRead_ext _ h1 h2, (extRam_open (s := storeExt _ v s) hv2 hgate hbanks hrtc _ v).1, ← extCell_eq]
    exact congrArg Except.ok (ramByte_insert_same ..)
  · split_ifs with hk
    · rw [hk]
      exact ramByte_insert_same ..
    · exact ramByte_insert_other _ _ _ _ _ hk
  · exact memWrite_reads hw x (touched_ext h1 h2 hv2 hx)

/-- Settles O52: the gate, the closed window, the open one, and variant-2's entries. -/
theorem gatesExternalRam : Obligations.GatesExternalRam := by
  refine fun s a v => ⟨fun hvar ha hbit => ?_, fun h1 h2 => ⟨fun hclosed => ?_, fun hv2 hgate hbanks hacc => ?_,
    fun hv2 hgate => ?_⟩⟩
  · have hbank := bankWrite_gate v s.bank hvar ha hbit
    refine ⟨_, memWrite_rom v s (by omega), ?_, congrArg Bank.ramEnable hbank⟩
    show ({ s with bank := bankWrite s.cart.variant a.toNat v s.bank } : State) = { s with bank := _ }
    rw [hbank]
  · obtain ⟨hread, hwrite⟩ := extRam_dropped (s := s) (hclosed.imp_right fun ⟨hv2, hbanks, hacc⟩ =>
      ⟨hv2, hbanks, not_rtc_of_accessible hacc h1 h2⟩) (a.toNat - 0xA000) v
    exact ⟨(memRead_ext s h1 h2).trans hread, (memWrite_ext v s h1 h2).trans hwrite⟩
  · exact extRam_cell v h1 h2 hv2 hgate hbanks (not_rtc_of_accessible hacc h1 h2)
  · have hentry : ∀ {x : Word}, 0xA000 ≤ x.toNat → (x.toNat - 0xA000) % 0x200 = x.toNat % 0x200 := by omega
    obtain ⟨hread, hwrite⟩ := extRam_v2 hv2 hgate (a.toNat - 0xA000) v
    rw [hentry h1] at hread hwrite
    have hw := (memWrite_ext v s h1 h2).trans hwrite
    refine ⟨(memRead_ext s h1 h2).trans hread, _, hw, rfl, fun x hx1 hx2 hx => ?_, fun x hx => ?_⟩
    · rw [memRead_ext _ hx1 hx2, (extRam_v2 (s := storeEntry _ v s) hv2 hgate _ v).1, hentry hx1, hx, storeEntry,
        ramByte_insert_same]
    · exact memWrite_reads hw x (by rw [hv2]; exact touched_v2 h1 h2 hx)

/-- Settles O53: the clock register is refused in every access, by an instruction too. -/
theorem refusesClockRegister : Obligations.RefusesClockRegister := by
  refine fun s a v hvar hgate h1 h2 => ⟨fun hbank => ?_, fun hbank hbanks => ?_⟩
  · have hrtc : rtcSelected s = true := by simp [rtcSelected, hvar, hgate, hbank]
    have hread := (memRead_ext s h1 h2).trans (extRam_rtc hrtc _ v).1
    have hload : exec (.ldAIndNn a) s = .refused .rtcRegister := by
      show answer ((memRead s a).map _) = _
      rw [hread]
      rfl
    refine ⟨hread, (memWrite_ext v s h1 h2).trans (extRam_rtc hrtc _ v).2, hload, ?_, by rw [hload]; rfl⟩
    show answer (memWrite a s.regs.a (s.fetched 3 16)) = _
    rw [memWrite_ext _ _ h1 h2, (extRam_rtc (s := s.fetched 3 16) hrtc _ _).2]
    rfl
  · have hrtc : rtcSelected s = false := by simp [rtcSelected, hbank]
    obtain ⟨_, t, ht, hread, _, _, hreads⟩ := extRam_cell v h1 h2 (by rw [hvar]; decide) (.inr hgate) hbanks hrtc
    exact ⟨t, ht, hread, hreads⟩

end Sys2Proof.Machine
end

section
/-! PROOFS. The I/O registers (20_memory R42 to R49): what each reads after a write, and the DMA copy. -/

namespace Sys2Proof.Machine

/-! ## One I/O register at a time -/

/-- An I/O register that is not routed elsewhere reads its cell (R49). -/
theorem ioRead_cell (s : State) {offset : Nat} (h : ioRouted offset = false) : ioRead s offset = ioCell s offset := by
  unfold ioRead
  split
  case h_7 => rfl
  all_goals cases h

/-- A cell of the I/O page is read at its own address alone (R49). -/
theorem memRead_setIoCell (s : State) {offset : Nat} (v : Byte) {x : Word} (hx : x.toNat ≠ 0xFF00 + offset) :
    memRead (setIoCell offset v s) x = memRead s x := by
  refine memRead_congr x (.inl rfl) rfl rfl rfl (fun _ _ => rfl) (fun _ _ => rfl) (fun _ _ => rfl) (fun _ _ => rfl)
    (fun _ _ => rfl) (fun k hr => ?_) (fun _ _ => rfl) (fun _ => rfl)
  have hspec := regionOf_spec x
  rw [hr] at hspec
  obtain ⟨_, _, hk⟩ := hspec
  refine ioRead_congr k rfl (fun _ => rfl) ?_ (fun _ => rfl) (ioCell_setIoCell_other (by omega))
  rintro (rfl | rfl | rfl | rfl) <;> rfl

/-- The DMA register reads the byte written (R47). -/
theorem ioRead_dma {v : Byte} {s t : State} (h : dmaCopy (wordOf v 0x00) 160 (setIoCell 0x46 v s) = .ok t) :
    ioRead t 0x46 = v := by
  rw [(dmaCopy_spec h).1]
  exact ioCell_setIoCell_same s 0x46 v

/-! ## The DMA copy -/

theorem wordOf_zero (v : Byte) : wordOf v 0x00 = BitVec.ofNat 16 (v.toNat * 256) := by
  refine eq_ofNat_of_toNat ?_
  rw [wordOf, BitVec.toNat_append]
  exact (Nat.or_zero _).trans (Nat.shiftLeft_eq ..)

theorem dma_source (v : Byte) (i : Nat) : wordOf v 0x00 + BitVec.ofNat 16 i = BitVec.ofNat 16 (v.toNat * 256 + i) := by
  rw [wordOf_zero, BitVec.ofNat_add]

/-- The DMA trigger touches its own address and the sprite table (R47). -/
theorem touched_dma {variant : Variant} {x : Word} (hx : x ≠ 0xFF46) (hoam : x.toNat < 0xFE00 ∨ 0xFE9F < x.toNat) :
    touched variant 0xFF46 x = false := by
  have hpage : (0xFF46 : Word) ≠ 0xFF50 := by decide
  simp only [touched, mirrorOf, hx, hpage, toNat_ff46, decide_false, Bool.false_or, Bool.false_and, Bool.or_false,
    Bool.or_eq_false_iff, Bool.and_eq_false_iff, decide_eq_false_iff_not]
  omega

/-- Settles O54: each byte copied is the one the bus read before the copy began. -/
theorem dmaCopies : Obligations.DmaCopies := by
  intro s v hacc
  rw [← wordOf_zero] at hacc
  obtain ⟨t, ht⟩ := dmaCopy_ok (s := setIoCell 0x46 v s) hacc (Nat.le_refl 160)
  have hwrite : memWrite 0xFF46 v s = .ok t := by
    rw [memWrite_io v s 0x46 (by decide) rfl, ioWrite_dma, ht]
  have hcopied : ∀ i, i < 160 → memRead t (BitVec.ofNat 16 (0xFE00 + i)) =
      memRead (setIoCell 0x46 v s) (BitVec.ofNat 16 (v.toNat * 256 + i)) := by
    intro i hi
    rw [memRead_oam hi, ← dma_source, dmaCopy_copies (Nat.le_refl 160) ht i hi]
  refine ⟨t, hwrite, ?_, fun i hi hne => ?_, ?_, fun x hx hoam => memWrite_reads hwrite x (touched_dma hx hoam), ?_⟩
  · rw [memRead_io t 0x46 (by decide) rfl, ioRead_dma ht]
  · rw [hcopied i hi, memRead_setIoCell s v]
    rw [← dma_source, dma_src_toNat hi]
    exact hne
  · rintro rfl
    refine (hcopied 0x46 (by decide)).trans ((memRead_io _ 0x46 (by decide) rfl).trans ?_)
    exact congrArg Except.ok (ioCell_setIoCell_same s 0x46 0xFF)
  · rw [(dmaCopy_spec ht).1]
    rfl

/-! ## Reading back what was written -/

/-- What an I/O register reads after `v` is written to it (R42 to R49). -/
def ioReadBack (draws : Nat) (offset : Nat) (v : Byte) : Byte :=
  if offset = 0x00 then Config.inputRead draws (BitVec.ofNat 2 (v.toNat / 16))
  else if offset = 0x04 ∨ offset = 0x44 then 0x00
  else if offset = 0x07 then 0xF8 ||| (v &&& 0x07)
  else if offset = 0x0F then 0xE0 ||| (v &&& 0x1F)
  else v

theorem selection_bits (v : Byte) : v.extractLsb' 4 2 = BitVec.ofNat 2 (v.toNat / 16) := by
  apply BitVec.eq_of_toNat_eq
  rw [BitVec.extractLsb'_toNat, BitVec.toNat_ofNat, Nat.shiftRight_eq_div_pow]

/-- The low `k` bits of a byte, widened to it again. -/
theorem setWidth_setWidth_byte {k : Nat} (hk : k ≤ 8) (v : Byte) :
    (v.setWidth k).setWidth 8 = v &&& BitVec.ofNat 8 (2 ^ k - 1) := by
  apply BitVec.eq_of_toNat_eq
  have hpow : 2 ^ k ≤ 2 ^ 8 := Nat.pow_le_pow_right (by decide) hk
  rw [BitVec.toNat_setWidth, BitVec.toNat_setWidth, BitVec.toNat_and, BitVec.toNat_ofNat,
    Nat.mod_eq_of_lt (a := 2 ^ k - 1) (by omega), Nat.and_two_pow_sub_one_eq_mod]
  exact Nat.mod_eq_of_lt (lt_of_le_of_lt (Nat.mod_le _ _) v.isLt)

theorem ioRead_ioWrite {offset : Nat} {v : Byte} {s t : State} (h : ioWrite offset v s = .ok t) :
    ioRead t offset = ioReadBack s.draws offset v := by
  by_cases hly : offset = 0x44
  · subst hly
    cases h
    exact ioCell_setIoCell_same s 0x44 0x00
  rcases ioWrite_cases h with ⟨rfl, rfl⟩ | ⟨rfl, rfl⟩ | ⟨rfl, rfl⟩ | ⟨rfl, rfl⟩ | ⟨rfl, rfl⟩ | ⟨rfl, rfl⟩ | ⟨rfl, hd⟩ |
    ⟨rfl, rfl⟩ | ⟨h00, h04, h05, h06, h07, h0F, _, _, w, outs, rfl, hw⟩
  · exact congrArg (Config.inputRead s.draws) (selection_bits v)
  · rfl
  · rfl
  · rfl
  · exact congrArg (0xF8 ||| ·) (setWidth_setWidth_byte (by decide) v)
  · exact congrArg (0xE0 ||| ·) (setWidth_setWidth_byte (by decide) v)
  · exact ioRead_dma hd
  · exact ioCell_setIoCell_same s 0x50 v
  · rw [ioRead_cell _ (by simp [ioRouted, h00, h04, h05, h06, h07, h0F]), hw hly]
    simp only [ioReadBack, h00, h04, h07, h0F, hly, or_self, if_false]
    exact ioCell_setIoCell_same s offset v

/-- TAC's period selection is its low two bits (R26, R195). -/
theorem periodSelection_eq_iff (v : Byte) (tac : BitVec 3) :
    v.setWidth 2 = tac.setWidth 2 ↔ v.toNat % 4 = tac.toNat % 4 := by
  rw [← BitVec.toNat_inj, BitVec.toNat_setWidth, BitVec.toNat_setWidth]

theorem memRead_irqEnable (s : State) : memRead s 0xFFFF = .ok s.irqEnable := by
  rw [memRead, bootByte_high (by decide)]
  rfl

/-- Settles O55: the I/O page by its offsets, and IE apart. -/
theorem ioReadsBack : Obligations.IoReadsBack := by
  intro s a v ha hw
  obtain ⟨t, ht⟩ := memWrite_ok hw
  refine ⟨t, ht, ?_⟩
  rcases ha with ⟨h1, h2⟩ | rfl
  · obtain ⟨offset, hlt, hoff⟩ : ∃ offset < 0x80, a.toNat = 0xFF00 + offset := ⟨a.toNat - 0xFF00, by omega, by omega⟩
    have haddress : ∀ k < 0x80, a = BitVec.ofNat 16 (0xFF00 + k) ↔ offset = k := by
      intro k hk
      rw [eq_iff_toNat, hoff, BitVec.toNat_ofNat]
      omega
    have hjoyp : a = 0xFF00 ↔ offset = 0x00 := haddress 0x00 (by decide)
    have hdiv : a = 0xFF04 ↔ offset = 0x04 := haddress 0x04 (by decide)
    have htac : a = 0xFF07 ↔ offset = 0x07 := haddress 0x07 (by decide)
    have hif : a = 0xFF0F ↔ offset = 0x0F := haddress 0x0F (by decide)
    have hly : a = 0xFF44 ↔ offset = 0x44 := haddress 0x44 (by decide)
    rw [memWrite_io v s offset hlt hoff] at ht
    rw [memRead_io t offset hlt hoff, ioRead_ioWrite ht]
    simp only [hjoyp, hdiv, htac, hif, hly]
    refine ⟨rfl, ?_, ?_, ?_⟩
    · rintro rfl
      cases ht
      rfl
    · rintro rfl
      cases ht
      simp only [periodSelection_eq_iff]
    · rintro rfl
      cases ht
      exact BitVec.toNat_setWidth 5 v
  · cases ht
    exact ⟨memRead_irqEnable _, fun h => absurd h (by decide), fun h => absurd h (by decide), fun h => absurd h (by decide)⟩

end Sys2Proof.Machine
end

section
/-! PROOFS. Reset, loading, and the host's moves between steps (10_state R32; 20_memory R50 to R54; 60_exceptions R202;
70_reset_and_hazards R204). -/

namespace Sys2Proof.Machine

/-! ## The machine that is loaded -/

theorem bankLegal_reset (variant : Variant) : bankLegal variant Bank.reset = true := by cases variant <;> rfl

/-- Memory with no byte array written but the I/O page is in canonical form when that page and the images are. -/
theorem memory_wf_of_loaded {s : State} {io : Mem}
    (hram : s.ram = { vram := [], wram := [], oam := [], hram := [], io := io, ext := [], mbc2 := [] })
    (hio : Mem.wf ramUnlisted 0x80 io = true) (hrom : Mem.wf imageUnlisted s.cart.romLength s.cart.rom = true)
    (hboot : ∀ image, s.cfg.bootRom = some image → Mem.wf imageUnlisted 0x100 image = true) : Memory.wf s = true := by
  rw [memory_wf_iff, hram]
  refine ⟨rfl, rfl, rfl, rfl, hio, rfl, rfl, rfl, hrom, ?_⟩
  cases himage : s.cfg.bootRom with
  | none => rfl
  | some image => exact hboot image himage

section
variable {cart : Cart} {cfg : Config} (hrom : Mem.wf imageUnlisted cart.romLength cart.rom = true)
  (hbanks : 0 < cart.romBanks)
include hrom hbanks

/-- The post-boot mode meets the invariant (R32, R204). -/
theorem postBoot_inv (hboot : cfg.bootRom = none) : (State.postBoot cart cfg).Inv where
  memory := memory_wf_of_loaded (io := ioPostBootCells) rfl (by decide) hrom (by simp [State.postBoot, hboot])
  divSub := Nat.zero_lt_succ 255
  timaSub := timerPeriod_pos 0
  eiDelay := .inl rfl
  bank := bankLegal_reset cart.variant
  romBanks := hbanks
  overlay h := absurd h Bool.false_ne_true

/-- The boot mode meets the invariant: the overlay is active over a boot image, with the disable register clear (R32, R204). -/
theorem bootMode_inv {image : Mem} (hboot : cfg.bootRom = some image) (himage : Mem.wf imageUnlisted 0x100 image = true) :
    (State.bootMode cart cfg).Inv where
  memory := by
    refine memory_wf_of_loaded (io := ioBootCells) rfl (by decide) hrom fun other hother => ?_
    cases hboot.symm.trans hother
    exact himage
  divSub := Nat.zero_lt_succ 255
  timaSub := timerPeriod_pos 0
  eiDelay := .inl rfl
  bank := bankLegal_reset cart.variant
  romBanks := hbanks
  overlay _ := ⟨congrArg Option.isSome hboot, show cellRead ioBootCells 0x50 = some 0x00 by decide⟩

end

/-- A read whose byte is `v`, as a question that evaluation decides. -/
theorem memRead_of_toOption {s : State} {a : Word} {v : Byte} (h : (memRead s a).toOption = some v) :
    memRead s a = .ok v := by
  cases hread : memRead s a with
  | ok w => exact congrArg Except.ok (Option.some.inj ((congrArg Except.toOption hread).symm.trans h))
  | error r => cases (congrArg Except.toOption hread).symm.trans h

/-- Settles O58: the invariant from `postBoot_inv`, and each value by evaluating the reset state. -/
theorem resetState : Obligations.ResetState := by
  refine ⟨postBoot_inv (cart := Cart.blank) rfl (by decide) rfl, rfl, rfl, rfl, rfl, rfl, rfl, rfl, rfl, rfl, rfl, rfl, rfl, rfl,
    rfl, rfl, rfl, rfl, rfl, ?_, ?_⟩
  all_goals
    rw [← List.forall_iff_forall_mem]
    simp only [List.Forall]
    constructorm* _ ∧ _
  all_goals exact memRead_of_toOption (by decide)

/-! ## Loading -/

/-- A size code that is accepted gives at least two banks (R53). -/
theorem romBanksOf_pos {code : Byte} {banks : Nat} (h : romBanksOf code = .ok banks) : 0 < banks := by
  unfold romBanksOf at h
  split at h
  · cases h
    rw [Nat.shiftLeft_eq]
    positivity
  · cases h

/-- An image that is accepted has its bytes in canonical form and a ROM bank to select (R50, R53). -/
theorem loadCart_ok {image : List Byte} {cart : Cart} (h : loadCart image = .ok cart) :
    Mem.wf imageUnlisted cart.romLength cart.rom = true ∧ 0 < cart.romBanks := by
  unfold loadCart at h
  split at h
  · cases h
  · simp only [except_bind_eq_ok, except_map_eq_ok] at h
    obtain ⟨_, _, banks, hbanks, _, _, rfl⟩ := h
    exact ⟨imageCells_wf image, romBanksOf_pos hbanks⟩

theorem load_unreadable {image : List Byte} (h : image.length < 0x150) (boot : Option (Vector Byte 256)) (cycles : Nat)
    (flags : SpOffsetFlags) : load image boot cycles flags = .error .unreadable := by
  rw [load, loadCart, if_pos h]
  rfl

/-! ## The host's moves -/

/-- A move between steps keeps the invariant (R202). -/
theorem hostMove_inv {s : State} (move : HostMove) (h : s.Inv) : (hostMove move s).Inv := by
  cases move with
  | requestInterrupt source => exact BusInv.inv (h.busInv.congr rfl rfl rfl rfl rfl rfl) h.eiDelay
  | setVideo stat ly =>
    exact (busInv_setIoCell ly (by decide) (by decide) (busInv_setIoCell stat (by decide) (by decide) h.busInv)).inv h.eiDelay
  | release =>
    rw [hostMove]
    split_ifs
    · exact BusInv.inv (h.busInv.congr rfl rfl rfl rfl rfl rfl) h.eiDelay
    · exact h

/-- Settles O59: the two reset modes, over a cartridge that loaded. -/
theorem hostKeepsInvariant : Obligations.HostKeepsInvariant := by
  refine ⟨fun image boot cycles flags => ⟨fun h => load_unreadable h boot cycles flags, fun s h => ?_⟩,
    fun s move h => hostMove_inv move h⟩
  rw [load, except_map_eq_ok] at h
  obtain ⟨cart, hcart, hs⟩ := h
  obtain ⟨hrom, hbanks⟩ := loadCart_ok hcart
  cases boot with
  | none =>
    cases hs
    exact ⟨postBoot_inv hrom hbanks rfl, rfl, rfl, rfl, rfl, rfl, rfl, rfl, rfl, rfl⟩
  | some boot =>
    cases hs
    have himage : Mem.wf imageUnlisted 0x100 (imageCells boot.toList 0) = true := by
      have hwf := imageCells_wf boot.toList
      rwa [Vector.length_toList] at hwf
    exact ⟨bootMode_inv hrom hbanks rfl himage, rfl, rfl, rfl, rfl, rfl, rfl, rfl, rfl, rfl⟩

end Sys2Proof.Machine
end
